-- ==== Sys2Proof/Word.lean ====
section
/-! DEFINITION. The bit-vector types of the block: a byte, a 16-bit word of a checksum, and a register (rules R7, R8, R20). -/

namespace Sys2Proof

/-- A byte: 8 bits (rule R7). -/
abbrev Byte := BitVec 8

/-- A 16-bit value: a word of a checksum, an accumulator, a seed, a 16-bit header field (rules R100, R101). -/
abbrev Half := BitVec 16

/-- A 32-bit value: a general register, a command word, a response value (rules R20, R70, R86). -/
abbrev Word := BitVec 32

end Sys2Proof
end

