-- ==== Sys2Proof/Syntax.lean ====
section
/-! DEFINITION. The commands of the block as data: one constructor per row of spec/opcode_table.json (rule R78), with
the operands of the row's "fields used" column. -/

namespace Sys2Proof

/-- A general register number, `x0` to `x15` (rules R20, R77). -/
abbrev Reg := BitVec 4

/-- A region descriptor number, 0 to 3 (rules R32, R77). -/
abbrev RgnIdx := BitVec 2

/-- A packet bank, the `loc` operand of packet and parse commands: 0 = `P0`, 1 = `P1` (rule R76). `STAGE` and the
reserved value 3 are illegal in these commands, so they have no constructor. -/
inductive BankId where
  | p0
  | p1
  deriving DecidableEq, Repr

/-- The `loc` operand of the other header commands: the view in a bank, or the staging register of the command's kind
(rule R76). The reserved value 3 has no constructor. -/
inductive Loc where
  | bank (p : BankId)
  | stage
  deriving DecidableEq, Repr

/-- The offset selector of `PKT.GETOFF`: 0 = `NET`, 1 = `TRN`, 2 = `PAY` (rule R77). The value 3 is illegal. -/
inductive OffSel where
  | net
  | trn
  | pay
  deriving DecidableEq, Repr

/-- The commands (rule R78), in the order of the opcode table. The CSR number of `SYS.RDCSR` is the raw 4-bit `fld`
field: 5, 6 and 7 are reserved (rule R33), which `Instr.wellFormed` checks. -/
inductive Instr where
  | li (rd : Reg) (imm16 : Half)
  | lih (rd : Reg) (imm16 : Half)
  | add (rd rs1 rs2 : Reg)
  | sub (rd rs1 rs2 : Reg)
  | csfold (rd rs1 rs2 : Reg)
  | csum (rd rs3 : Reg) (k : RgnIdx)
  | csum2 (rd rs3 : Reg) (k j : RgnIdx)
  | rgnSet (rs1 rs2 : Reg) (loc : BankId) (k : RgnIdx)
  | pktNew (rs1 : Reg) (loc : BankId)
  | pktNewReply (loc : BankId) (k : RgnIdx)
  | pktWr8 (rs1 rs2 : Reg) (loc : BankId)
  | pktRd8 (rd rs1 : Reg) (loc : BankId)
  | pktFillI (loc : BankId)
  | pktFillU (loc : BankId)
  | pktFillN (loc : BankId)
  | pktGetOff (rd : Reg) (loc : BankId) (j : OffSel)
  | pktTlen (rd : Reg) (loc : BankId)
  | pktPayload (loc : BankId) (k : RgnIdx)
  | pktWhole (loc : BankId) (k : RgnIdx)
  | ipParse (loc : BankId)
  | ipVersion (rd : Reg) (loc : Loc)
  | ipHlen (rd : Reg) (loc : Loc)
  | ipDscp (rd : Reg) (loc : Loc)
  | ipTotLen (rd : Reg) (loc : Loc)
  | ipId (rd : Reg) (loc : Loc)
  | ipFlags (rd : Reg) (loc : Loc)
  | ipFragOff (rd : Reg) (loc : Loc)
  | ipRsv (rd : Reg) (loc : Loc)
  | ipDf (rd : Reg) (loc : Loc)
  | ipMf (rd : Reg) (loc : Loc)
  | ipTtl (rd : Reg) (loc : Loc)
  | ipProto (rd : Reg) (loc : Loc)
  | ipCkFld (rd : Reg) (loc : Loc)
  | ipSrc (rd : Reg) (loc : Loc)
  | ipDst (rd : Reg) (loc : Loc)
  | ipSetTotLen (rs1 : Reg) (loc : Loc)
  | ipBswap (loc : Loc)
  | ipCsum (rd : Reg) (loc : Loc)
  | ipSetCsum (loc : Loc)
  | ipVerify (rd : Reg) (loc : Loc)
  | ipReply (loc : Loc)
  | icmpParse (loc : BankId)
  | icmpType (rd : Reg) (loc : Loc)
  | icmpCode (rd : Reg) (loc : Loc)
  | icmpCkFld (rd : Reg) (loc : Loc)
  | icmpBuild (rs1 rs2 : Reg)
  | icmpCsum (rd rs1 : Reg) (loc : Loc)
  | icmpSetCsum (rs1 : Reg) (loc : Loc)
  | udpParse (loc : BankId)
  | udpSport (rd : Reg) (loc : Loc)
  | udpDport (rd : Reg) (loc : Loc)
  | udpLen (rd : Reg) (loc : Loc)
  | udpCkFld (rd : Reg) (loc : Loc)
  | udpBswap (loc : Loc)
  | udpReply (loc : Loc)
  | udpCsum (rd rs1 rs2 : Reg) (loc : Loc)
  | udpSetCsum (rs1 rs2 : Reg) (loc : Loc)
  | sysRdcsr (rd : Reg) (csr : BitVec 4)
  deriving DecidableEq, Repr

end Sys2Proof
end

