-- ==== Sys2Proof/WellFormed.lean ====
section
/-! DEFINITION. Which terms of `Instr` are commands (rule R80). The operand types already exclude the reserved `loc`
values and `j` = 3; what is left to check is the CSR number. -/

namespace Sys2Proof

/-- The CSR numbers `SYS.RDCSR` accepts: all but the reserved 5, 6 and 7 (rules R33, R210). -/
def csrNumberLegal (csr : BitVec 4) : Bool := csr != 5 && csr != 6 && csr != 7

/-- A term stands for a legal command word (rule R80). -/
def Instr.wellFormed : Instr → Bool
  | .sysRdcsr _ csr => csrNumberLegal csr
  | .li .. | .lih .. | .add .. | .sub .. | .csfold .. | .csum .. | .csum2 .. | .rgnSet .. | .pktNew .. |
    .pktNewReply .. | .pktWr8 .. | .pktRd8 .. | .pktFillI .. | .pktFillU .. | .pktFillN .. | .pktGetOff .. |
    .pktTlen .. | .pktPayload .. | .pktWhole .. | .ipParse .. | .ipVersion .. | .ipHlen .. | .ipDscp .. |
    .ipTotLen .. | .ipId .. | .ipFlags .. | .ipFragOff .. | .ipRsv .. | .ipDf .. | .ipMf .. | .ipTtl .. |
    .ipProto .. | .ipCkFld .. | .ipSrc .. | .ipDst .. | .ipSetTotLen .. | .ipBswap .. | .ipCsum .. |
    .ipSetCsum .. | .ipVerify .. | .ipReply .. | .icmpParse .. | .icmpType .. | .icmpCode .. | .icmpCkFld .. |
    .icmpBuild .. | .icmpCsum .. | .icmpSetCsum .. | .udpParse .. | .udpSport .. | .udpDport .. | .udpLen .. |
    .udpCkFld .. | .udpBswap .. | .udpReply .. | .udpCsum .. | .udpSetCsum .. => true

end Sys2Proof
end

