-- ==== Sys2Proof/Decode.lean ====
section
/-! DEFINITION. Decoding a command word (rules R70 to R83), and after it the encoder, the opcode table of rule R78 as
data, and the big-endian byte stream of rule R83. Decoding is total; an illegal word is rejected by a name that says which
constraint of rule R80 it breaks (the block itself treats all illegal words alike, rule R81). -/

namespace Sys2Proof

/-- Why a word is illegal, or a byte stream holds no command (rules R80, R83). -/
inductive DecodeError where
  /-- The opcode number is not in the table of rule R78. -/
  | unassignedOpcode
  /-- A field the command does not use, or a zero range of its format, is not zero (rule R75). -/
  | unusedFieldNotZero
  /-- `loc` = 3 (rule R76). -/
  | reservedLoc
  /-- `loc` = `STAGE` in a packet or parse command (rule R76). -/
  | stageInPacketCommand
  /-- `j` = 3 in `PKT.GETOFF` (rule R77). -/
  | reservedSelector
  /-- A field number that the opcode does not assign (rule R80). -/
  | reservedField
  /-- CSR number 5, 6 or 7 (rule R33). -/
  | reservedCsr
  /-- Fewer than four bytes are left in the byte stream (rule R83). -/
  | truncatedStream
  deriving DecidableEq, Repr

/-! ### The fields of a word (rules R70 to R74) -/

/-- `op`, bits 31:24 in every format. -/
def fieldOp (w : Word) : BitVec 8 := w.extractLsb' 24 8
/-- `rd`, bits 23:20. -/
def fieldRd (w : Word) : Reg := w.extractLsb' 20 4
/-- `rs1`, bits 19:16 (zero in format I). -/
def fieldRs1 (w : Word) : Reg := w.extractLsb' 16 4
/-- `rs2`, bits 15:12. -/
def fieldRs2 (w : Word) : Reg := w.extractLsb' 12 4
/-- `rs3`, bits 11:8. -/
def fieldRs3 (w : Word) : Reg := w.extractLsb' 8 4
/-- `loc`, bits 7:6. -/
def fieldLoc (w : Word) : BitVec 2 := w.extractLsb' 6 2
/-- `k`, bits 5:4. -/
def fieldK (w : Word) : RgnIdx := w.extractLsb' 4 2
/-- `j`, bits 3:2. -/
def fieldJ (w : Word) : RgnIdx := w.extractLsb' 2 2
/-- Bits 1:0, zero in format S. -/
def fieldLow2 (w : Word) : BitVec 2 := w.extractLsb' 0 2
/-- `fld`, bits 3:0 of format F. -/
def fieldFld (w : Word) : BitVec 4 := w.extractLsb' 0 4
/-- `imm16`, bits 15:0 of format I. -/
def fieldImm16 (w : Word) : Half := w.extractLsb' 0 16
/-- Bits 7:0, zero in format R. -/
def fieldLow8 (w : Word) : BitVec 8 := w.extractLsb' 0 8

/-- Rule R75: the named fields must be zero. -/
def mustBeZero (c : Prop) [Decidable c] : Except DecodeError Unit :=
  if c then .ok () else .error .unusedFieldNotZero

/-- The bank named by `loc` in a packet or parse command (rule R76). -/
def bankOfLoc (loc : BitVec 2) : Except DecodeError BankId :=
  match loc.toNat with
  | 0 => .ok .p0
  | 1 => .ok .p1
  | 2 => .error .stageInPacketCommand
  | _ => .error .reservedLoc

/-- The location named by `loc` in the other header commands (rule R76). -/
def locOfLoc (loc : BitVec 2) : Except DecodeError Loc :=
  match loc.toNat with
  | 0 => .ok (.bank .p0)
  | 1 => .ok (.bank .p1)
  | 2 => .ok .stage
  | _ => .error .reservedLoc

/-- The offset selector of `PKT.GETOFF` (rule R77). -/
def selOfJ (j : BitVec 2) : Except DecodeError OffSel :=
  match j.toNat with
  | 0 => .ok .net
  | 1 => .ok .trn
  | 2 => .ok .pay
  | _ => .error .reservedSelector

/-! ### Decoding, by the high nibble of the opcode (rule R78) -/

/-- Opcodes 0x10 to 0x13: register set-up and address arithmetic. -/
def decodeRegister (lo : BitVec 4) (w : Word) : Except DecodeError Instr :=
  match lo.toNat with
  | 0x0 => do
    mustBeZero (fieldRs1 w = 0)
    return .li (fieldRd w) (fieldImm16 w)
  | 0x1 => do
    mustBeZero (fieldRs1 w = 0)
    return .lih (fieldRd w) (fieldImm16 w)
  | 0x2 => do
    mustBeZero (fieldRs3 w = 0 ∧ fieldLow8 w = 0)
    return .add (fieldRd w) (fieldRs1 w) (fieldRs2 w)
  | 0x3 => do
    mustBeZero (fieldRs3 w = 0 ∧ fieldLow8 w = 0)
    return .sub (fieldRd w) (fieldRs1 w) (fieldRs2 w)
  | _ => .error .unassignedOpcode

/-- Opcodes 0x20 to 0x22: the checksum engine. -/
def decodeChecksum (lo : BitVec 4) (w : Word) : Except DecodeError Instr :=
  match lo.toNat with
  | 0x0 => do
    mustBeZero (fieldRs3 w = 0 ∧ fieldLow8 w = 0)
    return .csfold (fieldRd w) (fieldRs1 w) (fieldRs2 w)
  | 0x1 => do
    mustBeZero (fieldRs1 w = 0 ∧ fieldRs2 w = 0 ∧ fieldLoc w = 0 ∧ fieldJ w = 0 ∧ fieldLow2 w = 0)
    return .csum (fieldRd w) (fieldRs3 w) (fieldK w)
  | 0x2 => do
    mustBeZero (fieldRs1 w = 0 ∧ fieldRs2 w = 0 ∧ fieldLoc w = 0 ∧ fieldLow2 w = 0)
    return .csum2 (fieldRd w) (fieldRs3 w) (fieldK w) (fieldJ w)
  | _ => .error .unassignedOpcode

/-- Opcodes 0x30 to 0x3B: regions and the packet buffer. -/
def decodePacket (lo : BitVec 4) (w : Word) : Except DecodeError Instr :=
  match lo.toNat with
  | 0x0 => do
    mustBeZero (fieldRd w = 0 ∧ fieldRs3 w = 0 ∧ fieldJ w = 0 ∧ fieldLow2 w = 0)
    return .rgnSet (fieldRs1 w) (fieldRs2 w) (← bankOfLoc (fieldLoc w)) (fieldK w)
  | 0x1 => do
    mustBeZero (fieldRd w = 0 ∧ fieldRs2 w = 0 ∧ fieldRs3 w = 0 ∧ fieldK w = 0 ∧ fieldJ w = 0 ∧ fieldLow2 w = 0)
    return .pktNew (fieldRs1 w) (← bankOfLoc (fieldLoc w))
  | 0x2 => do
    mustBeZero (fieldRd w = 0 ∧ fieldRs1 w = 0 ∧ fieldRs2 w = 0 ∧ fieldRs3 w = 0 ∧ fieldJ w = 0 ∧ fieldLow2 w = 0)
    return .pktNewReply (← bankOfLoc (fieldLoc w)) (fieldK w)
  | 0x3 => do
    mustBeZero (fieldRd w = 0 ∧ fieldRs3 w = 0 ∧ fieldK w = 0 ∧ fieldJ w = 0 ∧ fieldLow2 w = 0)
    return .pktWr8 (fieldRs1 w) (fieldRs2 w) (← bankOfLoc (fieldLoc w))
  | 0x4 => do
    mustBeZero (fieldRs2 w = 0 ∧ fieldRs3 w = 0 ∧ fieldK w = 0 ∧ fieldJ w = 0 ∧ fieldLow2 w = 0)
    return .pktRd8 (fieldRd w) (fieldRs1 w) (← bankOfLoc (fieldLoc w))
  | 0x5 => do
    mustBeZero (fieldRd w = 0 ∧ fieldRs1 w = 0 ∧ fieldRs2 w = 0 ∧ fieldRs3 w = 0 ∧ fieldK w = 0 ∧ fieldJ w = 0 ∧
      fieldLow2 w = 0)
    return .pktFillI (← bankOfLoc (fieldLoc w))
  | 0x6 => do
    mustBeZero (fieldRd w = 0 ∧ fieldRs1 w = 0 ∧ fieldRs2 w = 0 ∧ fieldRs3 w = 0 ∧ fieldK w = 0 ∧ fieldJ w = 0 ∧
      fieldLow2 w = 0)
    return .pktFillU (← bankOfLoc (fieldLoc w))
  | 0x7 => do
    mustBeZero (fieldRd w = 0 ∧ fieldRs1 w = 0 ∧ fieldRs2 w = 0 ∧ fieldRs3 w = 0 ∧ fieldK w = 0 ∧ fieldJ w = 0 ∧
      fieldLow2 w = 0)
    return .pktFillN (← bankOfLoc (fieldLoc w))
  | 0x8 => do
    mustBeZero (fieldRs1 w = 0 ∧ fieldRs2 w = 0 ∧ fieldRs3 w = 0 ∧ fieldK w = 0 ∧ fieldLow2 w = 0)
    return .pktGetOff (fieldRd w) (← bankOfLoc (fieldLoc w)) (← selOfJ (fieldJ w))
  | 0x9 => do
    mustBeZero (fieldRs1 w = 0 ∧ fieldRs2 w = 0 ∧ fieldRs3 w = 0 ∧ fieldK w = 0 ∧ fieldJ w = 0 ∧ fieldLow2 w = 0)
    return .pktTlen (fieldRd w) (← bankOfLoc (fieldLoc w))
  | 0xA => do
    mustBeZero (fieldRd w = 0 ∧ fieldRs1 w = 0 ∧ fieldRs2 w = 0 ∧ fieldRs3 w = 0 ∧ fieldJ w = 0 ∧ fieldLow2 w = 0)
    return .pktPayload (← bankOfLoc (fieldLoc w)) (fieldK w)
  | 0xB => do
    mustBeZero (fieldRd w = 0 ∧ fieldRs1 w = 0 ∧ fieldRs2 w = 0 ∧ fieldRs3 w = 0 ∧ fieldJ w = 0 ∧ fieldLow2 w = 0)
    return .pktWhole (← bankOfLoc (fieldLoc w)) (fieldK w)
  | _ => .error .unassignedOpcode

/-- Format F (rule R74): the zero ranges of a field read. -/
def formatFZeros (w : Word) : Except DecodeError Unit :=
  mustBeZero (fieldRs1 w = 0 ∧ fieldRs2 w = 0 ∧ fieldRs3 w = 0 ∧ fieldK w = 0)

/-- The field numbers of opcode 0x41 (rules R144 to R158). -/
def decodeIpField (fld : BitVec 4) (rd : Reg) (loc : Loc) : Except DecodeError Instr :=
  match fld.toNat with
  | 0 => .ok (.ipVersion rd loc)
  | 1 => .ok (.ipHlen rd loc)
  | 2 => .ok (.ipDscp rd loc)
  | 3 => .ok (.ipTotLen rd loc)
  | 4 => .ok (.ipId rd loc)
  | 5 => .ok (.ipFlags rd loc)
  | 6 => .ok (.ipFragOff rd loc)
  | 7 => .ok (.ipRsv rd loc)
  | 8 => .ok (.ipDf rd loc)
  | 9 => .ok (.ipMf rd loc)
  | 10 => .ok (.ipTtl rd loc)
  | 11 => .ok (.ipProto rd loc)
  | 12 => .ok (.ipCkFld rd loc)
  | 13 => .ok (.ipSrc rd loc)
  | 14 => .ok (.ipDst rd loc)
  | _ => .error .reservedField

/-- Opcodes 0x40 to 0x47: the IPv4 header parser. -/
def decodeIp (lo : BitVec 4) (w : Word) : Except DecodeError Instr :=
  match lo.toNat with
  | 0x0 => do
    mustBeZero (fieldRd w = 0 ∧ fieldRs1 w = 0 ∧ fieldRs2 w = 0 ∧ fieldRs3 w = 0 ∧ fieldK w = 0 ∧ fieldJ w = 0 ∧
      fieldLow2 w = 0)
    return .ipParse (← bankOfLoc (fieldLoc w))
  | 0x1 => do
    formatFZeros w
    decodeIpField (fieldFld w) (fieldRd w) (← locOfLoc (fieldLoc w))
  | 0x2 => do
    mustBeZero (fieldRd w = 0 ∧ fieldRs2 w = 0 ∧ fieldRs3 w = 0 ∧ fieldK w = 0 ∧ fieldJ w = 0 ∧ fieldLow2 w = 0)
    return .ipSetTotLen (fieldRs1 w) (← locOfLoc (fieldLoc w))
  | 0x3 => do
    mustBeZero (fieldRd w = 0 ∧ fieldRs1 w = 0 ∧ fieldRs2 w = 0 ∧ fieldRs3 w = 0 ∧ fieldK w = 0 ∧ fieldJ w = 0 ∧
      fieldLow2 w = 0)
    return .ipBswap (← locOfLoc (fieldLoc w))
  | 0x4 => do
    mustBeZero (fieldRs1 w = 0 ∧ fieldRs2 w = 0 ∧ fieldRs3 w = 0 ∧ fieldK w = 0 ∧ fieldJ w = 0 ∧ fieldLow2 w = 0)
    return .ipCsum (fieldRd w) (← locOfLoc (fieldLoc w))
  | 0x5 => do
    mustBeZero (fieldRd w = 0 ∧ fieldRs1 w = 0 ∧ fieldRs2 w = 0 ∧ fieldRs3 w = 0 ∧ fieldK w = 0 ∧ fieldJ w = 0 ∧
      fieldLow2 w = 0)
    return .ipSetCsum (← locOfLoc (fieldLoc w))
  | 0x6 => do
    mustBeZero (fieldRs1 w = 0 ∧ fieldRs2 w = 0 ∧ fieldRs3 w = 0 ∧ fieldK w = 0 ∧ fieldJ w = 0 ∧ fieldLow2 w = 0)
    return .ipVerify (fieldRd w) (← locOfLoc (fieldLoc w))
  | 0x7 => do
    mustBeZero (fieldRd w = 0 ∧ fieldRs1 w = 0 ∧ fieldRs2 w = 0 ∧ fieldRs3 w = 0 ∧ fieldK w = 0 ∧ fieldJ w = 0 ∧
      fieldLow2 w = 0)
    return .ipReply (← locOfLoc (fieldLoc w))
  | _ => .error .unassignedOpcode

/-- The field numbers of opcode 0x51 (rules R183 to R185). -/
def decodeIcmpField (fld : BitVec 4) (rd : Reg) (loc : Loc) : Except DecodeError Instr :=
  match fld.toNat with
  | 0 => .ok (.icmpType rd loc)
  | 1 => .ok (.icmpCode rd loc)
  | 2 => .ok (.icmpCkFld rd loc)
  | _ => .error .reservedField

/-- Opcodes 0x50 to 0x54: the ICMP header parser. -/
def decodeIcmp (lo : BitVec 4) (w : Word) : Except DecodeError Instr :=
  match lo.toNat with
  | 0x0 => do
    mustBeZero (fieldRd w = 0 ∧ fieldRs1 w = 0 ∧ fieldRs2 w = 0 ∧ fieldRs3 w = 0 ∧ fieldK w = 0 ∧ fieldJ w = 0 ∧
      fieldLow2 w = 0)
    return .icmpParse (← bankOfLoc (fieldLoc w))
  | 0x1 => do
    formatFZeros w
    decodeIcmpField (fieldFld w) (fieldRd w) (← locOfLoc (fieldLoc w))
  | 0x2 => do
    mustBeZero (fieldRd w = 0 ∧ fieldRs3 w = 0 ∧ fieldLow8 w = 0)
    return .icmpBuild (fieldRs1 w) (fieldRs2 w)
  | 0x3 => do
    mustBeZero (fieldRs2 w = 0 ∧ fieldRs3 w = 0 ∧ fieldK w = 0 ∧ fieldJ w = 0 ∧ fieldLow2 w = 0)
    return .icmpCsum (fieldRd w) (fieldRs1 w) (← locOfLoc (fieldLoc w))
  | 0x4 => do
    mustBeZero (fieldRd w = 0 ∧ fieldRs2 w = 0 ∧ fieldRs3 w = 0 ∧ fieldK w = 0 ∧ fieldJ w = 0 ∧ fieldLow2 w = 0)
    return .icmpSetCsum (fieldRs1 w) (← locOfLoc (fieldLoc w))
  | _ => .error .unassignedOpcode

/-- The field numbers of opcode 0x61 (rules R193 to R196). -/
def decodeUdpField (fld : BitVec 4) (rd : Reg) (loc : Loc) : Except DecodeError Instr :=
  match fld.toNat with
  | 0 => .ok (.udpSport rd loc)
  | 1 => .ok (.udpDport rd loc)
  | 2 => .ok (.udpLen rd loc)
  | 3 => .ok (.udpCkFld rd loc)
  | _ => .error .reservedField

/-- Opcodes 0x60 to 0x65: the UDP header parser. -/
def decodeUdp (lo : BitVec 4) (w : Word) : Except DecodeError Instr :=
  match lo.toNat with
  | 0x0 => do
    mustBeZero (fieldRd w = 0 ∧ fieldRs1 w = 0 ∧ fieldRs2 w = 0 ∧ fieldRs3 w = 0 ∧ fieldK w = 0 ∧ fieldJ w = 0 ∧
      fieldLow2 w = 0)
    return .udpParse (← bankOfLoc (fieldLoc w))
  | 0x1 => do
    formatFZeros w
    decodeUdpField (fieldFld w) (fieldRd w) (← locOfLoc (fieldLoc w))
  | 0x2 => do
    mustBeZero (fieldRd w = 0 ∧ fieldRs1 w = 0 ∧ fieldRs2 w = 0 ∧ fieldRs3 w = 0 ∧ fieldK w = 0 ∧ fieldJ w = 0 ∧
      fieldLow2 w = 0)
    return .udpBswap (← locOfLoc (fieldLoc w))
  | 0x3 => do
    mustBeZero (fieldRd w = 0 ∧ fieldRs1 w = 0 ∧ fieldRs2 w = 0 ∧ fieldRs3 w = 0 ∧ fieldK w = 0 ∧ fieldJ w = 0 ∧
      fieldLow2 w = 0)
    return .udpReply (← locOfLoc (fieldLoc w))
  | 0x4 => do
    mustBeZero (fieldRs3 w = 0 ∧ fieldK w = 0 ∧ fieldJ w = 0 ∧ fieldLow2 w = 0)
    return .udpCsum (fieldRd w) (fieldRs1 w) (fieldRs2 w) (← locOfLoc (fieldLoc w))
  | 0x5 => do
    mustBeZero (fieldRd w = 0 ∧ fieldRs3 w = 0 ∧ fieldK w = 0 ∧ fieldJ w = 0 ∧ fieldLow2 w = 0)
    return .udpSetCsum (fieldRs1 w) (fieldRs2 w) (← locOfLoc (fieldLoc w))
  | _ => .error .unassignedOpcode

/-- Opcode 0x70: the system command (rule R210). -/
def decodeSystem (lo : BitVec 4) (w : Word) : Except DecodeError Instr :=
  match lo.toNat with
  | 0x0 => do
    mustBeZero (fieldRs1 w = 0 ∧ fieldRs2 w = 0 ∧ fieldRs3 w = 0 ∧ fieldLoc w = 0 ∧ fieldK w = 0)
    if csrNumberLegal (fieldFld w) then return .sysRdcsr (fieldRd w) (fieldFld w) else throw .reservedCsr
  | _ => .error .unassignedOpcode

/-- Decoding of a command word (rules R70, R78, R80): a command with all its constraints met, or the reason why the word
is illegal. -/
def decode (w : Word) : Except DecodeError Instr :=
  let hi : BitVec 4 := (fieldOp w).extractLsb' 4 4
  let lo : BitVec 4 := (fieldOp w).extractLsb' 0 4
  match hi.toNat with
  | 0x1 => decodeRegister lo w
  | 0x2 => decodeChecksum lo w
  | 0x3 => decodePacket lo w
  | 0x4 => decodeIp lo w
  | 0x5 => decodeIcmp lo w
  | 0x6 => decodeUdp lo w
  | 0x7 => decodeSystem lo w
  | _ => .error .unassignedOpcode

/-- A word is legal when it decodes to a command (rules R70, R80). -/
def legal (w : Word) : Bool :=
  match decode w with
  | .ok _ => true
  | .error _ => false

/-! ### The encoder (rules R71 to R74, R76, R77) -/

/-- Format I (rule R71). -/
def formatI (op : BitVec 8) (rd : Reg) (imm16 : Half) : Word := op ++ rd ++ 0#4 ++ imm16

/-- Format R (rule R72). -/
def formatR (op : BitVec 8) (rd rs1 rs2 rs3 : Reg) : Word := op ++ rd ++ rs1 ++ rs2 ++ rs3 ++ 0#8

/-- Format S (rule R73). -/
def formatS (op : BitVec 8) (rd rs1 rs2 rs3 : Reg) (loc k j : BitVec 2) : Word :=
  op ++ rd ++ rs1 ++ rs2 ++ rs3 ++ loc ++ k ++ j ++ 0#2

/-- Format F (rule R74), with `rs1`, `rs2`, `rs3` zero. -/
def formatF (op : BitVec 8) (rd : Reg) (loc : BitVec 2) (fld : BitVec 4) : Word :=
  op ++ rd ++ 0#4 ++ 0#4 ++ 0#4 ++ loc ++ 0#2 ++ fld

/-- The `loc` field that names a bank (rule R76). -/
def BankId.bits : BankId → BitVec 2
  | .p0 => 0
  | .p1 => 1

/-- The `loc` field that names a location (rule R76). -/
def Loc.bits : Loc → BitVec 2
  | .bank p => p.bits
  | .stage => 2

/-- The `j` field that names an offset (rule R77). -/
def OffSel.bits : OffSel → BitVec 2
  | .net => 0
  | .trn => 1
  | .pay => 2

/-- The command word of a command (rule R78). -/
def encode : Instr → Word
  | .li rd imm16 => formatI 0x10 rd imm16
  | .lih rd imm16 => formatI 0x11 rd imm16
  | .add rd rs1 rs2 => formatR 0x12 rd rs1 rs2 0
  | .sub rd rs1 rs2 => formatR 0x13 rd rs1 rs2 0
  | .csfold rd rs1 rs2 => formatR 0x20 rd rs1 rs2 0
  | .csum rd rs3 k => formatS 0x21 rd 0 0 rs3 0 k 0
  | .csum2 rd rs3 k j => formatS 0x22 rd 0 0 rs3 0 k j
  | .rgnSet rs1 rs2 loc k => formatS 0x30 0 rs1 rs2 0 loc.bits k 0
  | .pktNew rs1 loc => formatS 0x31 0 rs1 0 0 loc.bits 0 0
  | .pktNewReply loc k => formatS 0x32 0 0 0 0 loc.bits k 0
  | .pktWr8 rs1 rs2 loc => formatS 0x33 0 rs1 rs2 0 loc.bits 0 0
  | .pktRd8 rd rs1 loc => formatS 0x34 rd rs1 0 0 loc.bits 0 0
  | .pktFillI loc => formatS 0x35 0 0 0 0 loc.bits 0 0
  | .pktFillU loc => formatS 0x36 0 0 0 0 loc.bits 0 0
  | .pktFillN loc => formatS 0x37 0 0 0 0 loc.bits 0 0
  | .pktGetOff rd loc j => formatS 0x38 rd 0 0 0 loc.bits 0 j.bits
  | .pktTlen rd loc => formatS 0x39 rd 0 0 0 loc.bits 0 0
  | .pktPayload loc k => formatS 0x3A 0 0 0 0 loc.bits k 0
  | .pktWhole loc k => formatS 0x3B 0 0 0 0 loc.bits k 0
  | .ipParse loc => formatS 0x40 0 0 0 0 loc.bits 0 0
  | .ipVersion rd loc => formatF 0x41 rd loc.bits 0
  | .ipHlen rd loc => formatF 0x41 rd loc.bits 1
  | .ipDscp rd loc => formatF 0x41 rd loc.bits 2
  | .ipTotLen rd loc => formatF 0x41 rd loc.bits 3
  | .ipId rd loc => formatF 0x41 rd loc.bits 4
  | .ipFlags rd loc => formatF 0x41 rd loc.bits 5
  | .ipFragOff rd loc => formatF 0x41 rd loc.bits 6
  | .ipRsv rd loc => formatF 0x41 rd loc.bits 7
  | .ipDf rd loc => formatF 0x41 rd loc.bits 8
  | .ipMf rd loc => formatF 0x41 rd loc.bits 9
  | .ipTtl rd loc => formatF 0x41 rd loc.bits 10
  | .ipProto rd loc => formatF 0x41 rd loc.bits 11
  | .ipCkFld rd loc => formatF 0x41 rd loc.bits 12
  | .ipSrc rd loc => formatF 0x41 rd loc.bits 13
  | .ipDst rd loc => formatF 0x41 rd loc.bits 14
  | .ipSetTotLen rs1 loc => formatS 0x42 0 rs1 0 0 loc.bits 0 0
  | .ipBswap loc => formatS 0x43 0 0 0 0 loc.bits 0 0
  | .ipCsum rd loc => formatS 0x44 rd 0 0 0 loc.bits 0 0
  | .ipSetCsum loc => formatS 0x45 0 0 0 0 loc.bits 0 0
  | .ipVerify rd loc => formatS 0x46 rd 0 0 0 loc.bits 0 0
  | .ipReply loc => formatS 0x47 0 0 0 0 loc.bits 0 0
  | .icmpParse loc => formatS 0x50 0 0 0 0 loc.bits 0 0
  | .icmpType rd loc => formatF 0x51 rd loc.bits 0
  | .icmpCode rd loc => formatF 0x51 rd loc.bits 1
  | .icmpCkFld rd loc => formatF 0x51 rd loc.bits 2
  | .icmpBuild rs1 rs2 => formatR 0x52 0 rs1 rs2 0
  | .icmpCsum rd rs1 loc => formatS 0x53 rd rs1 0 0 loc.bits 0 0
  | .icmpSetCsum rs1 loc => formatS 0x54 0 rs1 0 0 loc.bits 0 0
  | .udpParse loc => formatS 0x60 0 0 0 0 loc.bits 0 0
  | .udpSport rd loc => formatF 0x61 rd loc.bits 0
  | .udpDport rd loc => formatF 0x61 rd loc.bits 1
  | .udpLen rd loc => formatF 0x61 rd loc.bits 2
  | .udpCkFld rd loc => formatF 0x61 rd loc.bits 3
  | .udpBswap loc => formatS 0x62 0 0 0 0 loc.bits 0 0
  | .udpReply loc => formatS 0x63 0 0 0 0 loc.bits 0 0
  | .udpCsum rd rs1 rs2 loc => formatS 0x64 rd rs1 rs2 0 loc.bits 0 0
  | .udpSetCsum rs1 rs2 loc => formatS 0x65 0 rs1 rs2 0 loc.bits 0 0
  | .sysRdcsr rd csr => formatF 0x70 rd 0 csr

/-! ### The opcode table as data (rule R78) -/

/-- The column "constraint" of the table of rule R78. -/
inductive RowConstraint where
  | none
  /-- `loc ≠ 3` -/
  | locNot3
  /-- `j ≠ 3` -/
  | jNot3
  /-- `fld` is not 5, 6 or 7 -/
  | csrAssigned
  deriving DecidableEq, Repr

/-- The constraint holds of a word. -/
def RowConstraint.holds : RowConstraint → Word → Bool
  | .none, _ => true
  | .locNot3, w => fieldLoc w != 3
  | .jNot3, w => fieldJ w != 3
  | .csrAssigned, w => csrNumberLegal (fieldFld w)

/-- One row of the table of rule R78. -/
structure OpcodeRow where
  mnemonic : String
  /-- The column "match". -/
  pattern : Word
  mask : Word
  constr : RowConstraint
  deriving DecidableEq, Repr

/-- "A word `w` is the command of a row exactly when `w & mask = match` and the row's constraint (if any) holds" (rule R78). -/
def OpcodeRow.admits (r : OpcodeRow) (w : Word) : Bool := w &&& r.mask == r.pattern && r.constr.holds w

/-- The row of a command. -/
def Instr.row : Instr → OpcodeRow
  | .li .. => ⟨"LI", 0x10000000#32, 0xFF0F0000#32, .none⟩
  | .lih .. => ⟨"LIH", 0x11000000#32, 0xFF0F0000#32, .none⟩
  | .add .. => ⟨"ADD", 0x12000000#32, 0xFF000FFF#32, .none⟩
  | .sub .. => ⟨"SUB", 0x13000000#32, 0xFF000FFF#32, .none⟩
  | .csfold .. => ⟨"CSFOLD", 0x20000000#32, 0xFF000FFF#32, .none⟩
  | .csum .. => ⟨"CSUM", 0x21000000#32, 0xFF0FF0CF#32, .none⟩
  | .csum2 .. => ⟨"CSUM2", 0x22000000#32, 0xFF0FF0C3#32, .none⟩
  | .rgnSet .. => ⟨"RGN.SET", 0x30000000#32, 0xFFF00F8F#32, .none⟩
  | .pktNew .. => ⟨"PKT.NEW", 0x31000000#32, 0xFFF0FFBF#32, .none⟩
  | .pktNewReply .. => ⟨"PKT.NEWREPLY", 0x32000000#32, 0xFFFFFF8F#32, .none⟩
  | .pktWr8 .. => ⟨"PKT.WR8", 0x33000000#32, 0xFFF00FBF#32, .none⟩
  | .pktRd8 .. => ⟨"PKT.RD8", 0x34000000#32, 0xFF00FFBF#32, .none⟩
  | .pktFillI .. => ⟨"PKT.FILLI", 0x35000000#32, 0xFFFFFFBF#32, .none⟩
  | .pktFillU .. => ⟨"PKT.FILLU", 0x36000000#32, 0xFFFFFFBF#32, .none⟩
  | .pktFillN .. => ⟨"PKT.FILLN", 0x37000000#32, 0xFFFFFFBF#32, .none⟩
  | .pktGetOff .. => ⟨"PKT.GETOFF", 0x38000000#32, 0xFF0FFFB3#32, .jNot3⟩
  | .pktTlen .. => ⟨"PKT.TLEN", 0x39000000#32, 0xFF0FFFBF#32, .none⟩
  | .pktPayload .. => ⟨"PKT.PAYLOAD", 0x3A000000#32, 0xFFFFFF8F#32, .none⟩
  | .pktWhole .. => ⟨"PKT.WHOLE", 0x3B000000#32, 0xFFFFFF8F#32, .none⟩
  | .ipParse .. => ⟨"IP.PARSE", 0x40000000#32, 0xFFFFFFBF#32, .none⟩
  | .ipVersion .. => ⟨"IP.VERSION", 0x41000000#32, 0xFF0FFF3F#32, .locNot3⟩
  | .ipHlen .. => ⟨"IP.HLEN", 0x41000001#32, 0xFF0FFF3F#32, .locNot3⟩
  | .ipDscp .. => ⟨"IP.DSCP", 0x41000002#32, 0xFF0FFF3F#32, .locNot3⟩
  | .ipTotLen .. => ⟨"IP.TOTLEN", 0x41000003#32, 0xFF0FFF3F#32, .locNot3⟩
  | .ipId .. => ⟨"IP.ID", 0x41000004#32, 0xFF0FFF3F#32, .locNot3⟩
  | .ipFlags .. => ⟨"IP.FLAGS", 0x41000005#32, 0xFF0FFF3F#32, .locNot3⟩
  | .ipFragOff .. => ⟨"IP.FRAGOFF", 0x41000006#32, 0xFF0FFF3F#32, .locNot3⟩
  | .ipRsv .. => ⟨"IP.RSV", 0x41000007#32, 0xFF0FFF3F#32, .locNot3⟩
  | .ipDf .. => ⟨"IP.DF", 0x41000008#32, 0xFF0FFF3F#32, .locNot3⟩
  | .ipMf .. => ⟨"IP.MF", 0x41000009#32, 0xFF0FFF3F#32, .locNot3⟩
  | .ipTtl .. => ⟨"IP.TTL", 0x4100000A#32, 0xFF0FFF3F#32, .locNot3⟩
  | .ipProto .. => ⟨"IP.PROTO", 0x4100000B#32, 0xFF0FFF3F#32, .locNot3⟩
  | .ipCkFld .. => ⟨"IP.CKFLD", 0x4100000C#32, 0xFF0FFF3F#32, .locNot3⟩
  | .ipSrc .. => ⟨"IP.SRC", 0x4100000D#32, 0xFF0FFF3F#32, .locNot3⟩
  | .ipDst .. => ⟨"IP.DST", 0x4100000E#32, 0xFF0FFF3F#32, .locNot3⟩
  | .ipSetTotLen .. => ⟨"IP.SETTOTLEN", 0x42000000#32, 0xFFF0FF3F#32, .locNot3⟩
  | .ipBswap .. => ⟨"IP.BSWAP", 0x43000000#32, 0xFFFFFF3F#32, .locNot3⟩
  | .ipCsum .. => ⟨"IP.CSUM", 0x44000000#32, 0xFF0FFF3F#32, .locNot3⟩
  | .ipSetCsum .. => ⟨"IP.SETCSUM", 0x45000000#32, 0xFFFFFF3F#32, .locNot3⟩
  | .ipVerify .. => ⟨"IP.VERIFY", 0x46000000#32, 0xFF0FFF3F#32, .locNot3⟩
  | .ipReply .. => ⟨"IP.REPLY", 0x47000000#32, 0xFFFFFF3F#32, .locNot3⟩
  | .icmpParse .. => ⟨"ICMP.PARSE", 0x50000000#32, 0xFFFFFFBF#32, .none⟩
  | .icmpType .. => ⟨"ICMP.TYPE", 0x51000000#32, 0xFF0FFF3F#32, .locNot3⟩
  | .icmpCode .. => ⟨"ICMP.CODE", 0x51000001#32, 0xFF0FFF3F#32, .locNot3⟩
  | .icmpCkFld .. => ⟨"ICMP.CKFLD", 0x51000002#32, 0xFF0FFF3F#32, .locNot3⟩
  | .icmpBuild .. => ⟨"ICMP.BUILD", 0x52000000#32, 0xFFF00FFF#32, .none⟩
  | .icmpCsum .. => ⟨"ICMP.CSUM", 0x53000000#32, 0xFF00FF3F#32, .locNot3⟩
  | .icmpSetCsum .. => ⟨"ICMP.SETCSUM", 0x54000000#32, 0xFFF0FF3F#32, .locNot3⟩
  | .udpParse .. => ⟨"UDP.PARSE", 0x60000000#32, 0xFFFFFFBF#32, .none⟩
  | .udpSport .. => ⟨"UDP.SPORT", 0x61000000#32, 0xFF0FFF3F#32, .locNot3⟩
  | .udpDport .. => ⟨"UDP.DPORT", 0x61000001#32, 0xFF0FFF3F#32, .locNot3⟩
  | .udpLen .. => ⟨"UDP.LEN", 0x61000002#32, 0xFF0FFF3F#32, .locNot3⟩
  | .udpCkFld .. => ⟨"UDP.CKFLD", 0x61000003#32, 0xFF0FFF3F#32, .locNot3⟩
  | .udpBswap .. => ⟨"UDP.BSWAP", 0x62000000#32, 0xFFFFFF3F#32, .locNot3⟩
  | .udpReply .. => ⟨"UDP.REPLY", 0x63000000#32, 0xFFFFFF3F#32, .locNot3⟩
  | .udpCsum .. => ⟨"UDP.CSUM", 0x64000000#32, 0xFF000F3F#32, .locNot3⟩
  | .udpSetCsum .. => ⟨"UDP.SETCSUM", 0x65000000#32, 0xFFF00F3F#32, .locNot3⟩
  | .sysRdcsr .. => ⟨"SYS.RDCSR", 0x70000000#32, 0xFF0FFFF0#32, .csrAssigned⟩

/-- One command for each row, in the order of the table. -/
def rowRepresentatives : List Instr :=
  [.li 0 0, .lih 0 0, .add 0 0 0, .sub 0 0 0, .csfold 0 0 0, .csum 0 0 0, .csum2 0 0 0 0, .rgnSet 0 0 .p0 0,
    .pktNew 0 .p0, .pktNewReply .p0 0, .pktWr8 0 0 .p0, .pktRd8 0 0 .p0, .pktFillI .p0, .pktFillU .p0, .pktFillN .p0,
    .pktGetOff 0 .p0 .net, .pktTlen 0 .p0, .pktPayload .p0 0, .pktWhole .p0 0, .ipParse .p0, .ipVersion 0 .stage,
    .ipHlen 0 .stage, .ipDscp 0 .stage, .ipTotLen 0 .stage, .ipId 0 .stage, .ipFlags 0 .stage, .ipFragOff 0 .stage,
    .ipRsv 0 .stage, .ipDf 0 .stage, .ipMf 0 .stage, .ipTtl 0 .stage, .ipProto 0 .stage, .ipCkFld 0 .stage,
    .ipSrc 0 .stage, .ipDst 0 .stage, .ipSetTotLen 0 .stage, .ipBswap .stage, .ipCsum 0 .stage, .ipSetCsum .stage,
    .ipVerify 0 .stage, .ipReply .stage, .icmpParse .p0, .icmpType 0 .stage, .icmpCode 0 .stage, .icmpCkFld 0 .stage,
    .icmpBuild 0 0, .icmpCsum 0 0 .stage, .icmpSetCsum 0 .stage, .udpParse .p0, .udpSport 0 .stage,
    .udpDport 0 .stage, .udpLen 0 .stage, .udpCkFld 0 .stage, .udpBswap .stage, .udpReply .stage,
    .udpCsum 0 0 0 .stage, .udpSetCsum 0 0 .stage, .sysRdcsr 0 0]

/-- The 58 rows of the table of rule R78. -/
def opcodeTable : List OpcodeRow := rowRepresentatives.map Instr.row

/-- The mnemonic of a command (rule R78). -/
def Instr.mnemonic (i : Instr) : String := i.row.mnemonic

/-! ### Words as bytes (rule R83), and the host's way in -/

/-- A word as four bytes, most significant first (rule R83). -/
def wordBytes (w : Word) : List Byte :=
  [w.extractLsb' 24 8, w.extractLsb' 16 8, w.extractLsb' 8 8, w.extractLsb' 0 8]

/-- The command at the head of a byte stream of commands, and the rest of the stream (rule R83). -/
def decodeStream : List Byte → Except DecodeError (Instr × List Byte)
  | b0 :: b1 :: b2 :: b3 :: rest => do
    let i ← decode (b0 ++ b1 ++ b2 ++ b3)
    return (i, rest)
  | _ => .error .truncatedStream

/-- The command the decoder reads from a table row's bits `w` of width `nbits` (32 for every row), laid out as the byte
stream of rule R83. -/
def decodeTableWord (nbits w : Nat) : Option Instr :=
  match decodeStream (wordBytes (BitVec.ofNat 32 (w % 2 ^ nbits))) with
  | .ok (i, _) => some i
  | .error _ => none

end Sys2Proof
end

