-- ==== Sys2Proof/Config.lean ====
section
/-! DEFINITION. The open parameters of the block (rule R5, decisions D4, D5, D13, D14) and the constants the spec fixes (rules
R5, R6). -/

namespace Sys2Proof

/-- `TTL_FLOOR`: what a reply header does with TTL 0 (rule R5, decision D13, U1 of 93_implementation_defined). -/
inductive TtlFloor where
  /-- `SATURATE`, the value the spec takes: the TTL stays 0. -/
  | saturate
  /-- The other option U1 names ("an error result"): `IP.REPLY` is refused with `ST_NOTREP` (log 21). -/
  | refuse
  deriving DecidableEq, Repr

/-- The parameters of rule R5 that the spec leaves open, or of which it names another value: fields of a configuration, as
the rule asks, so that a claim can quantify over them (logs 4, 21). `Config.spec` holds the values the spec takes. -/
structure Config where
  /-- `PKT_CAP`: bytes of storage in each packet bank. -/
  pktCap : Nat
  /-- `HEADROOM`: bytes reserved before the payload by `PKT.NEWREPLY`. -/
  headroom : Nat
  /-- `UDP_ZERO_AS_ONES`: a computed UDP checksum of 0x0000 is replaced by 0xFFFF. -/
  udpZeroAsOnes : Bool
  /-- `TTL_FLOOR`: TTL 0 in a reply header. -/
  ttlFloor : TtlFloor
  deriving DecidableEq, Repr

/-- The values of rule R5. -/
def Config.spec : Config := { pktCap := 2048, headroom := 128, udpZeroAsOnes := true, ttlFloor := .saturate }

/-- The bounds the spec puts on the open parameters: `HEADROOM` at least 28 (D5), `PKT_CAP` at least
`HEADROOM` + 28 and below 2^31 (D4, rule R30). -/
abbrev Config.Ok (c : Config) : Prop :=
  28 ≤ c.headroom ∧ c.headroom + 28 ≤ c.pktCap ∧ c.pktCap < 2 ^ 31

/-- `IP_HDR`: bytes of the IPv4 header the block handles (rule R5). -/
def Config.ipHdr : Nat := 20

/-- `ICMP_HDR`: bytes of the ICMP header (rule R5). -/
def Config.icmpHdr : Nat := 4

/-- `UDP_HDR`: bytes of the UDP header (rule R5). -/
def Config.udpHdr : Nat := 8

/-- `IP_VERSION`: the only version nibble `IP.PARSE` accepts (rules R6, R143). -/
def Config.ipVersion : Nat := 4

/-- `PROTO_UDP`, also the protocol byte of the pseudo-header (rules R6, R191). -/
def Config.protoUdp : Byte := 17

end Sys2Proof
end

