-- ==== Sys2Proof/Machine/State.lean ====
section
/-! DEFINITION. The state of the block as plain data (rules R20 to R40), the responses it gives (rule R86), the host's
actions (rule R264), and the state after reset (rules R40, R250). -/

namespace Sys2Proof.Machine

/-- An order tag: `WIRE` = 0, multi-byte fields big-endian; `HOST` = 1, byte-reversed (rules R25, R50, R52). -/
inductive Order where
  | wire
  | host
  deriving DecidableEq, Repr

/-- A byte memory as (address, byte) pairs: addresses strictly rising, no listed byte 0. An unlisted address reads 0
(log 7). One such memory per packet bank, addresses 0 to `PKT_CAP` - 1 (rule R37). -/
abbrev Memory := List Host.Cell

/-- A packet bank: its descriptor registers, its two order tags and its bytes (rules R25, R30, R37). -/
structure Bank where
  /-- `PLEN[p]` -/
  plen : Nat
  /-- `NOFF[p]`; `none` is `NONE` -/
  noff : Option Nat
  /-- `TOFF[p]` -/
  toff : Option Nat
  /-- `POFF[p]` -/
  poff : Option Nat
  /-- `NORD[p]` -/
  nord : Order
  /-- `TORD[p]` -/
  tord : Order
  /-- `PMEM[p]` -/
  mem : Memory
  deriving DecidableEq, Repr

/-- A region descriptor `(p, base, len)` (rule R32). -/
structure Region where
  bank : BankId
  base : Word
  len : Word
  deriving DecidableEq, Repr

/-- The status codes of a response (rules R86, R221). -/
inductive Status where
  | stOk
  | stNone
  | stNotRep
  | stNoRoom
  | stFault
  | stFaulted
  deriving DecidableEq, Repr

/-- The response to a command (rule R86). -/
structure Response where
  status : Status
  value : Word
  deriving DecidableEq, Repr

/-- What the host can do to the block (rule R264): issue a command word, or reset. -/
inductive HostAction where
  | issue (w : Word)
  | reset
  deriving DecidableEq, Repr

/-- Why a step could stop the machine. There is no constructor: every command word, legal or not, in every state, has a
next state and a response (rules R13, R70, R221); the faults of rule R224 are next states. Nothing raises one, which is
safe: no behaviour of the block is cut off. -/
inductive Fault where
  deriving DecidableEq, Repr

/-- Why a step could refuse to give a meaning. The refusals of rule R222 are next states, not these. -/
inductive Refusal where
  /-- `exec` rejects a command that has no meaning in the model yet. Safe: nothing is proved about such a step. No arm
  raises it: every command has its meaning. -/
  | notModelled (mnemonic : String)
  deriving DecidableEq, Repr

/-- The state of the block (rule R40), and beside it the model's own fields `cfg`, `host`, `cmd` and `responses`. -/
structure State where
  /-- The open parameters of rule R5. The model's own field: fixed for a run (log 4). -/
  cfg : Config
  /-- `x1` to `x15`, at index 0 to 14; `x0` is the constant 0 and is not stored (rules R20, R21). -/
  xs : Vector Word 15
  /-- Packet bank `P0`. -/
  bank0 : Bank
  /-- Packet bank `P1`. -/
  bank1 : Bank
  /-- `RGN[0]` to `RGN[3]` (rule R32). -/
  rgns : Vector Region 4
  /-- `HIP`, the bytes (rule R34). -/
  hip : Vector Byte 20
  /-- `HIP.ord`. -/
  hipOrd : Order
  /-- `HICMP` (rule R35). -/
  hicmp : Vector Byte 4
  /-- `HUDP`, the bytes (rule R36). -/
  hudp : Vector Byte 8
  /-- `HUDP.ord`. -/
  hudpOrd : Order
  /-- `FSR` (rule R26). -/
  fsr : Word
  /-- `FCMD` (rule R27). -/
  fcmd : Word
  /-- The command word being executed, set by `step`. The model's own field (log 2). -/
  cmd : Word
  /-- What the host does next, oldest first. The model's own field (log 1). -/
  host : List HostAction
  /-- The responses given, newest first (rules R86, R265). The model's own field (log 3). -/
  responses : List Response
  deriving DecidableEq, Repr

/-- A packet bank after reset (rules R40, R250); its bytes, unspecified and unobservable there, are 0 (log 7). -/
def Bank.reset : Bank :=
  { plen := 0, noff := none, toff := none, poff := none, nord := .wire, tord := .wire, mem := [] }

/-- A region descriptor after reset (rule R32). -/
def Region.reset : Region := { bank := .p0, base := 0, len := 0 }

/-- The machine right after reset (rules R40, R250), with the spec's parameters, no host action pending and no response
given. -/
def State.reset : State where
  cfg := Config.spec
  xs := Vector.replicate 15 0
  bank0 := Bank.reset
  bank1 := Bank.reset
  rgns := Vector.replicate 4 Region.reset
  hip := Vector.replicate 20 0
  hipOrd := .wire
  hicmp := Vector.replicate 4 0
  hudp := Vector.replicate 8 0
  hudpOrd := .wire
  fsr := 0
  fcmd := 0
  cmd := 0
  host := []
  responses := []

end Sys2Proof.Machine
end

