-- ==== Sys2Proof/Machine/Bytes.lean ====
section
/-! DEFINITION. Byte-order helpers (rules R9, R50, R52, R53). On bit values `a ++ b` has `a` in the high bits (rule R8). -/

namespace Sys2Proof.Machine

/-- `BE16` (rule R9). -/
def be16 (b0 b1 : Byte) : Half := b0 ++ b1

/-- `LE16` (rule R9). -/
def le16 (b0 b1 : Byte) : Half := b1 ++ b0

/-- `BE32` (rule R9). -/
def be32 (b0 b1 b2 b3 : Byte) : Word := b0 ++ b1 ++ b2 ++ b3

/-- `LE32` (rule R9). -/
def le32 (b0 b1 b2 b3 : Byte) : Word := b3 ++ b2 ++ b1 ++ b0

/-- `bytesBE16` (rule R9). -/
def bytesBE16 (v : Half) : List Byte := [v.extractLsb' 8 8, v.extractLsb' 0 8]

/-- `bytesLE16` (rule R9). -/
def bytesLE16 (v : Half) : List Byte := [v.extractLsb' 0 8, v.extractLsb' 8 8]

/-- `bytesBE32` (rule R9). -/
def bytesBE32 (v : Word) : List Byte :=
  [v.extractLsb' 24 8, v.extractLsb' 16 8, v.extractLsb' 8 8, v.extractLsb' 0 8]

/-- A 16-bit field from its two bytes, by order tag (`fld16` of rule R53). -/
def decode16 (ord : Order) (b0 b1 : Byte) : Half :=
  match ord with
  | .wire => be16 b0 b1
  | .host => le16 b0 b1

/-- A 32-bit field from its four bytes, by order tag (`fld32` of rule R53). -/
def decode32 (ord : Order) (b0 b1 b2 b3 : Byte) : Word :=
  match ord with
  | .wire => be32 b0 b1 b2 b3
  | .host => le32 b0 b1 b2 b3

/-- The two bytes that store a 16-bit field, by order tag (`put16` of rule R53). -/
def encode16 (ord : Order) (v : Half) : List Byte :=
  match ord with
  | .wire => bytesBE16 v
  | .host => bytesLE16 v

end Sys2Proof.Machine
end

