-- ==== Sys2Proof/Machine/Checksum.lean ====
section
/-! DEFINITION. The checksum functions (rules R100 to R103), the pseudo-header (rule R191) and the UDP checksum (rule
R199): pure functions on bytes. -/

namespace Sys2Proof.Machine

/-- `fold(a, v)`: 16-bit one's-complement addition with end-around carry (rule R100). -/
def fold (a v : Half) : Half :=
  let sum := a.toNat + v.toNat
  if sum > 0xFFFF then BitVec.ofNat 16 (sum - 0x10000 + 1) else BitVec.ofNat 16 sum

/-- `words(B)`: big-endian 16-bit words paired from the first byte; a last odd byte is the high byte of a word (rule R101). -/
def words : List Byte → List Half
  | b0 :: b1 :: bs => be16 b0 b1 :: words bs
  | [b] => [be16 b 0]
  | [] => []

/-- `csum(B, seed)`: the Internet checksum; the accumulator starts at the complement of the seed (rule R102, conflict C1). -/
def csum (bs : List Byte) (seed : Half) : Half := ~~~((words bs).foldl fold (~~~seed))

/-- `csum2(A, B, seed)`: the checksum of the concatenation (rule R103, conflict C6). -/
def csum2 (as bs : List Byte) (seed : Half) : Half := csum (as ++ bs) seed

/-- `pseudo(src, dst, L)`: the 12-byte UDP pseudo-header (rule R191). -/
def pseudo (src dst : Word) (len : Half) : List Byte :=
  bytesBE32 src ++ bytesBE32 dst ++ [0x00, Config.protoUdp] ++ bytesBE16 len

/-- `udp_csum(S, src, dst, L, seed)` (rule R199); `zeroAsOnes` is the parameter `UDP_ZERO_AS_ONES`. -/
def udpCsum (zeroAsOnes : Bool) (seg : List Byte) (src dst : Word) (len seed : Half) : Half :=
  let r := csum2 (pseudo src dst len) seg seed
  if zeroAsOnes ∧ r = 0 then 0xFFFF else r

end Sys2Proof.Machine
end

