-- ==== Sys2Proof/Machine/Flags.lean ====
section
/-! DEFINITION. The flag-like state: order tags (rule R25), the `TAGS` view of them (rule R29), the fault status word
(rules R26, R224), and the status codes (rule R86). -/

namespace Sys2Proof.Machine

/-- The value of an order tag as a bit: `WIRE` = 0, `HOST` = 1 (rule R25). -/
def Order.bit : Order → BitVec 1
  | .wire => 0
  | .host => 1

/-- The toggle of `IP.BSWAP` and `UDP.BSWAP` (rules R160, R197). -/
def Order.toggle : Order → Order
  | .wire => .host
  | .host => .wire

/-- CSR `TAGS` (rule R29): bit 0 `NORD[0]`, 1 `TORD[0]`, 2 `NORD[1]`, 3 `TORD[1]`, 4 `HIP.ord`, 5 `HUDP.ord`. -/
def State.tags (s : State) : Word :=
  0#26 ++ s.hudpOrd.bit ++ s.hipOrd.bit ++ s.bank1.tord.bit ++ s.bank1.nord.bit ++ s.bank0.tord.bit ++ s.bank0.nord.bit

/-- The causes of a fault (rule R224). -/
inductive Cause where
  /-- `F_ILLEGAL` -/
  | illegal
  /-- `F_ORDER` -/
  | order
  /-- `F_BOUNDS` -/
  | bounds
  deriving DecidableEq, Repr

/-- The cause code of rule R224. -/
def Cause.code : Cause → Word
  | .illegal => 1
  | .order => 2
  | .bounds => 3

/-- What a fault of this cause leaves in `FSR` (rule R226): `(code << 4) | 1`. -/
def Cause.fsr (c : Cause) : Word := c.code <<< 4 ||| 1

/-- `FSR.FAULTED`, bit 0 (rule R26). -/
def State.faulted (s : State) : Bool := s.fsr.getLsbD 0

/-- `FSR.CAUSE`, bits 7:4 (rule R26). -/
def State.faultCause (s : State) : BitVec 4 := s.fsr.extractLsb' 4 4

/-- The 4-bit code of a status (rules R86, R221). -/
def Status.code : Status → BitVec 4
  | .stOk => 0
  | .stNone => 1
  | .stNotRep => 2
  | .stNoRoom => 3
  | .stFault => 4
  | .stFaulted => 5

/-- A response as the 64-bit number of rule R86: 28 zero bits, the status, the value. -/
def Response.bits (r : Response) : BitVec 64 := 0#28 ++ r.status.code ++ r.value

end Sys2Proof.Machine
end

