-- ==== Sys2Proof/Machine/Ops.lean ====
section
/-! DEFINITION. The named operations every meaning is written over: reading and writing a general register, a bank, a
region descriptor and the bytes of a store; ending a command (respond, refuse, raise); and reset. -/

namespace Sys2Proof.Machine

/-! ### General registers (rules R10, R20 to R22) -/

/-- Read general register `i`; `x0` reads 0 (rule R21). -/
def State.reg (s : State) (i : Reg) : Word :=
  match i.toNat with
  | 0 => 0
  | n + 1 => s.xs[n]?.getD 0

/-- Write general register `i`; a write to `x0` is discarded (rule R21). -/
def State.setReg (s : State) (i : Reg) (v : Word) : State :=
  match i.toNat with
  | 0 => s
  | n + 1 => { s with xs := s.xs.setIfInBounds n v }

/-! ### Packet banks and region descriptors -/

/-- Bank `p`. -/
def State.bank (s : State) : BankId → Bank
  | .p0 => s.bank0
  | .p1 => s.bank1

/-- Replace bank `p`. -/
def State.setBank (s : State) (p : BankId) (b : Bank) : State :=
  match p with
  | .p0 => { s with bank0 := b }
  | .p1 => { s with bank1 := b }

/-- `RGN[k]` (rule R32). -/
def State.rgn (s : State) (k : RgnIdx) : Region := s.rgns[k.toNat]?.getD Region.reset

/-- Write `RGN[k]`; nothing is checked (rule R32). -/
def State.setRgn (s : State) (k : RgnIdx) (r : Region) : State :=
  { s with rgns := s.rgns.setIfInBounds k.toNat r }

/-! ### Byte stores: the packet banks and the staging registers (rules R34 to R38, R51) -/

/-- A byte store that a header image can lie in (rule R54). -/
inductive Store where
  | bank (p : BankId)
  | hip
  | hicmp
  | hudp
  deriving DecidableEq, Repr

/-- Store bytes into a staging register from index `i` on. -/
def stageWrite {n : Nat} (v : Vector Byte n) : Nat → List Byte → Vector Byte n
  | _, [] => v
  | i, b :: bs => stageWrite (v.setIfInBounds i b) (i + 1) bs

/-- The byte at index `a` of a store. -/
def State.storeByte (s : State) (st : Store) (a : Nat) : Byte :=
  match st with
  | .bank p => (s.bank p).mem.read a
  | .hip => s.hip[a]?.getD 0
  | .hicmp => s.hicmp[a]?.getD 0
  | .hudp => s.hudp[a]?.getD 0

/-- The bytes of a store at `a` to `a + n - 1`. -/
def State.storeBytes (s : State) (st : Store) (a n : Nat) : List Byte :=
  (List.range n).map fun i => s.storeByte st (a + i)

/-- Write bytes into bank `p` from address `a` on (`MemWrite` of rule R51). -/
def State.writeBank (s : State) (p : BankId) (a : Nat) (bs : List Byte) : State :=
  s.setBank p { s.bank p with mem := (s.bank p).mem.writeBytes a bs }

/-- Write bytes into a store from index `a` on. -/
def State.storeWrite (s : State) (st : Store) (a : Nat) (bs : List Byte) : State :=
  match st with
  | .bank p => s.writeBank p a bs
  | .hip => { s with hip := stageWrite s.hip a bs }
  | .hicmp => { s with hicmp := stageWrite s.hicmp a bs }
  | .hudp => { s with hudp := stageWrite s.hudp a bs }

/-! ### Ending a command (rules R10, R86, R221) -/

/-- Give the response of the command. -/
def State.reply (s : State) (st : Status) (v : Word) : State :=
  { s with responses := { status := st, value := v } :: s.responses }

/-- TAKING A FAULT, `raise F_x` (rule R226): `FSR` and `FCMD` are written, nothing else changes, and the response is
`ST_FAULT` with the new `FSR`. -/
def State.raise (s : State) (c : Cause) : State :=
  { s with fsr := c.fsr, fcmd := s.cmd }.reply .stFault c.fsr

/-- RESET, the host's action (rule R250), the only way out of the faulted state (rule R228): the block's state is that of
rule R40. The parameters, the host's further actions and the responses already given are not the block's state and stay. -/
def State.resetBlock (s : State) : State :=
  { State.reset with cfg := s.cfg, host := s.host, responses := s.responses }

/-- How a command ends when it does not complete: the three packet refusals (rule R222) and a fault (rule R226). -/
inductive Abort where
  /-- `refuse ST_NONE` -/
  | none
  /-- `refuse ST_NOTREP` -/
  | notRep
  /-- `refuse ST_NOROOM` -/
  | noRoom
  /-- `raise F_x` -/
  | raise (c : Cause)
  deriving DecidableEq, Repr

/-- The state after a command that does not complete: a refusal changes nothing and responds 0 (rule R222), a fault is
taken (rule R226). -/
def State.abort (s : State) : Abort → State
  | .none => s.reply .stNone 0
  | .notRep => s.reply .stNotRep 0
  | .noRoom => s.reply .stNoRoom 0
  | .raise c => s.raise c

/-- A test of a rule's pseudocode: when it holds the command ends as said. -/
def stopIf (c : Prop) [Decidable c] (a : Abort) : Except Abort Unit :=
  if c then .error a else .ok ()

/-- Executing a command that has an `rd` field: refused in the faulted state (rule R227); else `respond(v)` of rule R10
writes `x[rd]` and answers `v`, or the command ends as `body` says. -/
def State.commandValue (s : State) (rd : Reg) (body : Except Abort Word) :
    Host.Outcome State Fault Refusal :=
  if s.faulted then .next (s.reply .stFaulted s.fsr)
  else match body with
    | .ok v => .next ((s.setReg rd v).reply .stOk v)
    | .error a => .next (s.abort a)

/-- Executing a command that has no `rd` field: refused in the faulted state (rule R227); else its effects and the value 0
(rule R86), or the command ends as `body` says, with none of its effects (rules R57, R222). -/
def State.commandEffect (s : State) (body : Except Abort State) : Host.Outcome State Fault Refusal :=
  if s.faulted then .next (s.reply .stFaulted s.fsr)
  else match body with
    | .ok t => .next (t.reply .stOk 0)
    | .error a => .next (s.abort a)

/-- Executing an illegal word (rules R80, R227, R229): `ST_FAULTED` in the faulted state, else `F_ILLEGAL`. -/
def State.illegalWord (s : State) : State :=
  if s.faulted then s.reply .stFaulted s.fsr else s.raise .illegal

end Sys2Proof.Machine
end

