-- ==== Sys2Proof/Machine/Operands.lean ====
section
/-! DEFINITION. The operand forms: the low bits of a register (rule R79), a region (rule R109), a header location resolved
to a view (rule R54), and the fields of a header image read and written through a view (rule R53). -/

namespace Sys2Proof.Machine

/-! ### Register operands narrower than 32 bits (rule R79) -/

/-- Bits 15:0 of a register: a seed, an accumulator, a fold value, a total length. -/
def State.regHalf (s : State) (i : Reg) : Half := (s.reg i).extractLsb' 0 16

/-- Bits 7:0 of a register: a byte, an ICMP type, an ICMP code. -/
def State.regByte (s : State) (i : Reg) : Byte := (s.reg i).extractLsb' 0 8

/-! ### Regions (rule R109) -/

/-- `rgn_bytes(k)`: the bytes of a region descriptor, checked against the current length of its bank; the sum is on natural
numbers and does not wrap. -/
def State.rgnBytes (s : State) (k : RgnIdx) : Except Abort (List Byte) :=
  let r := s.rgn k
  if r.base.toNat + r.len.toNat > (s.bank r.bank).plen then .error (.raise .bounds)
  else .ok ((s.bank r.bank).mem.readBytes r.base.toNat r.len.toNat)

/-! ### Header views (rule R54) -/

/-- The kind of a header command, from its mnemonic. -/
inductive Kind where
  | ip
  | icmp
  | udp
  deriving DecidableEq, Repr

/-- `minlen(kind)`: the bytes of the fixed header. -/
def Kind.minLen : Kind → Nat
  | .ip => Config.ipHdr
  | .icmp => Config.icmpHdr
  | .udp => Config.udpHdr

/-- The offset that anchors a view of this kind in a bank. -/
def Kind.anchor : Kind → Bank → Option Nat
  | .ip, b => b.noff
  | .icmp, b => b.toff
  | .udp, b => b.toff

/-- The order tag of a view of this kind in a bank. -/
def Kind.bankOrder : Kind → Bank → Order
  | .ip, b => b.nord
  | .icmp, b => b.tord
  | .udp, b => b.tord

/-- The staging register of a kind. -/
def Kind.stageStore : Kind → Store
  | .ip => .hip
  | .icmp => .hicmp
  | .udp => .hudp

/-- The order tag of a kind's staging register; that of `HICMP` is the constant `WIRE`. -/
def Kind.stageOrder : Kind → State → Order
  | .ip, s => s.hipOrd
  | .icmp, _ => .wire
  | .udp, s => s.hudpOrd

/-- A header image: the byte store it lies in, the index of its first byte, the bytes from there to the end of the store,
and its order tag. Never stored (rule R39). -/
structure View where
  store : Store
  off : Nat
  avail : Nat
  ord : Order
  deriving DecidableEq, Repr

/-- `hv(kind, loc)` (rule R54). -/
def State.hv (s : State) (kind : Kind) (loc : Loc) : Except Abort View :=
  match loc with
  | .stage => .ok { store := kind.stageStore, off := 0, avail := kind.minLen, ord := kind.stageOrder s }
  | .bank p =>
    match kind.anchor (s.bank p) with
    | none => .error .none
    | some off =>
      if (s.bank p).plen - off < kind.minLen then .error .notRep
      else .ok { store := .bank p, off := off, avail := (s.bank p).plen - off, ord := kind.bankOrder (s.bank p) }

/-- `H[i]`. -/
def State.byteAt (s : State) (v : View) (i : Nat) : Byte := s.storeByte v.store (v.off + i)

/-- `H[i .. i + n)`. -/
def State.bytesAt (s : State) (v : View) (i n : Nat) : List Byte := s.storeBytes v.store (v.off + i) n

/-- `fld16(H, i, ord)` (rule R53). -/
def State.fld16 (s : State) (v : View) (i : Nat) : Half := decode16 v.ord (s.byteAt v i) (s.byteAt v (i + 1))

/-- `fld32(H, i, ord)` (rule R53). -/
def State.fld32 (s : State) (v : View) (i : Nat) : Word :=
  decode32 v.ord (s.byteAt v i) (s.byteAt v (i + 1)) (s.byteAt v (i + 2)) (s.byteAt v (i + 3))

/-- `BE16(H[i], H[i+1])`, whatever the tag. -/
def State.be16At (s : State) (v : View) (i : Nat) : Half := be16 (s.byteAt v i) (s.byteAt v (i + 1))

/-- `H[i ..) <- bs`. -/
def State.putBytes (s : State) (v : View) (i : Nat) (bs : List Byte) : State := s.storeWrite v.store (v.off + i) bs

/-- `put16(H, i, ord, x)` (rule R53). -/
def State.put16 (s : State) (v : View) (i : Nat) (x : Half) : State := s.putBytes v i (encode16 v.ord x)

/-- `H[i .. i + n) <- reverse(H[i .. i + n))` (rule R160). -/
def State.reverseAt (s : State) (v : View) (i n : Nat) : State := s.putBytes v i (s.bytesAt v i n).reverse

/-- Set the order tag of a header image of the network layer: `NORD[p]` or `HIP.ord` (rule R160). -/
def State.setNetOrder (s : State) (loc : Loc) (o : Order) : State :=
  match loc with
  | .bank p => s.setBank p { s.bank p with nord := o }
  | .stage => { s with hipOrd := o }

/-- Set the order tag of a UDP header image: `TORD[p]` or `HUDP.ord` (rule R197). -/
def State.setTrnOrder (s : State) (loc : Loc) (o : Order) : State :=
  match loc with
  | .bank p => s.setBank p { s.bank p with tord := o }
  | .stage => { s with hudpOrd := o }

end Sys2Proof.Machine
end

