-- ==== Sys2Proof/Machine/ChecksumOps.lean ====
section
/-! DEFINITION. The checksum engine's commands: `CSFOLD`, `CSUM`, `CSUM2` (rules R104 to R106). -/

namespace Sys2Proof.Machine

/-- `CSFOLD rd, rs1, rs2` (rule R104). -/
def execCsfold (rd rs1 rs2 : Reg) (s : State) : Host.Outcome State Fault Refusal :=
  s.commandValue rd (.ok ((fold (s.regHalf rs1) (s.regHalf rs2)).setWidth 32))

/-- `CSUM rd, k, rs3` (rule R105). -/
def execCsum (rd rs3 : Reg) (k : RgnIdx) (s : State) : Host.Outcome State Fault Refusal :=
  s.commandValue rd do
    let bs ← s.rgnBytes k
    return (csum bs (s.regHalf rs3)).setWidth 32

/-- `CSUM2 rd, k, j, rs3` (rule R106). -/
def execCsum2 (rd rs3 : Reg) (k j : RgnIdx) (s : State) : Host.Outcome State Fault Refusal :=
  s.commandValue rd do
    let as ← s.rgnBytes k
    let bs ← s.rgnBytes j
    return (csum2 as bs (s.regHalf rs3)).setWidth 32

end Sys2Proof.Machine
end

