-- ==== Sys2Proof/Machine/Icmp.lean ====
section
/-! DEFINITION. The ICMP header parser: the `ICMP.*` commands (rules R180 to R188). No command here reads or writes an
order tag (rule R180). -/

namespace Sys2Proof.Machine

/-- `ICMP.PARSE loc` (rule R182). -/
def execIcmpParse (p : BankId) (s : State) : Host.Outcome State Fault Refusal :=
  s.commandEffect do
    let v ← s.hv .icmp (.bank p)
    return s.setBank p { s.bank p with poff := some (v.off + Config.icmpHdr) }

/-- The common part of the field reads. -/
def State.icmpField (s : State) (rd : Reg) (loc : Loc) (value : View → Word) : Host.Outcome State Fault Refusal :=
  s.commandValue rd do
    let v ← s.hv .icmp loc
    return value v

/-- `ICMP.TYPE rd, loc` (rule R183). -/
def execIcmpType (rd : Reg) (loc : Loc) (s : State) : Host.Outcome State Fault Refusal :=
  s.icmpField rd loc fun v => (s.byteAt v 0).setWidth 32

/-- `ICMP.CODE rd, loc` (rule R184). -/
def execIcmpCode (rd : Reg) (loc : Loc) (s : State) : Host.Outcome State Fault Refusal :=
  s.icmpField rd loc fun v => (s.byteAt v 1).setWidth 32

/-- `ICMP.CKFLD rd, loc` (rule R185): big-endian whatever the tag. -/
def execIcmpCkFld (rd : Reg) (loc : Loc) (s : State) : Host.Outcome State Fault Refusal :=
  s.icmpField rd loc fun v => (s.be16At v 2).setWidth 32

/-- `ICMP.BUILD rs1, rs2` (rule R186). -/
def execIcmpBuild (rs1 rs2 : Reg) (s : State) : Host.Outcome State Fault Refusal :=
  s.commandEffect (.ok { s with hicmp := #v[s.regByte rs1, s.regByte rs2, 0, 0] })

/-- The checks `ICMP.CSUM` and `ICMP.SETCSUM` share, in order (rule R187): the view and the bytes summed. -/
def State.icmpSummed (s : State) (loc : Loc) (rs1 : Reg) : Except Abort (View × List Byte) := do
  let v ← s.hv .icmp loc
  let n := (s.reg rs1).toNat
  stopIf (n < 4 ∨ n > v.avail) (.raise .bounds)
  return (v, s.bytesAt v 0 n)

/-- `ICMP.CSUM rd, rs1, loc` (rule R187): the seed is the stored field. -/
def execIcmpCsum (rd rs1 : Reg) (loc : Loc) (s : State) : Host.Outcome State Fault Refusal :=
  s.commandValue rd do
    let (v, bs) ← s.icmpSummed loc rs1
    return (csum bs (s.be16At v 2)).setWidth 32

/-- `ICMP.SETCSUM rs1, loc` (rule R188). -/
def execIcmpSetCsum (rs1 : Reg) (loc : Loc) (s : State) : Host.Outcome State Fault Refusal :=
  s.commandEffect do
    let (v, bs) ← s.icmpSummed loc rs1
    return s.putBytes v 2 (bytesBE16 (csum bs (s.be16At v 2)))

end Sys2Proof.Machine
end

