-- ==== Sys2Proof/Machine/Protocol.lean ====
section
/-! DEFINITION. The protocol enumerations and the flag word of the spec (rules R6, R141, R142, R181). The block returns
the protocol and ICMP type bytes as plain numbers and rejects none; these names stand beside the raw bytes. -/

namespace Sys2Proof.Machine

/-- The IPv4 protocol enumeration (rules R6, R141). -/
inductive Protocol where
  | icmp
  | tcp
  | udp
  deriving DecidableEq, Repr

/-- The protocol byte of a name (rule R6). -/
def Protocol.code : Protocol → Byte
  | .icmp => 1
  | .tcp => 6
  | .udp => 17

/-- The name of a protocol byte, where it has one. -/
def Protocol.ofCode (b : Byte) : Option Protocol :=
  [Protocol.icmp, .tcp, .udp].find? fun p => p.code = b

/-- The ICMP type enumeration (rules R6, R181). -/
inductive IcmpType where
  | echoReply
  | destinationUnreachable
  | sourceQuench
  | redirect
  | echoRequest
  | routerAdvertisement
  | routerSolicitation
  | timeExceeded
  | badIpHeader
  deriving DecidableEq, Repr

/-- The type byte of a name (rule R181). -/
def IcmpType.code : IcmpType → Byte
  | .echoReply => 0
  | .destinationUnreachable => 3
  | .sourceQuench => 4
  | .redirect => 5
  | .echoRequest => 8
  | .routerAdvertisement => 9
  | .routerSolicitation => 10
  | .timeExceeded => 11
  | .badIpHeader => 12

/-- The name of a type byte, where it has one (rule R181). -/
def IcmpType.ofCode (b : Byte) : Option IcmpType :=
  [IcmpType.echoReply, .destinationUnreachable, .sourceQuench, .redirect, .echoRequest, .routerAdvertisement,
    .routerSolicitation, .timeExceeded, .badIpHeader].find? fun t => t.code = b

/-! ### The flags and fragment-offset word `ff` (rule R142; its bit numbers are the spec's entry G1, log 12) -/

/-- Bits 15:13: reserved, DF, MF (rules R142, R149). -/
def ffFlags (ff : Half) : BitVec 3 := ff.extractLsb' 13 3
/-- Bit 15, the reserved bit. -/
def ffReserved (ff : Half) : BitVec 1 := ff.extractLsb' 15 1
/-- Bit 14, don't fragment. -/
def ffDf (ff : Half) : BitVec 1 := ff.extractLsb' 14 1
/-- Bit 13, more fragments. -/
def ffMf (ff : Half) : BitVec 1 := ff.extractLsb' 13 1
/-- Bits 12:0, the fragment offset in 8-byte units. -/
def ffFragOff (ff : Half) : BitVec 13 := ff.extractLsb' 0 13

end Sys2Proof.Machine
end

