-- ==== Sys2Proof/Machine/Ipv4.lean ====
section
/-! DEFINITION. The IPv4 header parser: the `IP.*` commands (rules R140 to R165). -/

namespace Sys2Proof.Machine

/-- The version nibble `H[0][7:4]` (rule R140). -/
def State.ipVersionAt (s : State) (v : View) : BitVec 4 := (s.byteAt v 0).extractLsb' 4 4

/-- The header-length nibble `H[0][3:0]` (rule R140). -/
def State.ipIhlAt (s : State) (v : View) : BitVec 4 := (s.byteAt v 0).extractLsb' 0 4

/-! ### Parsing (rule R143) -/

/-- `IP.PARSE loc` (rule R143). -/
def execIpParse (p : BankId) (s : State) : Host.Outcome State Fault Refusal :=
  s.commandEffect do
    let v ← s.hv .ip (.bank p)
    stopIf ((s.ipVersionAt v).toNat ≠ Config.ipVersion) .notRep
    stopIf ((s.ipIhlAt v).toNat ≠ 5) .notRep
    let tl := (s.fld16 v 2).toNat
    stopIf (tl < Config.ipHdr ∨ tl > v.avail) .notRep
    return s.setBank p { s.bank p with toff := some (v.off + Config.ipHdr), poff := none }

/-! ### Field reads (rules R144 to R158, R165) -/

/-- The common part of the field reads that are safe in both order states (rule R165). -/
def State.ipField (s : State) (rd : Reg) (loc : Loc) (value : View → Word) : Host.Outcome State Fault Refusal :=
  s.commandValue rd do
    let v ← s.hv .ip loc
    return value v

/-- The common part of the five reads of the flag word, which need the tag `HOST` (rule R165). -/
def State.ipFlagWord (s : State) (rd : Reg) (loc : Loc) (value : Half → Word) : Host.Outcome State Fault Refusal :=
  s.commandValue rd do
    let v ← s.hv .ip loc
    stopIf (v.ord ≠ .host) (.raise .order)
    return value (s.fld16 v 6)

/-- `IP.VERSION rd, loc` (rule R144). -/
def execIpVersion (rd : Reg) (loc : Loc) (s : State) : Host.Outcome State Fault Refusal :=
  s.ipField rd loc fun v => (s.ipVersionAt v).setWidth 32

/-- `IP.HLEN rd, loc` (rule R145): the low nibble times 4. -/
def execIpHlen (rd : Reg) (loc : Loc) (s : State) : Host.Outcome State Fault Refusal :=
  s.ipField rd loc fun v => (s.ipIhlAt v).setWidth 32 * 4

/-- `IP.DSCP rd, loc` (rule R146). -/
def execIpDscp (rd : Reg) (loc : Loc) (s : State) : Host.Outcome State Fault Refusal :=
  s.ipField rd loc fun v => (s.byteAt v 1).setWidth 32

/-- `IP.TOTLEN rd, loc` (rule R147). -/
def execIpTotLen (rd : Reg) (loc : Loc) (s : State) : Host.Outcome State Fault Refusal :=
  s.ipField rd loc fun v => (s.fld16 v 2).setWidth 32

/-- `IP.ID rd, loc` (rule R148). -/
def execIpId (rd : Reg) (loc : Loc) (s : State) : Host.Outcome State Fault Refusal :=
  s.ipField rd loc fun v => (s.fld16 v 4).setWidth 32

/-- `IP.FLAGS rd, loc` (rule R149). -/
def execIpFlags (rd : Reg) (loc : Loc) (s : State) : Host.Outcome State Fault Refusal :=
  s.ipFlagWord rd loc fun ff => (ffFlags ff).setWidth 32

/-- `IP.FRAGOFF rd, loc` (rule R150): unscaled. -/
def execIpFragOff (rd : Reg) (loc : Loc) (s : State) : Host.Outcome State Fault Refusal :=
  s.ipFlagWord rd loc fun ff => (ffFragOff ff).setWidth 32

/-- `IP.RSV rd, loc` (rule R151). -/
def execIpRsv (rd : Reg) (loc : Loc) (s : State) : Host.Outcome State Fault Refusal :=
  s.ipFlagWord rd loc fun ff => (ffReserved ff).setWidth 32

/-- `IP.DF rd, loc` (rule R152). -/
def execIpDf (rd : Reg) (loc : Loc) (s : State) : Host.Outcome State Fault Refusal :=
  s.ipFlagWord rd loc fun ff => (ffDf ff).setWidth 32

/-- `IP.MF rd, loc` (rule R153). -/
def execIpMf (rd : Reg) (loc : Loc) (s : State) : Host.Outcome State Fault Refusal :=
  s.ipFlagWord rd loc fun ff => (ffMf ff).setWidth 32

/-- `IP.TTL rd, loc` (rule R154). -/
def execIpTtl (rd : Reg) (loc : Loc) (s : State) : Host.Outcome State Fault Refusal :=
  s.ipField rd loc fun v => (s.byteAt v 8).setWidth 32

/-- `IP.PROTO rd, loc` (rule R155): any value (rule R141). -/
def execIpProto (rd : Reg) (loc : Loc) (s : State) : Host.Outcome State Fault Refusal :=
  s.ipField rd loc fun v => (s.byteAt v 9).setWidth 32

/-- `IP.CKFLD rd, loc` (rule R156): the stored field; nothing is computed. -/
def execIpCkFld (rd : Reg) (loc : Loc) (s : State) : Host.Outcome State Fault Refusal :=
  s.ipField rd loc fun v => (s.fld16 v 10).setWidth 32

/-- `IP.SRC rd, loc` (rule R157). -/
def execIpSrc (rd : Reg) (loc : Loc) (s : State) : Host.Outcome State Fault Refusal :=
  s.ipField rd loc fun v => s.fld32 v 12

/-- `IP.DST rd, loc` (rule R158). -/
def execIpDst (rd : Reg) (loc : Loc) (s : State) : Host.Outcome State Fault Refusal :=
  s.ipField rd loc fun v => s.fld32 v 16

/-! ### Writes and conversions (rules R159, R160) -/

/-- `IP.SETTOTLEN loc, rs1` (rule R159): in the byte order of the tag. -/
def execIpSetTotLen (rs1 : Reg) (loc : Loc) (s : State) : Host.Outcome State Fault Refusal :=
  s.commandEffect do
    let v ← s.hv .ip loc
    return s.put16 v 2 (s.regHalf rs1)

/-- The six multi-byte fields of an IPv4 header reversed (rule R160). -/
def State.ipReverseFields (s : State) (v : View) : State :=
  (((((s.reverseAt v 2 2).reverseAt v 4 2).reverseAt v 6 2).reverseAt v 10 2).reverseAt v 12 4).reverseAt v 16 4

/-- `IP.BSWAP loc` (rule R160). -/
def execIpBswap (loc : Loc) (s : State) : Host.Outcome State Fault Refusal :=
  s.commandEffect do
    let v ← s.hv .ip loc
    return (s.ipReverseFields v).setNetOrder loc v.ord.toggle

/-! ### Checksums (rules R161 to R163) -/

/-- The checks `IP.CSUM`, `IP.SETCSUM` and `IP.VERIFY` share, in order (rule R161): the view and the header's bytes. -/
def State.ipSummed (s : State) (loc : Loc) : Except Abort (View × List Byte) := do
  let v ← s.hv .ip loc
  let ihl := (s.ipIhlAt v).toNat
  stopIf (ihl < 5) .notRep
  stopIf (v.ord ≠ .wire) (.raise .order)
  stopIf (ihl * 4 > v.avail) (.raise .bounds)
  return (v, s.bytesAt v 0 (ihl * 4))

/-- `IP.CSUM rd, loc` (rule R161): the seed is the stored field. -/
def execIpCsum (rd : Reg) (loc : Loc) (s : State) : Host.Outcome State Fault Refusal :=
  s.commandValue rd do
    let (v, bs) ← s.ipSummed loc
    return (csum bs (s.be16At v 10)).setWidth 32

/-- `IP.SETCSUM loc` (rule R162). -/
def execIpSetCsum (loc : Loc) (s : State) : Host.Outcome State Fault Refusal :=
  s.commandEffect do
    let (v, bs) ← s.ipSummed loc
    return s.putBytes v 10 (bytesBE16 (csum bs (s.be16At v 10)))

/-- `IP.VERIFY rd, loc` (rule R163): seed 0. -/
def execIpVerify (rd : Reg) (loc : Loc) (s : State) : Host.Outcome State Fault Refusal :=
  s.commandValue rd do
    let (_, bs) ← s.ipSummed loc
    return (csum bs 0).setWidth 32

/-! ### The reply header (rule R164) -/

/-- The TTL of a reply header: decremented, saturating at 0 (rule R164). -/
def replyTtl (ttl : Byte) : Byte := if ttl.toNat > 0 then ttl - 1 else 0

/-- The parameter `TTL_FLOOR` refuses a reply to the image `v`: its TTL is 0 and the parameter is not `SATURATE` (rule R5,
U1 of 93_implementation_defined, log 21). -/
abbrev State.ttlRefused (s : State) (v : View) : Prop := s.cfg.ttlFloor = .refuse ∧ s.byteAt v 8 = 0

/-- The fresh header made from the image `I[0 .. 20)` (rule R164). -/
def ipReplyHeader (img : Nat → Byte) : Vector Byte 20 :=
  #v[0x45, img 1, 0, 0, img 4, img 5, img 6, img 7, replyTtl (img 8), img 9, 0, 0,
    img 16, img 17, img 18, img 19, img 12, img 13, img 14, img 15]

/-- `IP.REPLY loc` (rule R164): the whole image is read before `HIP` is written. TTL 0 is as `TTL_FLOOR` says. -/
def execIpReply (loc : Loc) (s : State) : Host.Outcome State Fault Refusal :=
  s.commandEffect do
    let v ← s.hv .ip loc
    stopIf (s.ttlRefused v) .notRep
    return { s with hip := ipReplyHeader (s.byteAt v), hipOrd := v.ord }

end Sys2Proof.Machine
end

