-- ==== Sys2Proof/Machine/Packet.lean ====
section
/-! DEFINITION. Regions and the packet buffer: `RGN.SET` and the `PKT.*` commands (rules R120 to R131). -/

namespace Sys2Proof.Machine

/-- `RGN.SET k, loc, rs1, rs2` (rule R120): nothing is checked now. -/
def execRgnSet (rs1 rs2 : Reg) (p : BankId) (k : RgnIdx) (s : State) : Host.Outcome State Fault Refusal :=
  s.commandEffect (.ok (s.setRgn k { bank := p, base := s.reg rs1, len := s.reg rs2 }))

/-- The bank after `PKT.NEW` with frame length `n` (rule R121): the first `n` bytes are zero, bytes at `n` and above are
not touched (rule R66). -/
def newBank (b : Bank) (n : Nat) : Bank :=
  { plen := n, noff := some 0, toff := none, poff := none, nord := .wire, tord := .wire, mem := b.mem.clear 0 n }

/-- `PKT.NEW loc, rs1` (rule R121). -/
def execPktNew (rs1 : Reg) (p : BankId) (s : State) : Host.Outcome State Fault Refusal :=
  s.commandEffect do
    let n := (s.reg rs1).toNat
    stopIf (n > s.cfg.pktCap) .noRoom
    return s.setBank p (newBank (s.bank p) n)

/-- The bank after `PKT.NEWREPLY` of the payload `bs` behind `headroom` bytes (rule R122). -/
def replyBank (b : Bank) (headroom : Nat) (bs : List Byte) : Bank :=
  { plen := headroom + bs.length, noff := none, toff := none, poff := some headroom, nord := .wire, tord := .wire,
    mem := (b.mem.clear 0 headroom).writeBytes headroom bs }

/-- `PKT.NEWREPLY loc, k` (rule R122): the whole source is read before the bank is written (rule R57). -/
def execPktNewReply (p : BankId) (k : RgnIdx) (s : State) : Host.Outcome State Fault Refusal :=
  s.commandEffect do
    stopIf (s.cfg.headroom + (s.rgn k).len.toNat > s.cfg.pktCap) .noRoom
    let bs ← s.rgnBytes k
    return s.setBank p (replyBank (s.bank p) s.cfg.headroom bs)

/-- `PKT.WR8 loc, rs1, rs2` (rule R123). -/
def execPktWr8 (rs1 rs2 : Reg) (p : BankId) (s : State) : Host.Outcome State Fault Refusal :=
  s.commandEffect do
    let a := (s.reg rs1).toNat
    stopIf (a ≥ (s.bank p).plen) (.raise .bounds)
    return s.writeBank p a [s.regByte rs2]

/-- `PKT.RD8 rd, loc, rs1` (rule R124). -/
def execPktRd8 (rd rs1 : Reg) (p : BankId) (s : State) : Host.Outcome State Fault Refusal :=
  s.commandValue rd do
    let a := (s.reg rs1).toNat
    stopIf (a ≥ (s.bank p).plen) (.raise .bounds)
    return ((s.bank p).mem.read a).setWidth 32

/-- Where a transport fill of `n` bytes goes (rules R125, R126): just before the payload, or the refusal. -/
def fillTransportAt (b : Bank) (n : Nat) : Except Abort Nat :=
  match b.poff with
  | none => .error .none
  | some po => do
    stopIf (po < n) .noRoom
    stopIf (b.noff.any fun no => no > po - n) .noRoom
    return po - n

/-- The state after a transport fill at `t` (rules R125, R126): the bytes, `TOFF[p]` and `TORD[p]`. -/
def State.fillTransport (s : State) (p : BankId) (t : Nat) (bs : List Byte) (o : Order) : State :=
  s.setBank p { s.bank p with mem := (s.bank p).mem.writeBytes t bs, toff := some t, tord := o }

/-- `PKT.FILLI loc` (rule R125). -/
def execPktFillI (p : BankId) (s : State) : Host.Outcome State Fault Refusal :=
  s.commandEffect do
    let t ← fillTransportAt (s.bank p) Config.icmpHdr
    return s.fillTransport p t s.hicmp.toList .wire

/-- `PKT.FILLU loc` (rule R126): the tag travels with the bytes. -/
def execPktFillU (p : BankId) (s : State) : Host.Outcome State Fault Refusal :=
  s.commandEffect do
    let t ← fillTransportAt (s.bank p) Config.udpHdr
    return s.fillTransport p t s.hudp.toList s.hudpOrd

/-- Where a network fill goes (rule R127): the 20 bytes before the transport header, or the refusal. -/
def fillNetworkAt (b : Bank) : Except Abort Nat :=
  match b.toff with
  | none => .error .none
  | some tOff => do
    stopIf (tOff < Config.ipHdr) .noRoom
    return tOff - Config.ipHdr

/-- The state after a network fill at `t` (rule R127): the bytes, `NOFF[p]` and `NORD[p]`. -/
def State.fillNetwork (s : State) (p : BankId) (t : Nat) (bs : List Byte) (o : Order) : State :=
  s.setBank p { s.bank p with mem := (s.bank p).mem.writeBytes t bs, noff := some t, nord := o }

/-- `PKT.FILLN loc` (rule R127). -/
def execPktFillN (p : BankId) (s : State) : Host.Outcome State Fault Refusal :=
  s.commandEffect do
    let t ← fillNetworkAt (s.bank p)
    return s.fillNetwork p t s.hip.toList s.hipOrd

/-- The offset that `PKT.GETOFF` selects (rule R128). -/
def OffSel.offset : OffSel → Bank → Option Nat
  | .net, b => b.noff
  | .trn, b => b.toff
  | .pay, b => b.poff

/-- A needed offset: refused with `ST_NONE` when it is unset. -/
def needOffset (o : Option Nat) : Except Abort Nat :=
  match o with
  | none => .error .none
  | some a => .ok a

/-- `PKT.GETOFF rd, loc, j` (rule R128). -/
def execPktGetOff (rd : Reg) (p : BankId) (j : OffSel) (s : State) : Host.Outcome State Fault Refusal :=
  s.commandValue rd do
    let o ← needOffset (OffSel.offset j (s.bank p))
    return BitVec.ofNat 32 o

/-- `PKT.TLEN rd, loc` (rule R129). -/
def execPktTlen (rd : Reg) (p : BankId) (s : State) : Host.Outcome State Fault Refusal :=
  s.commandValue rd do
    let no ← needOffset (s.bank p).noff
    return BitVec.ofNat 32 ((s.bank p).plen - no)

/-- The region from an offset to the end of bank `p` (rules R130, R131). -/
def sliceFrom (p : BankId) (b : Bank) (o : Nat) : Region :=
  { bank := p, base := BitVec.ofNat 32 o, len := BitVec.ofNat 32 (b.plen - o) }

/-- `PKT.PAYLOAD k, loc` (rule R130). -/
def execPktPayload (p : BankId) (k : RgnIdx) (s : State) : Host.Outcome State Fault Refusal :=
  s.commandEffect do
    let po ← needOffset (s.bank p).poff
    return s.setRgn k (sliceFrom p (s.bank p) po)

/-- `PKT.WHOLE k, loc` (rule R131). -/
def execPktWhole (p : BankId) (k : RgnIdx) (s : State) : Host.Outcome State Fault Refusal :=
  s.commandEffect do
    let no ← needOffset (s.bank p).noff
    return s.setRgn k (sliceFrom p (s.bank p) no)

end Sys2Proof.Machine
end

