-- ==== Sys2Proof/Machine/RegisterOps.lean ====
section
/-! DEFINITION. Register set-up and address arithmetic: `LI`, `LIH`, `ADD`, `SUB` (rules R90 to R94). -/

namespace Sys2Proof.Machine

/-- `LI rd, imm16` (rule R90). -/
def execLi (rd : Reg) (imm16 : Half) (s : State) : Host.Outcome State Fault Refusal :=
  s.commandValue rd (.ok (imm16.setWidth 32))

/-- `LIH rd, imm16` (rule R91). -/
def execLih (rd : Reg) (imm16 : Half) (s : State) : Host.Outcome State Fault Refusal :=
  s.commandValue rd (.ok (imm16 ++ s.regHalf rd))

/-- `ADD rd, rs1, rs2` (rule R92): modulo 2^32. -/
def execAdd (rd rs1 rs2 : Reg) (s : State) : Host.Outcome State Fault Refusal :=
  s.commandValue rd (.ok (s.reg rs1 + s.reg rs2))

/-- `SUB rd, rs1, rs2` (rule R93): modulo 2^32. -/
def execSub (rd rs1 rs2 : Reg) (s : State) : Host.Outcome State Fault Refusal :=
  s.commandValue rd (.ok (s.reg rs1 - s.reg rs2))

end Sys2Proof.Machine
end

