-- ==== Sys2Proof/Machine/System.lean ====
section
/-! DEFINITION. The system command `SYS.RDCSR` and the CSR map (rules R26 to R33, R210). -/

namespace Sys2Proof.Machine

/-- How an offset reads through `SYS.RDCSR`: `NONE` is 0xFFFFFFFF (rule R30). -/
def offsetCsr : Option Nat → Word
  | none => 0xFFFFFFFF
  | some o => BitVec.ofNat 32 o

/-- The read value of a CSR number (rule R33); `none` for the reserved numbers 5, 6 and 7. -/
def State.csr (s : State) (n : BitVec 4) : Option Word :=
  match n.toNat with
  | 0 => some s.fsr
  | 1 => some s.fcmd
  | 2 => some (BitVec.ofNat 32 s.cfg.pktCap)
  | 3 => some (BitVec.ofNat 32 s.cfg.headroom)
  | 4 => some s.tags
  | 8 => some (BitVec.ofNat 32 s.bank0.plen)
  | 9 => some (offsetCsr s.bank0.noff)
  | 10 => some (offsetCsr s.bank0.toff)
  | 11 => some (offsetCsr s.bank0.poff)
  | 12 => some (BitVec.ofNat 32 s.bank1.plen)
  | 13 => some (offsetCsr s.bank1.noff)
  | 14 => some (offsetCsr s.bank1.toff)
  | 15 => some (offsetCsr s.bank1.poff)
  | _ => none

/-- `SYS.RDCSR rd, csr` (rule R210): the one command that executes in the faulted state too (rule R227). A reserved CSR
number makes the word illegal (rules R33, R80). -/
def execSysRdcsr (rd : Reg) (csr : BitVec 4) (s : State) : Host.Outcome State Fault Refusal :=
  match s.csr csr with
  | some v => .next ((s.setReg rd v).reply .stOk v)
  | none => .next s.illegalWord

end Sys2Proof.Machine
end

