-- ==== Sys2Proof/Machine/Udp.lean ====
section
/-! DEFINITION. The UDP header parser: the `UDP.*` commands (rules R190 to R201). -/

namespace Sys2Proof.Machine

/-- `UDP.PARSE loc` (rule R192). -/
def execUdpParse (p : BankId) (s : State) : Host.Outcome State Fault Refusal :=
  s.commandEffect do
    let v ← s.hv .udp (.bank p)
    let len := (s.fld16 v 4).toNat
    stopIf (len < Config.udpHdr ∨ len > v.avail) .notRep
    return s.setBank p { s.bank p with poff := some (v.off + Config.udpHdr) }

/-- The common part of the field reads: decoded by tag, never a fault (rule R193). -/
def State.udpField (s : State) (rd : Reg) (loc : Loc) (i : Nat) : Host.Outcome State Fault Refusal :=
  s.commandValue rd do
    let v ← s.hv .udp loc
    return (s.fld16 v i).setWidth 32

/-- `UDP.SPORT rd, loc` (rule R193). -/
def execUdpSport (rd : Reg) (loc : Loc) (s : State) : Host.Outcome State Fault Refusal :=
  s.udpField rd loc 0

/-- `UDP.DPORT rd, loc` (rule R194). -/
def execUdpDport (rd : Reg) (loc : Loc) (s : State) : Host.Outcome State Fault Refusal :=
  s.udpField rd loc 2

/-- `UDP.LEN rd, loc` (rule R195). -/
def execUdpLen (rd : Reg) (loc : Loc) (s : State) : Host.Outcome State Fault Refusal :=
  s.udpField rd loc 4

/-- `UDP.CKFLD rd, loc` (rule R196). -/
def execUdpCkFld (rd : Reg) (loc : Loc) (s : State) : Host.Outcome State Fault Refusal :=
  s.udpField rd loc 6

/-- The four fields of a UDP header reversed (rule R197). -/
def State.udpReverseFields (s : State) (v : View) : State :=
  (((s.reverseAt v 0 2).reverseAt v 2 2).reverseAt v 4 2).reverseAt v 6 2

/-- `UDP.BSWAP loc` (rule R197). -/
def execUdpBswap (loc : Loc) (s : State) : Host.Outcome State Fault Refusal :=
  s.commandEffect do
    let v ← s.hv .udp loc
    return (s.udpReverseFields v).setTrnOrder loc v.ord.toggle

/-- The fresh header made from the image `I[0 .. 8)` (rule R198). -/
def udpReplyHeader (img : Nat → Byte) : Vector Byte 8 :=
  #v[img 2, img 3, img 0, img 1, img 4, img 5, 0, 0]

/-- `UDP.REPLY loc` (rule R198): the whole image is read before `HUDP` is written. -/
def execUdpReply (loc : Loc) (s : State) : Host.Outcome State Fault Refusal :=
  s.commandEffect do
    let v ← s.hv .udp loc
    return { s with hudp := udpReplyHeader (s.byteAt v), hudpOrd := v.ord }

/-- The checks `UDP.CSUM` and `UDP.SETCSUM` share, in order (rule R200): the view, the length field and the segment. -/
def State.udpSummed (s : State) (loc : Loc) : Except Abort (View × Half × List Byte) := do
  let v ← s.hv .udp loc
  let len := s.fld16 v 4
  stopIf (len.toNat < Config.udpHdr) .notRep
  stopIf (v.ord ≠ .wire) (.raise .order)
  stopIf (len.toNat > v.avail) (.raise .bounds)
  return (v, len, s.bytesAt v 0 len.toNat)

/-- The checksum of a segment with the addresses in two registers, seeded with the stored field (rules R199, R200). -/
def State.udpSegmentCsum (s : State) (rs1 rs2 : Reg) (v : View) (len : Half) (seg : List Byte) : Half :=
  udpCsum s.cfg.udpZeroAsOnes seg (s.reg rs1) (s.reg rs2) len (s.be16At v 6)

/-- `UDP.CSUM rd, rs1, rs2, loc` (rule R200). -/
def execUdpCsum (rd rs1 rs2 : Reg) (loc : Loc) (s : State) : Host.Outcome State Fault Refusal :=
  s.commandValue rd do
    let (v, len, seg) ← s.udpSummed loc
    return (s.udpSegmentCsum rs1 rs2 v len seg).setWidth 32

/-- `UDP.SETCSUM rs1, rs2, loc` (rule R201). -/
def execUdpSetCsum (rs1 rs2 : Reg) (loc : Loc) (s : State) : Host.Outcome State Fault Refusal :=
  s.commandEffect do
    let (v, len, seg) ← s.udpSummed loc
    return s.putBytes v 6 (bytesBE16 (s.udpSegmentCsum rs1 rs2 v len seg))

end Sys2Proof.Machine
end

