-- ==== Sys2Proof/Machine/Dispatch.lean ====
section
/-! DEFINITION. The meaning of every command: one arm per constructor, in the order of the opcode table (rule R78). -/

namespace Sys2Proof.Machine

/-- The meaning of a command in a state. -/
def exec (i : Instr) (s : State) : Host.Outcome State Fault Refusal :=
  match i with
  | .li rd imm16 => Sys2Proof.Machine.execLi rd imm16 s
  | .lih rd imm16 => Sys2Proof.Machine.execLih rd imm16 s
  | .add rd rs1 rs2 => Sys2Proof.Machine.execAdd rd rs1 rs2 s
  | .sub rd rs1 rs2 => Sys2Proof.Machine.execSub rd rs1 rs2 s
  | .csfold rd rs1 rs2 => Sys2Proof.Machine.execCsfold rd rs1 rs2 s
  | .csum rd rs3 k => Sys2Proof.Machine.execCsum rd rs3 k s
  | .csum2 rd rs3 k j => Sys2Proof.Machine.execCsum2 rd rs3 k j s
  | .rgnSet rs1 rs2 loc k => Sys2Proof.Machine.execRgnSet rs1 rs2 loc k s
  | .pktNew rs1 loc => Sys2Proof.Machine.execPktNew rs1 loc s
  | .pktNewReply loc k => Sys2Proof.Machine.execPktNewReply loc k s
  | .pktWr8 rs1 rs2 loc => Sys2Proof.Machine.execPktWr8 rs1 rs2 loc s
  | .pktRd8 rd rs1 loc => Sys2Proof.Machine.execPktRd8 rd rs1 loc s
  | .pktFillI loc => Sys2Proof.Machine.execPktFillI loc s
  | .pktFillU loc => Sys2Proof.Machine.execPktFillU loc s
  | .pktFillN loc => Sys2Proof.Machine.execPktFillN loc s
  | .pktGetOff rd loc j => Sys2Proof.Machine.execPktGetOff rd loc j s
  | .pktTlen rd loc => Sys2Proof.Machine.execPktTlen rd loc s
  | .pktPayload loc k => Sys2Proof.Machine.execPktPayload loc k s
  | .pktWhole loc k => Sys2Proof.Machine.execPktWhole loc k s
  | .ipParse loc => Sys2Proof.Machine.execIpParse loc s
  | .ipVersion rd loc => Sys2Proof.Machine.execIpVersion rd loc s
  | .ipHlen rd loc => Sys2Proof.Machine.execIpHlen rd loc s
  | .ipDscp rd loc => Sys2Proof.Machine.execIpDscp rd loc s
  | .ipTotLen rd loc => Sys2Proof.Machine.execIpTotLen rd loc s
  | .ipId rd loc => Sys2Proof.Machine.execIpId rd loc s
  | .ipFlags rd loc => Sys2Proof.Machine.execIpFlags rd loc s
  | .ipFragOff rd loc => Sys2Proof.Machine.execIpFragOff rd loc s
  | .ipRsv rd loc => Sys2Proof.Machine.execIpRsv rd loc s
  | .ipDf rd loc => Sys2Proof.Machine.execIpDf rd loc s
  | .ipMf rd loc => Sys2Proof.Machine.execIpMf rd loc s
  | .ipTtl rd loc => Sys2Proof.Machine.execIpTtl rd loc s
  | .ipProto rd loc => Sys2Proof.Machine.execIpProto rd loc s
  | .ipCkFld rd loc => Sys2Proof.Machine.execIpCkFld rd loc s
  | .ipSrc rd loc => Sys2Proof.Machine.execIpSrc rd loc s
  | .ipDst rd loc => Sys2Proof.Machine.execIpDst rd loc s
  | .ipSetTotLen rs1 loc => Sys2Proof.Machine.execIpSetTotLen rs1 loc s
  | .ipBswap loc => Sys2Proof.Machine.execIpBswap loc s
  | .ipCsum rd loc => Sys2Proof.Machine.execIpCsum rd loc s
  | .ipSetCsum loc => Sys2Proof.Machine.execIpSetCsum loc s
  | .ipVerify rd loc => Sys2Proof.Machine.execIpVerify rd loc s
  | .ipReply loc => Sys2Proof.Machine.execIpReply loc s
  | .icmpParse loc => Sys2Proof.Machine.execIcmpParse loc s
  | .icmpType rd loc => Sys2Proof.Machine.execIcmpType rd loc s
  | .icmpCode rd loc => Sys2Proof.Machine.execIcmpCode rd loc s
  | .icmpCkFld rd loc => Sys2Proof.Machine.execIcmpCkFld rd loc s
  | .icmpBuild rs1 rs2 => Sys2Proof.Machine.execIcmpBuild rs1 rs2 s
  | .icmpCsum rd rs1 loc => Sys2Proof.Machine.execIcmpCsum rd rs1 loc s
  | .icmpSetCsum rs1 loc => Sys2Proof.Machine.execIcmpSetCsum rs1 loc s
  | .udpParse loc => Sys2Proof.Machine.execUdpParse loc s
  | .udpSport rd loc => Sys2Proof.Machine.execUdpSport rd loc s
  | .udpDport rd loc => Sys2Proof.Machine.execUdpDport rd loc s
  | .udpLen rd loc => Sys2Proof.Machine.execUdpLen rd loc s
  | .udpCkFld rd loc => Sys2Proof.Machine.execUdpCkFld rd loc s
  | .udpBswap loc => Sys2Proof.Machine.execUdpBswap loc s
  | .udpReply loc => Sys2Proof.Machine.execUdpReply loc s
  | .udpCsum rd rs1 rs2 loc => Sys2Proof.Machine.execUdpCsum rd rs1 rs2 loc s
  | .udpSetCsum rs1 rs2 loc => Sys2Proof.Machine.execUdpSetCsum rs1 rs2 loc s
  | .sysRdcsr rd csr => Sys2Proof.Machine.execSysRdcsr rd csr s

end Sys2Proof.Machine
end

