-- ==== Sys2Proof/Machine/Port.lean ====
section
/-! DEFINITION. The command port: what one action of the host does to the block (rules R13, R250, R264). -/

namespace Sys2Proof.Machine

/-- The command word `w` is on the command port and the host's further actions are `rest` (log 1, log 2). -/
def State.present (s : State) (w : Word) (rest : List HostAction) : State :=
  { s with cmd := w, host := rest }

/-- Executing a command word (rules R13, R70, R80): its command's meaning, or the illegal-word fault. -/
def runWord (w : Word) (s : State) : Host.Outcome State Fault Refusal :=
  match decode w with
  | .ok i => exec i s
  | .error _ => .next s.illegalWord

/-- The next action of the host (rules R11, R264): it issues a word, or resets the block; without an action nothing
happens (log 6). -/
def hostStep (s : State) : Host.Outcome State Fault Refusal :=
  match s.host with
  | [] => .next s
  | .issue w :: rest => runWord w (s.present w rest)
  | .reset :: rest => .next { s with host := rest }.resetBlock

/-- The action that issues a table row's bits `w` of width `nbits` (32 for every row). -/
def issueBits (nbits w : Nat) : HostAction := .issue (BitVec.ofNat 32 (w % 2 ^ nbits))

end Sys2Proof.Machine
end

