-- ==== Sys2Proof/Machine/Step.lean ====
section
/-! DEFINITION. One step of the machine. -/

namespace Sys2Proof.Machine

/-- One step: the next action of the host (rules R11, R13, R264). -/
def step (s : State) : Host.Outcome State Fault Refusal := hostStep s

/-- The state in which the host issues the word `w` next (its low `nbits` bits); everything else as before (log 6). -/
def State.withFetchWord (s : State) (nbits w : Nat) : State :=
  { s with host := issueBits nbits w :: s.host }

end Sys2Proof.Machine
end

