-- ==== Sys2Proof/Safety.lean ====
section
/-! DEFINITION. What counts as a safe run and a legal state, in the terms the statements use: the invariants of rules R26,
R27 and R31, the canonical form of memory, and what a command may read or write by its form alone. -/

namespace Sys2Proof.Machine

/-! ### Invariants -/

/-- Two offsets are in order when both are set (rule R31). -/
def inOrder : Option Nat → Option Nat → Bool
  | some a, some b => a ≤ b
  | _, _ => true

/-- An offset, when set, lies within the packet (rule R31). -/
def within (o : Option Nat) (plen : Nat) : Bool := o.all fun a => a ≤ plen

/-- Rule R31 for one bank. -/
abbrev Bank.Ok (cap : Nat) (b : Bank) : Prop :=
  b.plen ≤ cap ∧ within b.noff b.plen ∧ within b.toff b.plen ∧ within b.poff b.plen ∧
    inOrder b.noff b.toff ∧ inOrder b.toff b.poff ∧ inOrder b.noff b.poff

/-- Rule R31 for both banks. -/
abbrev State.PacketsOk (s : State) : Prop := s.bank0.Ok s.cfg.pktCap ∧ s.bank1.Ok s.cfg.pktCap

/-- Rules R26 and R27: the values `FSR` can hold, and `FCMD` = 0 while no fault is recorded. -/
abbrev State.FaultRegsOk (s : State) : Prop :=
  (s.fsr = 0x00 ∨ s.fsr = 0x11 ∨ s.fsr = 0x21 ∨ s.fsr = 0x31) ∧ (s.faulted = false → s.fcmd = 0)

/-- Every listed byte of a memory is inside the bank (rule R37). -/
abbrev Memory.inBank (cap : Nat) (m : Memory) : Prop := ∀ c ∈ m, c.1 < cap

/-- Both memories have the canonical form and lie inside their banks. -/
abbrev State.MemoryOk (s : State) : Prop :=
  s.bank0.mem.wf ∧ s.bank1.mem.wf ∧ s.bank0.mem.inBank s.cfg.pktCap ∧ s.bank1.mem.inBank s.cfg.pktCap

/-- The legal states. -/
abbrev State.Inv (s : State) : Prop := s.cfg.Ok ∧ s.PacketsOk ∧ s.FaultRegsOk ∧ s.MemoryOk

/-! ### Responses -/

/-- The newest response. -/
def State.lastResponse (s : State) : Option Response := s.responses.head?

/-- The statuses of a refusal that answers the value 0 (rules R221, R222). -/
def Status.isPacketRefusal : Status → Bool
  | .stNone | .stNotRep | .stNoRoom => true
  | .stOk | .stFault | .stFaulted => false

/-- `t` is `s` with a new response and nothing else changed (rule R222). -/
abbrev State.OnlyResponds (s t : State) (r : Response) : Prop := t = { s with responses := r :: s.responses }

/-- `t` is `s` after a fault with cause `c`: `FSR`, `FCMD` and the response, nothing else (rule R226). -/
abbrev State.OnlyFaults (s t : State) (c : Cause) : Prop :=
  t = { s with fsr := c.fsr, fcmd := s.cmd, responses := { status := .stFault, value := c.fsr } :: s.responses }

/-! ### How a completed command leaves the state -/

/-- `t` is `s` after `respond(v)` of a command with destination `rd` (rules R10, R21, R22, R86): the response, the
destination register unless it is `x0`, and nothing else. -/
abbrev State.Answered (s t : State) (rd : Reg) (v : Word) : Prop :=
  t = { s with xs := t.xs, responses := { status := .stOk, value := v } :: s.responses } ∧
    ∀ r, t.reg r = if r = rd ∧ r ≠ 0 then v else s.reg r

/-- `t` is `s` with, at most, other bytes in the banks and the staging registers, and with the response `(ST_OK, 0)`. -/
abbrev State.OnlyStores (s t : State) : Prop :=
  t = { s with bank0 := { s.bank0 with mem := t.bank0.mem }, bank1 := { s.bank1 with mem := t.bank1.mem },
               hip := t.hip, hicmp := t.hicmp, hudp := t.hudp,
               responses := { status := .stOk, value := 0 } :: s.responses }

/-- `t` is `s` with bank `p` replaced and the response `(ST_OK, 0)`; nothing else differs. -/
abbrev State.OnlyBank (s t : State) (p : BankId) : Prop :=
  t = { s.setBank p (t.bank p) with responses := { status := .stOk, value := 0 } :: s.responses }

/-- `t` is `s` with region descriptor `k` set to `r` and the response `(ST_OK, 0)`; nothing else differs. -/
abbrev State.OnlyRegion (s t : State) (k : RgnIdx) (r : Region) : Prop :=
  t = { s with rgns := t.rgns, responses := { status := .stOk, value := 0 } :: s.responses } ∧
    ∀ j, t.rgn j = if j = k then r else s.rgn j

/-- The region descriptor `k` fits its bank (rule R109): a sum of natural numbers. -/
abbrev State.RegionFits (s : State) (k : RgnIdx) : Prop :=
  (s.rgn k).base.toNat + (s.rgn k).len.toNat ≤ (s.bank (s.rgn k).bank).plen

/-- The bytes a region descriptor names (rule R109). -/
def State.regionBytes (s : State) (k : RgnIdx) : List Byte :=
  (List.range (s.rgn k).len.toNat).map fun i => (s.bank (s.rgn k).bank).mem.read ((s.rgn k).base.toNat + i)

/-- The first `n` bytes of a header image, `H[0 .. n)` (rule R54). -/
def State.imageBytes (s : State) (v : View) (n : Nat) : List Byte := (List.range n).map (s.byteAt v)

/-- `B` with the two bytes at index `i` replaced by zero (rule R107, law 8). -/
def zeroWordAt (bs : List Byte) (i : Nat) : List Byte := (bs.set i 0).set (i + 1) 0

/-- `B` with the two bytes at index `i` replaced by `bytesBE16(v)` (rule R107, law 9). -/
def storeWordAt (bs : List Byte) (i : Nat) (v : Half) : List Byte :=
  (bs.set i (v.extractLsb' 8 8)).set (i + 1) (v.extractLsb' 0 8)

/-- The sum of the big-endian words of a byte sequence, as a natural number (rules R101, R107). -/
def wordSum (bs : List Byte) : Nat := ((words bs).map BitVec.toNat).sum

/-- Where each byte of an IPv4 header image comes from when its multi-byte fields are reversed (rule R160). -/
def ipSwapIndex : Nat → Nat
  | 2 => 3 | 3 => 2
  | 4 => 5 | 5 => 4
  | 6 => 7 | 7 => 6
  | 10 => 11 | 11 => 10
  | 12 => 15 | 13 => 14 | 14 => 13 | 15 => 12
  | 16 => 19 | 17 => 18 | 18 => 17 | 19 => 16
  | i => i

/-- The same for a UDP header image (rule R197). -/
def udpSwapIndex : Nat → Nat
  | 0 => 1 | 1 => 0
  | 2 => 3 | 3 => 2
  | 4 => 5 | 5 => 4
  | 6 => 7 | 7 => 6
  | i => i

end Sys2Proof.Machine

namespace Sys2Proof

/-! ### Which header image a command works on -/

/-- The header image a command resolves first (rule R54): its kind and its location. All `IP.*`, `ICMP.*` and `UDP.*`
commands except `ICMP.BUILD` (rule R223). -/
def Instr.header? : Instr → Option (Machine.Kind × Loc)
  | .ipParse p => some (.ip, .bank p)
  | .ipVersion _ loc => some (.ip, loc)
  | .ipHlen _ loc => some (.ip, loc)
  | .ipDscp _ loc => some (.ip, loc)
  | .ipTotLen _ loc => some (.ip, loc)
  | .ipId _ loc => some (.ip, loc)
  | .ipFlags _ loc => some (.ip, loc)
  | .ipFragOff _ loc => some (.ip, loc)
  | .ipRsv _ loc => some (.ip, loc)
  | .ipDf _ loc => some (.ip, loc)
  | .ipMf _ loc => some (.ip, loc)
  | .ipTtl _ loc => some (.ip, loc)
  | .ipProto _ loc => some (.ip, loc)
  | .ipCkFld _ loc => some (.ip, loc)
  | .ipSrc _ loc => some (.ip, loc)
  | .ipDst _ loc => some (.ip, loc)
  | .ipSetTotLen _ loc => some (.ip, loc)
  | .ipBswap loc => some (.ip, loc)
  | .ipCsum _ loc => some (.ip, loc)
  | .ipSetCsum loc => some (.ip, loc)
  | .ipVerify _ loc => some (.ip, loc)
  | .ipReply loc => some (.ip, loc)
  | .icmpParse p => some (.icmp, .bank p)
  | .icmpType _ loc => some (.icmp, loc)
  | .icmpCode _ loc => some (.icmp, loc)
  | .icmpCkFld _ loc => some (.icmp, loc)
  | .icmpCsum _ _ loc => some (.icmp, loc)
  | .icmpSetCsum _ loc => some (.icmp, loc)
  | .udpParse p => some (.udp, .bank p)
  | .udpSport _ loc => some (.udp, loc)
  | .udpDport _ loc => some (.udp, loc)
  | .udpLen _ loc => some (.udp, loc)
  | .udpCkFld _ loc => some (.udp, loc)
  | .udpBswap loc => some (.udp, loc)
  | .udpReply loc => some (.udp, loc)
  | .udpCsum _ _ _ loc => some (.udp, loc)
  | .udpSetCsum _ _ loc => some (.udp, loc)
  | .li .. | .lih .. | .add .. | .sub .. | .csfold .. | .csum .. | .csum2 .. | .rgnSet .. | .pktNew .. |
    .pktNewReply .. | .pktWr8 .. | .pktRd8 .. | .pktFillI .. | .pktFillU .. | .pktFillN .. | .pktGetOff .. |
    .pktTlen .. | .pktPayload .. | .pktWhole .. | .icmpBuild .. | .sysRdcsr .. => none

/-! ### What a command's form says it may write -/

/-- The destination register of a command: its `rd` field (rules R22, R78). -/
def Instr.dest : Instr → Option Reg
  | .li rd _ => some rd
  | .lih rd _ => some rd
  | .add rd _ _ => some rd
  | .sub rd _ _ => some rd
  | .csfold rd _ _ => some rd
  | .csum rd _ _ => some rd
  | .csum2 rd _ _ _ => some rd
  | .pktRd8 rd _ _ => some rd
  | .pktGetOff rd _ _ => some rd
  | .pktTlen rd _ => some rd
  | .ipVersion rd _ => some rd
  | .ipHlen rd _ => some rd
  | .ipDscp rd _ => some rd
  | .ipTotLen rd _ => some rd
  | .ipId rd _ => some rd
  | .ipFlags rd _ => some rd
  | .ipFragOff rd _ => some rd
  | .ipRsv rd _ => some rd
  | .ipDf rd _ => some rd
  | .ipMf rd _ => some rd
  | .ipTtl rd _ => some rd
  | .ipProto rd _ => some rd
  | .ipCkFld rd _ => some rd
  | .ipSrc rd _ => some rd
  | .ipDst rd _ => some rd
  | .ipCsum rd _ => some rd
  | .ipVerify rd _ => some rd
  | .icmpType rd _ => some rd
  | .icmpCode rd _ => some rd
  | .icmpCkFld rd _ => some rd
  | .icmpCsum rd _ _ => some rd
  | .udpSport rd _ => some rd
  | .udpDport rd _ => some rd
  | .udpLen rd _ => some rd
  | .udpCkFld rd _ => some rd
  | .udpCsum rd _ _ _ => some rd
  | .sysRdcsr rd _ => some rd
  | .rgnSet .. | .pktNew .. | .pktNewReply .. | .pktWr8 .. | .pktFillI .. | .pktFillU .. | .pktFillN .. |
    .pktPayload .. | .pktWhole .. | .ipParse .. | .ipSetTotLen .. | .ipBswap .. | .ipSetCsum .. | .ipReply .. |
    .icmpParse .. | .icmpBuild .. | .icmpSetCsum .. | .udpParse .. | .udpBswap .. | .udpReply .. |
    .udpSetCsum .. => none

/-- The bank of a location. -/
def Loc.bank? : Loc → Option BankId
  | .bank p => some p
  | .stage => none

/-- The bank a command's `loc` field names (rule R76). -/
def Instr.bank? : Instr → Option BankId
  | .rgnSet _ _ loc _ => some loc
  | .pktNew _ loc => some loc
  | .pktNewReply loc _ => some loc
  | .pktWr8 _ _ loc => some loc
  | .pktRd8 _ _ loc => some loc
  | .pktFillI loc => some loc
  | .pktFillU loc => some loc
  | .pktFillN loc => some loc
  | .pktGetOff _ loc _ => some loc
  | .pktTlen _ loc => some loc
  | .pktPayload loc _ => some loc
  | .pktWhole loc _ => some loc
  | .ipParse loc => some loc
  | .ipVersion _ loc => Loc.bank? loc
  | .ipHlen _ loc => Loc.bank? loc
  | .ipDscp _ loc => Loc.bank? loc
  | .ipTotLen _ loc => Loc.bank? loc
  | .ipId _ loc => Loc.bank? loc
  | .ipFlags _ loc => Loc.bank? loc
  | .ipFragOff _ loc => Loc.bank? loc
  | .ipRsv _ loc => Loc.bank? loc
  | .ipDf _ loc => Loc.bank? loc
  | .ipMf _ loc => Loc.bank? loc
  | .ipTtl _ loc => Loc.bank? loc
  | .ipProto _ loc => Loc.bank? loc
  | .ipCkFld _ loc => Loc.bank? loc
  | .ipSrc _ loc => Loc.bank? loc
  | .ipDst _ loc => Loc.bank? loc
  | .ipSetTotLen _ loc => Loc.bank? loc
  | .ipBswap loc => Loc.bank? loc
  | .ipCsum _ loc => Loc.bank? loc
  | .ipSetCsum loc => Loc.bank? loc
  | .ipVerify _ loc => Loc.bank? loc
  | .ipReply loc => Loc.bank? loc
  | .icmpParse loc => some loc
  | .icmpType _ loc => Loc.bank? loc
  | .icmpCode _ loc => Loc.bank? loc
  | .icmpCkFld _ loc => Loc.bank? loc
  | .icmpCsum _ _ loc => Loc.bank? loc
  | .icmpSetCsum _ loc => Loc.bank? loc
  | .udpParse loc => some loc
  | .udpSport _ loc => Loc.bank? loc
  | .udpDport _ loc => Loc.bank? loc
  | .udpLen _ loc => Loc.bank? loc
  | .udpCkFld _ loc => Loc.bank? loc
  | .udpBswap loc => Loc.bank? loc
  | .udpReply loc => Loc.bank? loc
  | .udpCsum _ _ _ loc => Loc.bank? loc
  | .udpSetCsum _ _ loc => Loc.bank? loc
  | .li .. | .lih .. | .add .. | .sub .. | .csfold .. | .csum .. | .csum2 .. | .icmpBuild .. | .sysRdcsr .. => none

end Sys2Proof

namespace Sys2Proof.Machine

/-- A run of bytes of a bank: from `lo`, `n` bytes. -/
structure Span where
  bank : BankId
  lo : Nat
  n : Nat
  deriving DecidableEq, Repr

/-- The address `a` of bank `p` lies in the span. -/
def Span.covers (sp : Span) (p : BankId) (a : Nat) : Bool := sp.bank = p ∧ sp.lo ≤ a ∧ a < sp.lo + sp.n

/-- The bytes of a bank that a header command stores to: the given (index, count) runs of its image; none when the image is
a staging register or there is no view. -/
def headerSpans (s : State) (kind : Kind) (loc : Loc) (runs : List (Nat × Nat)) : List Span :=
  match s.hv kind loc, loc with
  | .ok v, .bank p => runs.map fun r => { bank := p, lo := v.off + r.1, n := r.2 }
  | _, _ => []

/-- The bytes of a bank that a fill of `n` bytes stores to. -/
def fillSpans (p : BankId) (target : Except Abort Nat) (n : Nat) : List Span :=
  match target with
  | .ok t => [{ bank := p, lo := t, n := n }]
  | .error _ => []

/-- Every byte of the banks a command may store to in the state it runs in (rules R121 to R127, R159 to R162, R188, R197,
R201). -/
def storeSpans (i : Instr) (s : State) : List Span :=
  match i with
  | .pktNew rs1 p => [{ bank := p, lo := 0, n := (s.reg rs1).toNat }]
  | .pktNewReply p k => [{ bank := p, lo := 0, n := s.cfg.headroom + (s.rgn k).len.toNat }]
  | .pktWr8 rs1 _ p => [{ bank := p, lo := (s.reg rs1).toNat, n := 1 }]
  | .pktFillI p => fillSpans p (fillTransportAt (s.bank p) Config.icmpHdr) Config.icmpHdr
  | .pktFillU p => fillSpans p (fillTransportAt (s.bank p) Config.udpHdr) Config.udpHdr
  | .pktFillN p => fillSpans p (fillNetworkAt (s.bank p)) Config.ipHdr
  | .ipSetTotLen _ loc => headerSpans s .ip loc [(2, 2)]
  | .ipBswap loc => headerSpans s .ip loc [(2, 6), (10, 10)]
  | .ipSetCsum loc => headerSpans s .ip loc [(10, 2)]
  | .icmpSetCsum _ loc => headerSpans s .icmp loc [(2, 2)]
  | .udpBswap loc => headerSpans s .udp loc [(0, 8)]
  | .udpSetCsum _ _ loc => headerSpans s .udp loc [(6, 2)]
  | .li .. | .lih .. | .add .. | .sub .. | .csfold .. | .csum .. | .csum2 .. | .rgnSet .. | .pktRd8 .. |
    .pktGetOff .. | .pktTlen .. | .pktPayload .. | .pktWhole .. | .ipParse .. | .ipVersion .. | .ipHlen .. |
    .ipDscp .. | .ipTotLen .. | .ipId .. | .ipFlags .. | .ipFragOff .. | .ipRsv .. | .ipDf .. | .ipMf .. |
    .ipTtl .. | .ipProto .. | .ipCkFld .. | .ipSrc .. | .ipDst .. | .ipCsum .. | .ipVerify .. | .ipReply .. |
    .icmpParse .. | .icmpType .. | .icmpCode .. | .icmpCkFld .. | .icmpBuild .. | .icmpCsum .. | .udpParse .. |
    .udpSport .. | .udpDport .. | .udpLen .. | .udpCkFld .. | .udpReply .. | .udpCsum .. | .sysRdcsr .. => []

/-! ### What the host can see (rules R37, R66, R250) -/

/-- Two banks agree on everything but the bytes at and above the packet length. -/
abbrev Bank.SameVisible (b c : Bank) : Prop :=
  { b with mem := [] } = { c with mem := [] } ∧ ∀ a < b.plen, b.mem.read a = c.mem.read a

/-- Two states agree on everything but bank bytes at and above the packet lengths. -/
abbrev State.SameVisible (s t : State) : Prop :=
  { s with bank0 := Bank.reset, bank1 := Bank.reset } = { t with bank0 := Bank.reset, bank1 := Bank.reset } ∧
    s.bank0.SameVisible t.bank0 ∧ s.bank1.SameVisible t.bank1

end Sys2Proof.Machine
end

