-- ==== Sys2Proof/Certificates/Slice0/Obligations.lean ====
section
/-! DEFINITION. The statements for the provers, from the numbered rules of spec/. In every statement about `exec` the state
is any state, also one that no run reaches, unless an invariant is a premise. -/

open Sys2Proof Sys2Proof.Machine

/-! ### Encoding (30_encoding) -/

/-- Rules R70 to R78: the word of a command decodes to that command; a `SYS.RDCSR` term with a reserved CSR number has no
legal word. -/
def Obligations.DecodeOfEncode : Prop :=
  ∀ i : Instr,
    (i.wellFormed = true → decode (encode i) = .ok i) ∧
    (i.wellFormed = false → decode (encode i) = .error .reservedCsr)

/-- Rules R70, R75: every legal word is the word of exactly the command it decodes to; no bit of it is dropped. -/
def Obligations.EncodeOfDecode : Prop :=
  ∀ (w : Word) (i : Instr), decode w = .ok i → i.wellFormed = true ∧ encode i = w

/-- Rule R78: 58 mnemonics; a word decodes to a command of a row exactly when `w & mask = match` and the
row's constraint holds; no word satisfies two rows; a word of no row is illegal. (The rule's "42 opcode numbers" is a
miscount of its own table, which has 39: log 20.) -/
def Obligations.DecodeAgreesWithOpcodeTable : Prop :=
  opcodeTable.length = 58 ∧ (opcodeTable.map OpcodeRow.mnemonic).Nodup ∧
  ∀ w : Word,
    (∀ r ∈ opcodeTable, r.admits w = true ↔ ∃ i, decode w = .ok i ∧ i.row = r) ∧
    (∀ r ∈ opcodeTable, ∀ q ∈ opcodeTable, r.admits w = true → q.admits w = true → r = q) ∧
    ((∀ r ∈ opcodeTable, r.admits w = false) ↔ legal w = false)

/-- Words written out from the formats and the table of rules R71 to R78, most of them examples of the rules. -/
def Obligations.DecodeReadsWrittenWords : Prop :=
  decode 0x1010001D#32 = .ok (.li 1 0x001D) ∧ decode 0x11200A00#32 = .ok (.lih 2 0x0A00) ∧
  decode 0x12312000#32 = .ok (.add 3 1 2) ∧ decode 0x20312000#32 = .ok (.csfold 3 1 2) ∧
  decode 0x22100004#32 = .ok (.csum2 1 0 0 1) ∧ decode 0x30012000#32 = .ok (.rgnSet 1 2 .p0 0) ∧
  decode 0x32000040#32 = .ok (.pktNewReply .p1 0) ∧ decode 0x38400044#32 = .ok (.pktGetOff 4 .p1 .trn) ∧
  decode 0x42000080#32 = .ok (.ipSetTotLen 0 .stage) ∧ decode 0x4110000E#32 = .ok (.ipDst 1 (.bank .p0)) ∧
  decode 0x53210000#32 = .ok (.icmpCsum 2 1 (.bank .p0)) ∧ decode 0x65012040#32 = .ok (.udpSetCsum 1 2 (.bank .p1)) ∧
  decode 0x70100009#32 = .ok (.sysRdcsr 1 9)

/-- Rule R80: a word is illegal when it matches no row; the words the rule lists are; and what executing one does. -/
def Obligations.IllegalWords : Prop :=
  (∀ w : Word,
    ((∀ r ∈ opcodeTable, r.admits w = false) ↔ legal w = false) ∧
    ((∀ r ∈ opcodeTable, fieldOp w ≠ r.pattern.extractLsb' 24 8) → legal w = false) ∧
    (∀ r ∈ opcodeTable, fieldOp w = r.pattern.extractLsb' 24 8 →
      (∀ q ∈ opcodeTable, q.pattern.extractLsb' 24 8 = fieldOp w → w &&& q.mask ≠ q.pattern) → legal w = false) ∧
    (fieldOp w = 0x41 ∧ fieldFld w = 15 → legal w = false) ∧
    (fieldOp w = 0x51 ∧ 3 ≤ (fieldFld w).toNat → legal w = false) ∧
    (fieldOp w = 0x61 ∧ 4 ≤ (fieldFld w).toNat → legal w = false) ∧
    (fieldOp w = 0x70 ∧ (fieldFld w = 5 ∨ fieldFld w = 6 ∨ fieldFld w = 7) → legal w = false) ∧
    (fieldOp w = 0x38 ∧ fieldJ w = 3 → legal w = false) ∧
    (0x30 ≤ (fieldOp w).toNat ∧ (fieldOp w).toNat ≠ 0x52 ∧ fieldLoc w = 3 → legal w = false) ∧
    ((fieldOp w).extractLsb' 4 4 = 3 ∨ fieldOp w = 0x40 ∨ fieldOp w = 0x50 ∨ fieldOp w = 0x60 →
      fieldLoc w = 2 → legal w = false)) ∧
  legal 0x00000000 = false ∧ legal 0xFFFFFFFF = false ∧
  ∀ (s : State) (w : Word) (rest : List HostAction), legal w = false → s.host = .issue w :: rest →
    ∃ t, step s = .next t ∧
      (s.faulted = false → ({ s with cmd := w, host := rest } : State).OnlyFaults t .illegal) ∧
      (s.faulted = true →
        ({ s with cmd := w, host := rest } : State).OnlyResponds t { status := .stFaulted, value := s.fsr })

/-! ### A step (00_scope, 60_exceptions, 70_reset_and_hazards) -/

/-- Rules R13, R70: when the host issues a word that decodes to a command, the step is that command's meaning in the state
where the word is the one being executed and the host's further actions remain (log 1, log 2). -/
def Obligations.StepRunsDecodedInstruction : Prop :=
  ∀ (s : State) (w : Word) (rest : List HostAction) (i : Instr),
    s.host = .issue w :: rest → decode w = .ok i → step s = exec i { s with cmd := w, host := rest }

/-- Rules R13, R86, R262: every step has a next state (log 10), and a word gives exactly one response. The model's choices:
a step consumes one action of the host (log 1) and puts its word in `cmd` (log 2) and its response in front of the list of
responses (log 3); the parameters never change (log 4); a step with no action pending changes nothing (log 6, with rule
R230); a reset gives no response and keeps those given (log 16). -/
def Obligations.StepIsTotal : Prop :=
  ∀ s : State, ∃ t, step s = .next t ∧ t.cfg = s.cfg ∧
    match s.host with
    | [] => t = s
    | .issue w :: rest => t.host = rest ∧ t.cmd = w ∧ ∃ r, t.responses = r :: s.responses
    | .reset :: rest => t.host = rest ∧ t.responses = s.responses

/-- Rule R250: reset, in any state, gives the state of rule R40. That the parameters, the host's further actions and the
responses given stay is the model's choice; they are not the block's state (logs 1, 3, 4, 16). -/
def Obligations.ResetAction : Prop :=
  ∀ (s : State) (rest : List HostAction), s.host = .reset :: rest →
    ∃ t, step s = .next t ∧ (∀ r, t.reg r = 0) ∧
      (∀ p, (t.bank p).plen = 0 ∧ (t.bank p).noff = none ∧ (t.bank p).toff = none ∧ (t.bank p).poff = none ∧
        (t.bank p).nord = .wire ∧ (t.bank p).tord = .wire) ∧
      (∀ k, t.rgn k = { bank := .p0, base := 0, len := 0 }) ∧
      (∀ st ∈ [Store.hip, .hicmp, .hudp], ∀ a, t.storeByte st a = 0) ∧ t.hipOrd = .wire ∧ t.hudpOrd = .wire ∧
      t.tags = 0 ∧ t.fsr = 0 ∧ t.fcmd = 0 ∧
      t.cfg = s.cfg ∧ t.host = rest ∧ t.responses = s.responses

/-- Rules R40, R23, R28, R29, R5: the state after reset, with the four parameters of the configuration at the values rule R5
takes (`UDP_ZERO_AS_ONES` true, `TTL_FLOOR` `SATURATE`). That State carries these four as its field `cfg` is the model's choice
(log 4); the two values of `TTL_FLOOR` are deduced from U1 of 93_implementation_defined (log 21). -/
def Obligations.ResetState : Prop :=
  (∀ r, State.reset.reg r = 0) ∧
  (∀ p, (State.reset.bank p).plen = 0 ∧ (State.reset.bank p).noff = none ∧ (State.reset.bank p).toff = none ∧
    (State.reset.bank p).poff = none ∧ (State.reset.bank p).nord = .wire ∧ (State.reset.bank p).tord = .wire) ∧
  (∀ k, State.reset.rgn k = { bank := .p0, base := 0, len := 0 }) ∧
  State.reset.hip = Vector.replicate 20 0 ∧ State.reset.hipOrd = .wire ∧
  State.reset.hicmp = Vector.replicate 4 0 ∧
  State.reset.hudp = Vector.replicate 8 0 ∧ State.reset.hudpOrd = .wire ∧
  State.reset.fsr = 0 ∧ State.reset.fcmd = 0 ∧
  State.reset.cfg = { pktCap := 2048, headroom := 128, udpZeroAsOnes := true, ttlFloor := .saturate } ∧
  State.reset.csr 2 = some 2048 ∧ State.reset.csr 3 = some 128 ∧ State.reset.csr 4 = some 0

/-- Rule R227: in the faulted state a legal `SYS.RDCSR` executes and every other word, legal or not, is answered
`(ST_FAULTED, FSR)` and changes nothing. -/
def Obligations.FaultedStateAnswers : Prop :=
  ∀ (s : State) (w : Word) (rest : List HostAction), s.host = .issue w :: rest → s.faulted = true →
    ∃ t, step s = .next t ∧
      (∀ rd csr, decode w = .ok (.sysRdcsr rd csr) →
        ∃ v, s.csr csr = some v ∧ ({ s with cmd := w, host := rest } : State).Answered t rd v) ∧
      ((∀ rd csr, decode w ≠ .ok (.sysRdcsr rd csr)) →
        ({ s with cmd := w, host := rest } : State).OnlyResponds t { status := .stFaulted, value := s.fsr })

/-- Rules R221, R222, R224, R226, R227, R14: the value each cause of a fault leaves in `FSR`, and the outcomes of a command,
with the status, the value and the state change of each.
A completed command writes its destination register, unless it is `x0`, with the value it answers; in the faulted state no
command but `SYS.RDCSR` completes. -/
def Obligations.CommandOutcomes : Prop :=
  Cause.fsr .illegal = 0x11 ∧ Cause.fsr .order = 0x21 ∧ Cause.fsr .bounds = 0x31 ∧
  ∀ (i : Instr) (s : State), i.wellFormed = true →
    ∃ t r, exec i s = .next t ∧ t.responses = r :: s.responses ∧
      t.cfg = s.cfg ∧ t.host = s.host ∧ t.cmd = s.cmd ∧
      match r.status with
      | .stOk => (s.faulted = true → ∃ rd csr, i = .sysRdcsr rd csr) ∧ t.fsr = s.fsr ∧ t.fcmd = s.fcmd ∧
          (∀ rd, i.dest = some rd → s.Answered t rd r.value) ∧ (i.dest = none → r.value = 0 ∧ t.xs = s.xs)
      | .stNone | .stNotRep | .stNoRoom => s.faulted = false ∧ r.value = 0 ∧ s.OnlyResponds t r
      | .stFault => s.faulted = false ∧ ∃ c, r.value = c.fsr ∧ s.OnlyFaults t c
      | .stFaulted => s.faulted = true ∧ r.value = s.fsr ∧ s.OnlyResponds t r

/-! ### Invariants -/

/-- The state after reset meets every invariant: the parameters' bounds (rules R5, R30), the packet descriptors (rule R31),
the fault registers (rules R26, R27), and memories inside their banks (rules R37, R51), with the reset values of rule R40. The
model's choices: State carries the parameters as its field `cfg` (log 4), and a memory has a canonical form in which an
unlisted byte reads as 0 (log 7). -/
def Obligations.ResetMeetsInvariants : Prop :=
  State.reset.Inv

/-- Rule R31: the packet descriptors are in order and in bounds after reset, and every step keeps them so. -/
def Obligations.StepKeepsPacketOffsets : Prop :=
  State.reset.PacketsOk ∧ ∀ s t : State, s.PacketsOk → step s = .next t → t.PacketsOk

/-- Rules R26, R27: every step keeps `FSR` among 0x00, 0x11, 0x21, 0x31, and `FCMD` at 0 while no fault is recorded. -/
def Obligations.StepKeepsFaultRegisters : Prop :=
  ∀ s t : State, s.FaultRegsOk → step s = .next t → t.FaultRegsOk

/-- Rules R37, R51: every step keeps both memories in their canonical form and inside `PKT_CAP`. (That
form, in which an unlisted byte reads as 0, is the model's choice: log 7.) -/
def Obligations.StepKeepsMemoryForm : Prop :=
  ∀ s t : State, s.PacketsOk → s.MemoryOk → step s = .next t → t.MemoryOk

/-- Rules R228, R265: from a fault on, until a reset, a run only reads: `k` steps leave every field but the general
registers as it was, and every response is `(ST_FAULTED, FSR)` or that of a `SYS.RDCSR`. A reset clears `FSR` and `FCMD`.
The model's choices: the host's actions and the responses are lists in State, one action a step (logs 1, 3), the word is kept
in `cmd` (log 2), and a step past the host's last action changes nothing and gives no response (log 6). -/
def Obligations.FaultedUntilReset : Prop :=
  (∀ (s : State) (rest : List HostAction), s.host = .reset :: rest →
    ∃ t, step s = .next t ∧ t.faulted = false ∧ t.fsr = 0 ∧ t.fcmd = 0) ∧
  ∀ (k : Nat) (s : State), s.faulted = true → (∀ a ∈ s.host.take k, a ≠ .reset) →
    ∃ t new, Sys2Proof.core.run k s = .next t ∧
      t = { s with xs := t.xs, cmd := t.cmd, host := s.host.drop k, responses := new ++ s.responses } ∧
      new.length = min k s.host.length ∧
      ∀ r ∈ new, r = { status := .stFaulted, value := s.fsr } ∨ (r.status = .stOk ∧ ∃ n, s.csr n = some r.value)

/-! ### What a command leaves alone -/

/-- Rule R37: a command leaves a bank that its `loc` field does not name as it is. -/
def Obligations.OtherBankUnchanged : Prop :=
  ∀ (i : Instr) (s t : State) (p : BankId), exec i s = .next t → i.bank? ≠ some p → t.bank p = s.bank p

/-- Rules R66, R37, R250: the bytes at and above `PLEN` cannot be observed: two states that differ only there give the same
response and again differ only there, whatever the host does. -/
def Obligations.HiddenBytesUnobservable : Prop :=
  ∀ s s' t t' : State, s.SameVisible s' → step s = .next t → step s' = .next t' → t.SameVisible t'

/-- Rules R21, R22, R58: the register frame. `x0` reads 0. Every register but the destination keeps its value, and the
destination too when it is `x0` or the command does not complete. -/
def Obligations.RegisterFrame : Prop :=
  (∀ s : State, s.reg 0 = 0) ∧
  ∀ (i : Instr) (s t : State) (r : Reg), exec i s = .next t →
    (i.dest ≠ some r ∨ r = 0 ∨ ∀ v, t.lastResponse ≠ some { status := .stOk, value := v }) → t.reg r = s.reg r

/-- Rules R121 to R127, R159 to R162, R188, R197, R201: the memory frame. Every byte of both banks outside the spans the
command stores to reads as before; the spans' addresses are computed as the meanings compute them. That `PKT.NEW` and
`PKT.NEWREPLY` leave the bytes at and above the new length as they were is the model's choice (log 8): rules R37 and R66
leave those bytes unspecified. -/
def Obligations.MemoryFrame : Prop :=
  ∀ (i : Instr) (s t : State), exec i s = .next t → ∀ (p : BankId) (a : Nat),
    (∀ sp ∈ storeSpans i s, sp.covers p a = false) → (t.bank p).mem.read a = (s.bank p).mem.read a

/-- Rule R25, the column "set by": an order tag changes only by the commands named there. -/
def Obligations.OrderTagFrame : Prop :=
  ∀ (i : Instr) (s t : State), exec i s = .next t →
    (∀ p, ((t.bank p).nord ≠ (s.bank p).nord →
        (∃ r, i = .pktNew r p) ∨ (∃ k, i = .pktNewReply p k) ∨ i = .pktFillN p ∨ i = .ipBswap (.bank p)) ∧
      ((t.bank p).tord ≠ (s.bank p).tord →
        (∃ r, i = .pktNew r p) ∨ (∃ k, i = .pktNewReply p k) ∨ i = .pktFillU p ∨ i = .pktFillI p ∨
          i = .udpBswap (.bank p))) ∧
    (t.hipOrd ≠ s.hipOrd → (∃ loc, i = .ipReply loc) ∨ i = .ipBswap .stage) ∧
    (t.hudpOrd ≠ s.hudpOrd → (∃ loc, i = .udpReply loc) ∨ i = .udpBswap .stage)

/-- Rules R30, R132: `PLEN`, `NOFF`, `TOFF` and `POFF` of a bank change only by the commands that rule R132 names. -/
def Obligations.PacketDescriptorFrame : Prop :=
  ∀ (i : Instr) (s t : State) (p : BankId), exec i s = .next t →
    (∀ r, i ≠ .pktNew r p) → (∀ k, i ≠ .pktNewReply p k) →
    (t.bank p).plen = (s.bank p).plen ∧
    (i ≠ .pktFillN p → (t.bank p).noff = (s.bank p).noff) ∧
    (i ≠ .pktFillI p → i ≠ .pktFillU p → i ≠ .ipParse p → (t.bank p).toff = (s.bank p).toff) ∧
    (i ≠ .ipParse p → i ≠ .icmpParse p → i ≠ .udpParse p → (t.bank p).poff = (s.bank p).poff)

/-- Rules R32, R34, R35, R36, the words "written by": a region descriptor or a staging register changes only by the commands
named there. -/
def Obligations.StagingAndRegionFrame : Prop :=
  ∀ (i : Instr) (s t : State), exec i s = .next t →
    (∀ k, t.rgn k ≠ s.rgn k →
      (∃ rs1 rs2 p, i = .rgnSet rs1 rs2 p k) ∨ (∃ p, i = .pktPayload p k) ∨ (∃ p, i = .pktWhole p k)) ∧
    (t.hip ≠ s.hip →
      (∃ loc, i = .ipReply loc) ∨ (∃ r, i = .ipSetTotLen r .stage) ∨ i = .ipBswap .stage ∨ i = .ipSetCsum .stage) ∧
    (t.hicmp ≠ s.hicmp → (∃ r q, i = .icmpBuild r q) ∨ ∃ r, i = .icmpSetCsum r .stage) ∧
    (t.hudp ≠ s.hudp →
      (∃ loc, i = .udpReply loc) ∨ i = .udpBswap .stage ∨ ∃ r q, i = .udpSetCsum r q .stage)

/-! ### Register set-up and address arithmetic (40_register_ops) -/

/-- Rules R90 to R94: `LI`, `LIH`, and `ADD` and `SUB` on natural numbers modulo 2^32. -/
def Obligations.RegisterOperationResults : Prop :=
  ∀ (s : State) (rd rs1 rs2 : Reg) (imm16 : Half), s.faulted = false →
    (∃ t, exec (.li rd imm16) s = .next t ∧ s.Answered t rd (BitVec.ofNat 32 imm16.toNat)) ∧
    (∃ t, exec (.lih rd imm16) s = .next t ∧
      s.Answered t rd (BitVec.ofNat 32 (imm16.toNat * 2 ^ 16 + (s.reg rd).toNat % 2 ^ 16))) ∧
    (∃ t v, exec (.add rd rs1 rs2) s = .next t ∧ s.Answered t rd v ∧
      v.toNat = ((s.reg rs1).toNat + (s.reg rs2).toNat) % 2 ^ 32) ∧
    (∃ t v, exec (.sub rd rs1 rs2) s = .next t ∧ s.Answered t rd v ∧
      v.toNat = ((s.reg rs1).toNat + 2 ^ 32 - (s.reg rs2).toNat) % 2 ^ 32)

/-! ### The checksum engine (41_checksum) -/

/-- Rule R107, laws 1 to 4, with rule R100: `fold` is commutative and associative, 0 only on zeros, and congruent to the sum
modulo 0xFFFF. -/
def Obligations.FoldLaws : Prop :=
  ∀ a v c : Half,
    (fold a v = 0 ↔ a = 0 ∧ v = 0) ∧ fold a v = fold v a ∧ fold a 0 = a ∧
    (1 ≤ v.toNat → fold 0xFFFF v = v) ∧ fold 0xFFFF 0 = 0xFFFF ∧
    (fold a v).toNat % 0xFFFF = (a.toNat + v.toNat) % 0xFFFF ∧
    fold (fold a v) c = fold a (fold v c)

/-- Rule R107, laws 5, 6, 7 and 11: the final accumulator, the empty sequence, seed 0, and the padding of an odd length. -/
def Obligations.ChecksumLaws : Prop :=
  (∀ (bs : List Byte) (acc : Half), acc ≠ 0 →
    let r := (words bs).foldl fold acc
    r ≠ 0 ∧ r.toNat % 0xFFFF = (acc.toNat + wordSum bs) % 0xFFFF) ∧
  (∀ bs : List Byte, (words bs).foldl fold 0 = 0 ↔ ∀ w ∈ words bs, w = 0) ∧
  (∀ seed : Half, csum [] seed = seed) ∧
  (∀ bs : List Byte, csum bs 0 ≠ 0xFFFF ∧ (csum bs 0 = 0 ↔ wordSum bs % 0xFFFF = 0)) ∧
  (∀ (bs : List Byte) (seed : Half), bs.length % 2 = 1 → csum bs seed = csum (bs ++ [0]) seed)

/-- Rule R107, laws 8 and 9: seeding with the stored checksum cancels it, and a stored checksum verifies to 0. -/
def Obligations.SeedCancellation : Prop :=
  ∀ (bs : List Byte) (i : Nat), 2 * i + 1 < bs.length →
    csum bs (be16 (bs.getD (2 * i) 0) (bs.getD (2 * i + 1) 0)) = csum (zeroWordAt bs (2 * i)) 0 ∧
    csum (storeWordAt bs (2 * i) (csum (zeroWordAt bs (2 * i)) 0)) 0 = 0

/-- Rule R107, law 10: a sequence that verifies does not verify after a change of exactly one byte. -/
def Obligations.SingleByteCorruptionDetected : Prop :=
  ∀ (bs : List Byte) (i : Nat) (b : Byte), i < bs.length → b ≠ bs.getD i 0 → csum bs 0 = 0 → csum (bs.set i b) 0 ≠ 0

/-- Rule R104 with R100: `CSFOLD` on bits 15:0, the carry added back. -/
def Obligations.CsfoldResult : Prop :=
  ∀ (s : State) (rd rs1 rs2 : Reg), s.faulted = false →
    ∃ t v, exec (.csfold rd rs1 rs2) s = .next t ∧ s.Answered t rd v ∧
      v.toNat =
        let sum := (s.reg rs1).toNat % 2 ^ 16 + (s.reg rs2).toNat % 2 ^ 16
        if 0xFFFF < sum then sum - 0x10000 + 1 else sum

/-- Rules R105, R106, R109: `CSUM` and `CSUM2` of the bytes of their regions when every region fits. -/
def Obligations.RegionChecksums : Prop :=
  ∀ (s : State) (rd rs3 : Reg) (k j : RgnIdx), s.faulted = false → s.RegionFits k →
    (∃ t, exec (.csum rd rs3 k) s = .next t ∧
      s.Answered t rd ((csum (s.regionBytes k) ((s.reg rs3).extractLsb' 0 16)).setWidth 32)) ∧
    (s.RegionFits j →
      ∃ t, exec (.csum2 rd rs3 k j) s = .next t ∧
        s.Answered t rd ((csum (s.regionBytes k ++ s.regionBytes j) ((s.reg rs3).extractLsb' 0 16)).setWidth 32))

/-- Rules R109, R105, R106, R122, R229: a region that exceeds its bank faults with `F_BOUNDS` when it is used, by
`PKT.NEWREPLY` when the reply would have room. -/
def Obligations.RegionBoundsFaults : Prop :=
  ∀ (s : State) (rd rs3 : Reg) (k j : RgnIdx) (p : BankId), s.faulted = false →
    (¬s.RegionFits k → ∃ t, exec (.csum rd rs3 k) s = .next t ∧ s.OnlyFaults t .bounds) ∧
    (¬s.RegionFits k ∨ ¬s.RegionFits j → ∃ t, exec (.csum2 rd rs3 k j) s = .next t ∧ s.OnlyFaults t .bounds) ∧
    (¬s.RegionFits k → s.cfg.headroom + (s.rgn k).len.toNat ≤ s.cfg.pktCap →
      ∃ t, exec (.pktNewReply p k) s = .next t ∧ s.OnlyFaults t .bounds)

/-! ### Regions and the packet buffer (42_packet_buffer) -/

/-- Rule R120: `RGN.SET` checks nothing. -/
def Obligations.RegionSetResult : Prop :=
  ∀ (s : State) (rs1 rs2 : Reg) (p : BankId) (k : RgnIdx), s.faulted = false →
    ∃ t, exec (.rgnSet rs1 rs2 p k) s = .next t ∧
      s.OnlyRegion t k { bank := p, base := s.reg rs1, len := s.reg rs2 }

/-- Rule R121: `PKT.NEW` and its refusal. That the bytes at and above the new length read as before is the model's choice
(log 8): rules R37 and R66 leave those bytes unspecified. -/
def Obligations.PacketNewResult : Prop :=
  ∀ (s : State) (rs1 : Reg) (p : BankId), s.faulted = false →
    ((s.reg rs1).toNat ≤ s.cfg.pktCap →
      ∃ t, exec (.pktNew rs1 p) s = .next t ∧ s.OnlyBank t p ∧
        { t.bank p with mem := [] } =
          { plen := (s.reg rs1).toNat, noff := some 0, toff := none, poff := none, nord := .wire, tord := .wire,
            mem := [] } ∧
        ∀ a, (t.bank p).mem.read a = if a < (s.reg rs1).toNat then 0 else (s.bank p).mem.read a) ∧
    (s.cfg.pktCap < (s.reg rs1).toNat →
      ∃ t, exec (.pktNew rs1 p) s = .next t ∧ s.OnlyResponds t { status := .stNoRoom, value := 0 })

/-- Rules R122, R57: `PKT.NEWREPLY`; the copied bytes are those of the source before the command, also when the source is in
the destination bank. That the bytes at and above the new length read as before is the model's choice (log 8): rules R37 and
R66 leave those bytes unspecified. -/
def Obligations.PacketNewReplyResult : Prop :=
  ∀ (s : State) (p : BankId) (k : RgnIdx), s.faulted = false →
    (s.cfg.headroom + (s.rgn k).len.toNat ≤ s.cfg.pktCap → s.RegionFits k →
      ∃ t, exec (.pktNewReply p k) s = .next t ∧ s.OnlyBank t p ∧
        { t.bank p with mem := [] } =
          { plen := s.cfg.headroom + (s.rgn k).len.toNat, noff := none, toff := none, poff := some s.cfg.headroom,
            nord := .wire, tord := .wire, mem := [] } ∧
        ∀ a, (t.bank p).mem.read a =
          if a < s.cfg.headroom then 0
          else if a < s.cfg.headroom + (s.rgn k).len.toNat then
            (s.bank (s.rgn k).bank).mem.read ((s.rgn k).base.toNat + (a - s.cfg.headroom))
          else (s.bank p).mem.read a) ∧
    (s.cfg.pktCap < s.cfg.headroom + (s.rgn k).len.toNat →
      ∃ t, exec (.pktNewReply p k) s = .next t ∧ s.OnlyResponds t { status := .stNoRoom, value := 0 })

/-- Rules R123, R124: `PKT.WR8` and `PKT.RD8` inside the packet length, and their fault at and above it. -/
def Obligations.PacketByteAccess : Prop :=
  ∀ (s : State) (rd rs1 rs2 : Reg) (p : BankId), s.faulted = false →
    let a := (s.reg rs1).toNat
    (a < (s.bank p).plen →
      (∃ t, exec (.pktWr8 rs1 rs2 p) s = .next t ∧ s.OnlyStores t ∧
        ∀ st x, t.storeByte st x =
          if st = .bank p ∧ x = a then (s.reg rs2).extractLsb' 0 8 else s.storeByte st x) ∧
      (∃ t, exec (.pktRd8 rd rs1 p) s = .next t ∧ s.Answered t rd (BitVec.ofNat 32 ((s.bank p).mem.read a).toNat))) ∧
    ((s.bank p).plen ≤ a →
      (∃ t, exec (.pktWr8 rs1 rs2 p) s = .next t ∧ s.OnlyFaults t .bounds) ∧
      (∃ t, exec (.pktRd8 rd rs1 p) s = .next t ∧ s.OnlyFaults t .bounds))

/-- Rules R125, R126: the two transport fills, with their refusals in order. -/
def Obligations.TransportFills : Prop :=
  ∀ (s : State) (p : BankId) (i : Instr) (image : List Byte) (tag : Order), s.faulted = false →
    (i = .pktFillI p ∧ image = s.hicmp.toList ∧ tag = .wire) ∨
      (i = .pktFillU p ∧ image = s.hudp.toList ∧ tag = s.hudpOrd) →
    ∃ t, exec i s = .next t ∧
      match (s.bank p).poff with
      | none => s.OnlyResponds t { status := .stNone, value := 0 }
      | some po =>
        if po < image.length ∨ (∃ no, (s.bank p).noff = some no ∧ po - image.length < no) then
          s.OnlyResponds t { status := .stNoRoom, value := 0 }
        else
          s.OnlyBank t p ∧
          t.bank p = { s.bank p with toff := some (po - image.length), tord := tag, mem := (t.bank p).mem } ∧
          ∀ a, (t.bank p).mem.read a =
            if po - image.length ≤ a ∧ a < po then image.getD (a - (po - image.length)) 0 else (s.bank p).mem.read a

/-- Rule R127: the network fill, always 20 bytes, with its refusals in order. -/
def Obligations.NetworkFill : Prop :=
  ∀ (s : State) (p : BankId), s.faulted = false →
    ∃ t, exec (.pktFillN p) s = .next t ∧
      match (s.bank p).toff with
      | none => s.OnlyResponds t { status := .stNone, value := 0 }
      | some tOff =>
        if tOff < 20 then s.OnlyResponds t { status := .stNoRoom, value := 0 }
        else
          s.OnlyBank t p ∧
          t.bank p = { s.bank p with noff := some (tOff - 20), nord := s.hipOrd, mem := (t.bank p).mem } ∧
          ∀ a, (t.bank p).mem.read a =
            if tOff - 20 ≤ a ∧ a < tOff then s.hip.toList.getD (a - (tOff - 20)) 0 else (s.bank p).mem.read a

/-- Rules R128, R129: `PKT.GETOFF` and `PKT.TLEN`. (In a state outside the invariant of rule R31 a difference is cut off at 0,
and a number past the register's width is taken modulo 2^32: logs 13, 14.) -/
def Obligations.OffsetReads : Prop :=
  ∀ (s : State) (rd : Reg) (p : BankId) (j : OffSel), s.faulted = false →
    (∃ t, exec (.pktGetOff rd p j) s = .next t ∧
      match (match j with | .net => (s.bank p).noff | .trn => (s.bank p).toff | .pay => (s.bank p).poff) with
      | none => s.OnlyResponds t { status := .stNone, value := 0 }
      | some o => s.Answered t rd (BitVec.ofNat 32 o)) ∧
    (∃ t, exec (.pktTlen rd p) s = .next t ∧
      match (s.bank p).noff with
      | none => s.OnlyResponds t { status := .stNone, value := 0 }
      | some no => s.Answered t rd (BitVec.ofNat 32 ((s.bank p).plen - no)))

/-- Rules R130, R131: `PKT.PAYLOAD` and `PKT.WHOLE` run to the buffer end; in a state that meets the invariant of rule R31,
with parameters in their bounds, the region they leave fits its bank and ends at its packet's end. (In other
states a difference is cut off at 0 and a number is taken modulo 2^32: logs 13, 14.) -/
def Obligations.PacketSlices : Prop :=
  ∀ (s : State) (p : BankId) (k : RgnIdx) (i : Instr) (off : Option Nat), s.faulted = false →
    (i = .pktPayload p k ∧ off = (s.bank p).poff) ∨ (i = .pktWhole p k ∧ off = (s.bank p).noff) →
    ∃ t, exec i s = .next t ∧
      match off with
      | none => s.OnlyResponds t { status := .stNone, value := 0 }
      | some o =>
        s.OnlyRegion t k
          { bank := p, base := BitVec.ofNat 32 o, len := BitVec.ofNat 32 ((s.bank p).plen - o) } ∧
        (s.cfg.Ok → s.PacketsOk → t.RegionFits k ∧ (t.rgn k).base.toNat + (t.rgn k).len.toNat = (s.bank p).plen)

/-! ### Header views (20_memory) -/

/-- Rule R54: where a header image lies, how many bytes there are from its start, its tag, and the two refusals in order.
(In a state outside the invariant of rule R31 a difference is cut off at 0: log 13.) -/
def Obligations.ViewResolution : Prop :=
  ∀ s : State,
    s.hv .ip .stage = .ok { store := .hip, off := 0, avail := 20, ord := s.hipOrd } ∧
    s.hv .icmp .stage = .ok { store := .hicmp, off := 0, avail := 4, ord := .wire } ∧
    s.hv .udp .stage = .ok { store := .hudp, off := 0, avail := 8, ord := s.hudpOrd } ∧
    ∀ (p : BankId) (kind : Kind),
      let off := match kind with | .ip => (s.bank p).noff | .icmp | .udp => (s.bank p).toff
      let minlen := match kind with | .ip => 20 | .icmp => 4 | .udp => 8
      s.hv kind (.bank p) =
        match off with
        | none => .error .none
        | some o =>
          if (s.bank p).plen - o < minlen then .error .notRep
          else .ok { store := .bank p, off := o, avail := (s.bank p).plen - o,
                     ord := match kind with | .ip => (s.bank p).nord | .icmp | .udp => (s.bank p).tord }

/-- Rules R54, R223, R229: every view command is refused first with `ST_NONE` when its offset is unset, then with
`ST_NOTREP` when its fixed header does not fit, and never for these reasons in a staging register. -/
def Obligations.ViewRefusals : Prop :=
  ∀ (i : Instr) (kind : Kind) (loc : Loc) (s : State), i.header? = some (kind, loc) → s.faulted = false →
    match loc with
    | .stage => ∃ v, s.hv kind loc = .ok v
    | .bank p =>
      match (match kind with | .ip => (s.bank p).noff | .icmp | .udp => (s.bank p).toff) with
      | none => ∃ t, exec i s = .next t ∧ s.OnlyResponds t { status := .stNone, value := 0 }
      | some o =>
        ((s.bank p).plen - o < (match kind with | .ip => 20 | .icmp => 4 | .udp => 8) →
          ∃ t, exec i s = .next t ∧ s.OnlyResponds t { status := .stNotRep, value := 0 })

/-- Rule R53 with R50, R52: a field written in the order of the tag reads back as its number, and every other byte of every
store is unchanged. -/
def Obligations.FieldRoundTrip : Prop :=
  ∀ (s : State) (kind : Kind) (loc : Loc) (v : View) (i : Nat) (x : Half), s.hv kind loc = .ok v → i + 2 ≤ kind.minLen →
    (s.put16 v i x).fld16 v i = x ∧
    (s.put16 v i x).byteAt v (if v.ord = .wire then i else i + 1) = x.extractLsb' 8 8 ∧
    (s.put16 v i x).byteAt v (if v.ord = .wire then i + 1 else i) = x.extractLsb' 0 8 ∧
    ∀ st a, (st ≠ v.store ∨ a < v.off + i ∨ v.off + i + 2 ≤ a) → (s.put16 v i x).storeByte st a = s.storeByte st a

/-! ### The IPv4 header parser (43_ipv4) -/

/-- Rule R143: `IP.PARSE`, the refusals after the view's and the two offsets written. -/
def Obligations.IpParseResult : Prop :=
  ∀ (s : State) (p : BankId) (v : View), s.faulted = false → s.hv .ip (.bank p) = .ok v →
    let totalLength := (s.fld16 v 2).toNat
    ∃ t, exec (.ipParse p) s = .next t ∧
      if (s.byteAt v 0).toNat = 0x45 ∧ 20 ≤ totalLength ∧ totalLength ≤ v.avail then
        s.OnlyBank t p ∧ t.bank p = { s.bank p with toff := some (v.off + 20), poff := none }
      else s.OnlyResponds t { status := .stNotRep, value := 0 }

/-- Rules R144 to R148, R154 to R158, R165, R53: the ten reads that are safe under either tag, the multi-byte ones decoded
by the tag. -/
def Obligations.IpFieldReads : Prop :=
  ∀ (s : State) (rd : Reg) (loc : Loc) (v : View), s.faulted = false → s.hv .ip loc = .ok v →
    let half := fun i =>
      if v.ord = .wire then (s.byteAt v i).toNat * 256 + (s.byteAt v (i + 1)).toNat
      else (s.byteAt v (i + 1)).toNat * 256 + (s.byteAt v i).toNat
    let word := fun i =>
      if v.ord = .wire then
        (s.byteAt v i).toNat * 2 ^ 24 + (s.byteAt v (i + 1)).toNat * 2 ^ 16 + (s.byteAt v (i + 2)).toNat * 2 ^ 8 +
          (s.byteAt v (i + 3)).toNat
      else
        (s.byteAt v (i + 3)).toNat * 2 ^ 24 + (s.byteAt v (i + 2)).toNat * 2 ^ 16 + (s.byteAt v (i + 1)).toNat * 2 ^ 8 +
          (s.byteAt v i).toNat
    (∃ t, exec (.ipVersion rd loc) s = .next t ∧ s.Answered t rd (BitVec.ofNat 32 ((s.byteAt v 0).toNat / 16))) ∧
    (∃ t, exec (.ipHlen rd loc) s = .next t ∧ s.Answered t rd (BitVec.ofNat 32 ((s.byteAt v 0).toNat % 16 * 4))) ∧
    (∃ t, exec (.ipDscp rd loc) s = .next t ∧ s.Answered t rd (BitVec.ofNat 32 (s.byteAt v 1).toNat)) ∧
    (∃ t, exec (.ipTtl rd loc) s = .next t ∧ s.Answered t rd (BitVec.ofNat 32 (s.byteAt v 8).toNat)) ∧
    (∃ t, exec (.ipProto rd loc) s = .next t ∧ s.Answered t rd (BitVec.ofNat 32 (s.byteAt v 9).toNat)) ∧
    (∃ t, exec (.ipTotLen rd loc) s = .next t ∧ s.Answered t rd (BitVec.ofNat 32 (half 2))) ∧
    (∃ t, exec (.ipId rd loc) s = .next t ∧ s.Answered t rd (BitVec.ofNat 32 (half 4))) ∧
    (∃ t, exec (.ipCkFld rd loc) s = .next t ∧ s.Answered t rd (BitVec.ofNat 32 (half 10))) ∧
    (∃ t, exec (.ipSrc rd loc) s = .next t ∧ s.Answered t rd (BitVec.ofNat 32 (word 12))) ∧
    (∃ t, exec (.ipDst rd loc) s = .next t ∧ s.Answered t rd (BitVec.ofNat 32 (word 16)))

/-- Rules R142, R149 to R153, R165: the five reads of the flag word. Under the tag `HOST`, where byte 7 of the image is the
word's high byte, each answers its bits; under the tag `WIRE` each raises `F_ORDER`. (The bit numbers of the flag word are
the spec's own reading, "from general knowledge, not in source" in rule R142: log 12.) -/
def Obligations.IpFlagReads : Prop :=
  ∀ (s : State) (rd : Reg) (loc : Loc) (v : View), s.faulted = false → s.hv .ip loc = .ok v →
    let hi := (s.byteAt v 7).toNat
    let lo := (s.byteAt v 6).toNat
    (v.ord = .host →
      (∃ t, exec (.ipFlags rd loc) s = .next t ∧ s.Answered t rd (BitVec.ofNat 32 (hi / 32))) ∧
      (∃ t, exec (.ipFragOff rd loc) s = .next t ∧ s.Answered t rd (BitVec.ofNat 32 (hi % 32 * 256 + lo))) ∧
      (∃ t, exec (.ipRsv rd loc) s = .next t ∧ s.Answered t rd (BitVec.ofNat 32 (hi / 128))) ∧
      (∃ t, exec (.ipDf rd loc) s = .next t ∧ s.Answered t rd (BitVec.ofNat 32 (hi / 64 % 2))) ∧
      (∃ t, exec (.ipMf rd loc) s = .next t ∧ s.Answered t rd (BitVec.ofNat 32 (hi / 32 % 2)))) ∧
    (v.ord = .wire →
      ∀ i ∈ [Instr.ipFlags rd loc, .ipFragOff rd loc, .ipRsv rd loc, .ipDf rd loc, .ipMf rd loc],
        ∃ t, exec i s = .next t ∧ s.OnlyFaults t .order)

/-- Rule R159: `IP.SETTOTLEN` writes bits 15:0 in the byte order of the tag, and nothing else. -/
def Obligations.IpSetTotalLength : Prop :=
  ∀ (s : State) (rs1 : Reg) (loc : Loc) (v : View), s.faulted = false → s.hv .ip loc = .ok v →
    ∃ t, exec (.ipSetTotLen rs1 loc) s = .next t ∧ s.OnlyStores t ∧
      ∀ st a, t.storeByte st a =
        if st = v.store ∧ a = v.off + (if v.ord = .wire then 2 else 3) then (s.reg rs1).extractLsb' 8 8
        else if st = v.store ∧ a = v.off + (if v.ord = .wire then 3 else 2) then (s.reg rs1).extractLsb' 0 8
        else s.storeByte st a

/-- Rule R160: `IP.BSWAP` reverses the six multi-byte fields, toggles the tag, and changes nothing else. -/
def Obligations.IpBswapResult : Prop :=
  ∀ (s : State) (loc : Loc) (v : View), s.faulted = false → s.hv .ip loc = .ok v →
    ∃ t, exec (.ipBswap loc) s = .next t ∧ (s.setNetOrder loc v.ord.toggle).OnlyStores t ∧
      (∃ u, t.hv .ip loc = .ok u ∧ u = { v with ord := v.ord.toggle }) ∧
      ∀ st a, t.storeByte st a =
        if st = v.store ∧ v.off ≤ a ∧ a < v.off + 20 then s.byteAt v (ipSwapIndex (a - v.off)) else s.storeByte st a

/-- Rules R161, R162, R163 with law 8 of R107: `IP.CSUM` answers, and `IP.SETCSUM` stores, the checksum of the header with
its checksum field zeroed; `IP.VERIFY` answers that of the header as it stands. -/
def Obligations.IpChecksumResults : Prop :=
  ∀ (s : State) (rd : Reg) (loc : Loc) (v : View), s.faulted = false → s.hv .ip loc = .ok v →
    let ihl := (s.byteAt v 0).toNat % 16
    5 ≤ ihl → v.ord = .wire → ihl * 4 ≤ v.avail →
    let H := s.imageBytes v (ihl * 4)
    let r := csum (zeroWordAt H 10) 0
    (∃ t, exec (.ipCsum rd loc) s = .next t ∧ s.Answered t rd (r.setWidth 32)) ∧
    (∃ t, exec (.ipVerify rd loc) s = .next t ∧ s.Answered t rd ((csum H 0).setWidth 32)) ∧
    (∃ t, exec (.ipSetCsum loc) s = .next t ∧ s.OnlyStores t ∧
      ∀ st a, t.storeByte st a =
        if st = v.store ∧ a = v.off + 10 then r.extractLsb' 8 8
        else if st = v.store ∧ a = v.off + 11 then r.extractLsb' 0 8
        else s.storeByte st a)

/-- Rule R162 with R163: after a completed `IP.SETCSUM`, `IP.VERIFY` answers `(ST_OK, 0)`, and a second `IP.SETCSUM` changes
no byte. -/
def Obligations.IpSetThenVerify : Prop :=
  ∀ (s t : State) (rd : Reg) (loc : Loc), s.faulted = false → exec (.ipSetCsum loc) s = .next t →
    t.lastResponse = some { status := .stOk, value := 0 } →
    (∃ u, exec (.ipVerify rd loc) t = .next u ∧ t.Answered u rd 0) ∧
    ∃ u, exec (.ipSetCsum loc) t = .next u ∧ t.OnlyStores u ∧ ∀ st a, u.storeByte st a = t.storeByte st a

/-- Rule R164: `IP.REPLY`, byte by byte, under either tag; the image is read before `HIP` is written. With `TTL_FLOOR` at
`SATURATE` it completes whatever the TTL, and TTL 0 stays 0; at the other option of U1 (93_implementation_defined, log 21) a
header with TTL 0 is refused with `ST_NOTREP`. -/
def Obligations.IpReplyResult : Prop :=
  ∀ (s : State) (loc : Loc) (v : View), s.faulted = false → s.hv .ip loc = .ok v →
    (s.cfg.ttlFloor = .saturate ∨ s.byteAt v 8 ≠ 0 →
      ∃ t, exec (.ipReply loc) s = .next t ∧
        t = { s with hip := t.hip, hipOrd := v.ord, responses := { status := .stOk, value := 0 } :: s.responses } ∧
        t.storeByte .hip 0 = 0x45 ∧ t.storeByte .hip 1 = s.byteAt v 1 ∧
        (∀ i ∈ [2, 3, 10, 11], t.storeByte .hip i = 0) ∧
        (∀ i ∈ [4, 5, 6, 7, 9], t.storeByte .hip i = s.byteAt v i) ∧
        (t.storeByte .hip 8).toNat = (s.byteAt v 8).toNat - 1 ∧
        (∀ i < 4, t.storeByte .hip (12 + i) = s.byteAt v (16 + i) ∧ t.storeByte .hip (16 + i) = s.byteAt v (12 + i))) ∧
    (s.cfg.ttlFloor = .refuse → s.byteAt v 8 = 0 →
      ∃ t, exec (.ipReply loc) s = .next t ∧ s.OnlyResponds t { status := .stNotRep, value := 0 })

/-! ### The ICMP header parser (44_icmp) -/

/-- Rules R180, R182 to R185: `ICMP.PARSE` and the three reads; the checksum field is big-endian whatever `TORD` holds. -/
def Obligations.IcmpParseAndReads : Prop :=
  (∀ (s : State) (p : BankId) (v : View), s.faulted = false → s.hv .icmp (.bank p) = .ok v →
    ∃ t, exec (.icmpParse p) s = .next t ∧ s.OnlyBank t p ∧ t.bank p = { s.bank p with poff := some (v.off + 4) }) ∧
  ∀ (s : State) (rd : Reg) (loc : Loc) (v : View), s.faulted = false → s.hv .icmp loc = .ok v →
    (∃ t, exec (.icmpType rd loc) s = .next t ∧ s.Answered t rd (BitVec.ofNat 32 (s.byteAt v 0).toNat)) ∧
    (∃ t, exec (.icmpCode rd loc) s = .next t ∧ s.Answered t rd (BitVec.ofNat 32 (s.byteAt v 1).toNat)) ∧
    (∃ t, exec (.icmpCkFld rd loc) s = .next t ∧
      s.Answered t rd (BitVec.ofNat 32 ((s.byteAt v 2).toNat * 256 + (s.byteAt v 3).toNat)))

/-- Rule R186: `ICMP.BUILD` takes bits 7:0 of each operand and zeroes the checksum. -/
def Obligations.IcmpBuildResult : Prop :=
  ∀ (s : State) (rs1 rs2 : Reg), s.faulted = false →
    ∃ t, exec (.icmpBuild rs1 rs2) s = .next t ∧
      t = { s with hicmp := t.hicmp, responses := { status := .stOk, value := 0 } :: s.responses } ∧
      (t.storeByte .hicmp 0).toNat = (s.reg rs1).toNat % 256 ∧ (t.storeByte .hicmp 1).toNat = (s.reg rs2).toNat % 256 ∧
      t.storeByte .hicmp 2 = 0 ∧ t.storeByte .hicmp 3 = 0

/-- Rules R187, R188 with law 8 of R107: `ICMP.CSUM` and `ICMP.SETCSUM` over `x[rs1]` bytes, and their fault. -/
def Obligations.IcmpChecksumResults : Prop :=
  ∀ (s : State) (rd rs1 : Reg) (loc : Loc) (v : View), s.faulted = false → s.hv .icmp loc = .ok v →
    let n := (s.reg rs1).toNat
    let r := csum (zeroWordAt (s.imageBytes v n) 2) 0
    (4 ≤ n ∧ n ≤ v.avail →
      (∃ t, exec (.icmpCsum rd rs1 loc) s = .next t ∧ s.Answered t rd (r.setWidth 32)) ∧
      (∃ t, exec (.icmpSetCsum rs1 loc) s = .next t ∧ s.OnlyStores t ∧
        ∀ st a, t.storeByte st a =
          if st = v.store ∧ a = v.off + 2 then r.extractLsb' 8 8
          else if st = v.store ∧ a = v.off + 3 then r.extractLsb' 0 8
          else s.storeByte st a)) ∧
    (n < 4 ∨ v.avail < n →
      (∃ t, exec (.icmpCsum rd rs1 loc) s = .next t ∧ s.OnlyFaults t .bounds) ∧
      (∃ t, exec (.icmpSetCsum rs1 loc) s = .next t ∧ s.OnlyFaults t .bounds))

/-! ### The UDP header parser (45_udp) -/

/-- Rules R192 to R196: `UDP.PARSE`, and the four field reads, decoded by the tag, never a fault. -/
def Obligations.UdpParseAndReads : Prop :=
  (∀ (s : State) (p : BankId) (v : View), s.faulted = false → s.hv .udp (.bank p) = .ok v →
    let length := (s.fld16 v 4).toNat
    ∃ t, exec (.udpParse p) s = .next t ∧
      if 8 ≤ length ∧ length ≤ v.avail then
        s.OnlyBank t p ∧ t.bank p = { s.bank p with poff := some (v.off + 8) }
      else s.OnlyResponds t { status := .stNotRep, value := 0 }) ∧
  ∀ (s : State) (rd : Reg) (loc : Loc) (v : View), s.faulted = false → s.hv .udp loc = .ok v →
    let half := fun i =>
      if v.ord = .wire then (s.byteAt v i).toNat * 256 + (s.byteAt v (i + 1)).toNat
      else (s.byteAt v (i + 1)).toNat * 256 + (s.byteAt v i).toNat
    (∃ t, exec (.udpSport rd loc) s = .next t ∧ s.Answered t rd (BitVec.ofNat 32 (half 0))) ∧
    (∃ t, exec (.udpDport rd loc) s = .next t ∧ s.Answered t rd (BitVec.ofNat 32 (half 2))) ∧
    (∃ t, exec (.udpLen rd loc) s = .next t ∧ s.Answered t rd (BitVec.ofNat 32 (half 4))) ∧
    (∃ t, exec (.udpCkFld rd loc) s = .next t ∧ s.Answered t rd (BitVec.ofNat 32 (half 6)))

/-- Rule R197: `UDP.BSWAP` exchanges the bytes of the four fields, toggles the tag, and changes nothing else. -/
def Obligations.UdpBswapResult : Prop :=
  ∀ (s : State) (loc : Loc) (v : View), s.faulted = false → s.hv .udp loc = .ok v →
    ∃ t, exec (.udpBswap loc) s = .next t ∧ (s.setTrnOrder loc v.ord.toggle).OnlyStores t ∧
      (∃ u, t.hv .udp loc = .ok u ∧ u = { v with ord := v.ord.toggle }) ∧
      ∀ st a, t.storeByte st a =
        if st = v.store ∧ v.off ≤ a ∧ a < v.off + 8 then s.byteAt v (udpSwapIndex (a - v.off)) else s.storeByte st a

/-- Rules R160, R197: two `IP.BSWAP`, or two `UDP.BSWAP`, in a row restore every byte and the tags, and no field's number
changes on the way. -/
def Obligations.BswapTwice : Prop :=
  ∀ (s t u : State) (loc : Loc) (kind : Kind) (i : Instr) (v v' : View), s.faulted = false →
    (kind = .ip ∧ i = .ipBswap loc) ∨ (kind = .udp ∧ i = .udpBswap loc) → s.hv kind loc = .ok v →
    exec i s = .next t → exec i t = .next u → t.hv kind loc = .ok v' →
    (∀ st a, u.storeByte st a = s.storeByte st a) ∧ u.tags = s.tags ∧ u.hv kind loc = .ok v ∧
    (kind = .ip → (∀ n ∈ [2, 4, 6, 10], t.fld16 v' n = s.fld16 v n) ∧ ∀ n ∈ [12, 16], t.fld32 v' n = s.fld32 v n) ∧
    (kind = .udp → ∀ n ∈ [0, 2, 4, 6], t.fld16 v' n = s.fld16 v n)

/-- Rule R198: `UDP.REPLY`, byte by byte, under either tag. -/
def Obligations.UdpReplyResult : Prop :=
  ∀ (s : State) (loc : Loc) (v : View), s.faulted = false → s.hv .udp loc = .ok v →
    ∃ t, exec (.udpReply loc) s = .next t ∧
      t = { s with hudp := t.hudp, hudpOrd := v.ord, responses := { status := .stOk, value := 0 } :: s.responses } ∧
      (∀ i < 2, t.storeByte .hudp i = s.byteAt v (2 + i) ∧ t.storeByte .hudp (2 + i) = s.byteAt v i ∧
        t.storeByte .hudp (4 + i) = s.byteAt v (4 + i) ∧ t.storeByte .hudp (6 + i) = 0)

/-- Rules R191, R199, R200, R201 with law 8 of R107: the checksum over the pseudo-header and the segment with its checksum
field zeroed, the twelve bytes of the pseudo-header written out, 0x0000 replaced by 0xFFFF under `UDP_ZERO_AS_ONES`. -/
def Obligations.UdpChecksumResults : Prop :=
  ∀ (s : State) (rd rs1 rs2 : Reg) (loc : Loc) (v : View), s.faulted = false → s.hv .udp loc = .ok v →
    let len := s.fld16 v 4
    8 ≤ len.toNat → v.ord = .wire → len.toNat ≤ v.avail →
    let src := s.reg rs1
    let dst := s.reg rs2
    let pseudoHeader : List Byte :=
      [src.extractLsb' 24 8, src.extractLsb' 16 8, src.extractLsb' 8 8, src.extractLsb' 0 8,
        dst.extractLsb' 24 8, dst.extractLsb' 16 8, dst.extractLsb' 8 8, dst.extractLsb' 0 8,
        0x00, 0x11, len.extractLsb' 8 8, len.extractLsb' 0 8]
    let sum := csum (pseudoHeader ++ zeroWordAt (s.imageBytes v len.toNat) 6) 0
    let r := if s.cfg.udpZeroAsOnes = true ∧ sum = 0 then 0xFFFF else sum
    (∃ t, exec (.udpCsum rd rs1 rs2 loc) s = .next t ∧ s.Answered t rd (r.setWidth 32)) ∧
    (∃ t, exec (.udpSetCsum rs1 rs2 loc) s = .next t ∧ s.OnlyStores t ∧
      ∀ st a, t.storeByte st a =
        if st = v.store ∧ a = v.off + 6 then r.extractLsb' 8 8
        else if st = v.store ∧ a = v.off + 7 then r.extractLsb' 0 8
        else s.storeByte st a)

/-- Rules R161, R200, R225, R229: the checksum commands of both kinds refuse a short header-length nibble or length field
first, then raise `F_ORDER`, then `F_BOUNDS`. -/
def Obligations.ChecksumChecks : Prop :=
  ∀ (s : State) (rd rs1 rs2 : Reg) (loc : Loc) (kind : Kind) (v : View) (i : Instr) (least length : Nat),
    s.faulted = false → s.hv kind loc = .ok v →
    (kind = .ip ∧ i ∈ [Instr.ipCsum rd loc, .ipSetCsum loc, .ipVerify rd loc] ∧ least = 20 ∧
        length = (s.byteAt v 0).toNat % 16 * 4) ∨
      (kind = .udp ∧ i ∈ [Instr.udpCsum rd rs1 rs2 loc, .udpSetCsum rs1 rs2 loc] ∧ least = 8 ∧
        length = (s.fld16 v 4).toNat) →
    ∃ t, exec i s = .next t ∧
      (length < least → s.OnlyResponds t { status := .stNotRep, value := 0 }) ∧
      (least ≤ length → v.ord = .host → s.OnlyFaults t .order) ∧
      (least ≤ length → v.ord = .wire → v.avail < length → s.OnlyFaults t .bounds)

/-! ### The system command (46_system) -/

/-- Rules R210, R33, R26 to R30: `SYS.RDCSR` answers the CSR in every state, faulted or not, with the bits of `TAGS` as rule
R29 places them. The model's choices: `CAP` and `HEADROOM` are those of the field `cfg` (log 4); a length, an offset or a
parameter past the register's width, which no legal state has, is taken modulo 2^32 (log 14); a term with a reserved number
acts as the illegal word it stands for (log 11). -/
def Obligations.ReadCsrResult : Prop :=
  ∀ (s : State) (rd : Reg) (csr : BitVec 4),
    let offset := fun o : Option Nat => o.elim (0xFFFFFFFF#32) (BitVec.ofNat 32)
    let value : List (Option Word) :=
      [some s.fsr, some s.fcmd, some (BitVec.ofNat 32 s.cfg.pktCap), some (BitVec.ofNat 32 s.cfg.headroom), some s.tags,
        none, none, none,
        some (BitVec.ofNat 32 s.bank0.plen), some (offset s.bank0.noff), some (offset s.bank0.toff),
        some (offset s.bank0.poff), some (BitVec.ofNat 32 s.bank1.plen), some (offset s.bank1.noff),
        some (offset s.bank1.toff), some (offset s.bank1.poff)]
    let tagOrder := [s.bank0.nord, s.bank0.tord, s.bank1.nord, s.bank1.tord, s.hipOrd, s.hudpOrd]
    (∀ bit, s.tags.getLsbD bit = (tagOrder.map fun o => decide (o = .host)).getD bit false) ∧
    ∃ t, exec (.sysRdcsr rd csr) s = .next t ∧
      match value.getD csr.toNat none with
      | some v => s.Answered t rd v
      | none => t = s.illegalWord
end

