-- ==== Sys2Proof/Laws/State.lean ====
section
/-! SUPPORT. What each update of the state leaves in each field, and in what is read from it. -/

namespace Sys2Proof.Machine

/-! ### `State.reply` -/

@[simp] theorem State.reply_cfg (s : State) (st : Status) (v : Word) : (s.reply st v).cfg = s.cfg := rfl
@[simp] theorem State.reply_xs (s : State) (st : Status) (v : Word) : (s.reply st v).xs = s.xs := rfl
@[simp] theorem State.reply_bank0 (s : State) (st : Status) (v : Word) : (s.reply st v).bank0 = s.bank0 := rfl
@[simp] theorem State.reply_bank1 (s : State) (st : Status) (v : Word) : (s.reply st v).bank1 = s.bank1 := rfl
@[simp] theorem State.reply_rgns (s : State) (st : Status) (v : Word) : (s.reply st v).rgns = s.rgns := rfl
@[simp] theorem State.reply_hip (s : State) (st : Status) (v : Word) : (s.reply st v).hip = s.hip := rfl
@[simp] theorem State.reply_hipOrd (s : State) (st : Status) (v : Word) : (s.reply st v).hipOrd = s.hipOrd := rfl
@[simp] theorem State.reply_hicmp (s : State) (st : Status) (v : Word) : (s.reply st v).hicmp = s.hicmp := rfl
@[simp] theorem State.reply_hudp (s : State) (st : Status) (v : Word) : (s.reply st v).hudp = s.hudp := rfl
@[simp] theorem State.reply_hudpOrd (s : State) (st : Status) (v : Word) : (s.reply st v).hudpOrd = s.hudpOrd := rfl
@[simp] theorem State.reply_fsr (s : State) (st : Status) (v : Word) : (s.reply st v).fsr = s.fsr := rfl
@[simp] theorem State.reply_fcmd (s : State) (st : Status) (v : Word) : (s.reply st v).fcmd = s.fcmd := rfl
@[simp] theorem State.reply_cmd (s : State) (st : Status) (v : Word) : (s.reply st v).cmd = s.cmd := rfl
@[simp] theorem State.reply_host (s : State) (st : Status) (v : Word) : (s.reply st v).host = s.host := rfl
@[simp] theorem State.reply_responses (s : State) (st : Status) (v : Word) : (s.reply st v).responses = { status := st, value := v } :: s.responses :=
  rfl
@[simp] theorem State.reply_reg (s : State) (st : Status) (v : Word) (i : Reg) : (s.reply st v).reg i = s.reg i := rfl
@[simp] theorem State.reply_bank (s : State) (st : Status) (v : Word) (p : BankId) : (s.reply st v).bank p = s.bank p :=
  rfl
@[simp] theorem State.reply_rgn (s : State) (st : Status) (v : Word) (k : RgnIdx) : (s.reply st v).rgn k = s.rgn k :=
  rfl
@[simp] theorem State.reply_faulted (s : State) (st : Status) (v : Word) : (s.reply st v).faulted = s.faulted  := rfl
@[simp] theorem State.reply_storeByte (s : State) (st : Status) (v : Word) (st' : Store) (a : Nat) : (s.reply st v).storeByte st' a = s.storeByte st' a :=
  rfl

/-! ### `State.raise` -/

@[simp] theorem State.raise_cfg (s : State) (c : Cause) : (s.raise c).cfg = s.cfg := rfl
@[simp] theorem State.raise_xs (s : State) (c : Cause) : (s.raise c).xs = s.xs := rfl
@[simp] theorem State.raise_bank0 (s : State) (c : Cause) : (s.raise c).bank0 = s.bank0 := rfl
@[simp] theorem State.raise_bank1 (s : State) (c : Cause) : (s.raise c).bank1 = s.bank1 := rfl
@[simp] theorem State.raise_rgns (s : State) (c : Cause) : (s.raise c).rgns = s.rgns := rfl
@[simp] theorem State.raise_hip (s : State) (c : Cause) : (s.raise c).hip = s.hip := rfl
@[simp] theorem State.raise_hipOrd (s : State) (c : Cause) : (s.raise c).hipOrd = s.hipOrd := rfl
@[simp] theorem State.raise_hicmp (s : State) (c : Cause) : (s.raise c).hicmp = s.hicmp := rfl
@[simp] theorem State.raise_hudp (s : State) (c : Cause) : (s.raise c).hudp = s.hudp := rfl
@[simp] theorem State.raise_hudpOrd (s : State) (c : Cause) : (s.raise c).hudpOrd = s.hudpOrd := rfl
@[simp] theorem State.raise_cmd (s : State) (c : Cause) : (s.raise c).cmd = s.cmd := rfl
@[simp] theorem State.raise_host (s : State) (c : Cause) : (s.raise c).host = s.host := rfl
@[simp] theorem State.raise_fsr (s : State) (c : Cause) : (s.raise c).fsr = c.fsr := rfl
@[simp] theorem State.raise_fcmd (s : State) (c : Cause) : (s.raise c).fcmd = s.cmd := rfl
@[simp] theorem State.raise_responses (s : State) (c : Cause) : (s.raise c).responses = { status := .stFault, value := c.fsr } :: s.responses :=
  rfl
@[simp] theorem State.raise_reg (s : State) (c : Cause) (i : Reg) : (s.raise c).reg i = s.reg i := rfl
@[simp] theorem State.raise_bank (s : State) (c : Cause) (p : BankId) : (s.raise c).bank p = s.bank p := rfl
@[simp] theorem State.raise_rgn (s : State) (c : Cause) (k : RgnIdx) : (s.raise c).rgn k = s.rgn k := rfl

/-! ### `State.present` -/

@[simp] theorem State.present_cfg (s : State) (w : Word) (rest : List HostAction) : (s.present w rest).cfg = s.cfg :=
  rfl
@[simp] theorem State.present_xs (s : State) (w : Word) (rest : List HostAction) : (s.present w rest).xs = s.xs := rfl
@[simp] theorem State.present_bank0 (s : State) (w : Word) (rest : List HostAction) : (s.present w rest).bank0 = s.bank0 :=
  rfl
@[simp] theorem State.present_bank1 (s : State) (w : Word) (rest : List HostAction) : (s.present w rest).bank1 = s.bank1 :=
  rfl
@[simp] theorem State.present_rgns (s : State) (w : Word) (rest : List HostAction) : (s.present w rest).rgns = s.rgns :=
  rfl
@[simp] theorem State.present_hip (s : State) (w : Word) (rest : List HostAction) : (s.present w rest).hip = s.hip :=
  rfl
@[simp] theorem State.present_hipOrd (s : State) (w : Word) (rest : List HostAction) : (s.present w rest).hipOrd = s.hipOrd :=
  rfl
@[simp] theorem State.present_hicmp (s : State) (w : Word) (rest : List HostAction) : (s.present w rest).hicmp = s.hicmp :=
  rfl
@[simp] theorem State.present_hudp (s : State) (w : Word) (rest : List HostAction) : (s.present w rest).hudp = s.hudp :=
  rfl
@[simp] theorem State.present_hudpOrd (s : State) (w : Word) (rest : List HostAction) : (s.present w rest).hudpOrd = s.hudpOrd :=
  rfl
@[simp] theorem State.present_fsr (s : State) (w : Word) (rest : List HostAction) : (s.present w rest).fsr = s.fsr :=
  rfl
@[simp] theorem State.present_fcmd (s : State) (w : Word) (rest : List HostAction) : (s.present w rest).fcmd = s.fcmd :=
  rfl
@[simp] theorem State.present_responses (s : State) (w : Word) (rest : List HostAction) : (s.present w rest).responses = s.responses :=
  rfl
@[simp] theorem State.present_cmd (s : State) (w : Word) (rest : List HostAction) : (s.present w rest).cmd = w := rfl
@[simp] theorem State.present_host (s : State) (w : Word) (rest : List HostAction) : (s.present w rest).host = rest :=
  rfl
@[simp] theorem State.present_reg (s : State) (w : Word) (rest : List HostAction) (i : Reg) : (s.present w rest).reg i = s.reg i :=
  rfl
@[simp] theorem State.present_bank (s : State) (w : Word) (rest : List HostAction) (p : BankId) : (s.present w rest).bank p = s.bank p :=
  rfl
@[simp] theorem State.present_rgn (s : State) (w : Word) (rest : List HostAction) (k : RgnIdx) : (s.present w rest).rgn k = s.rgn k :=
  rfl
@[simp] theorem State.present_faulted (s : State) (w : Word) (rest : List HostAction) : (s.present w rest).faulted = s.faulted  :=
  rfl

/-! ### `State.setReg` -/

@[simp] theorem State.setReg_cfg (s : State) (i : Reg) (v : Word) : (s.setReg i v).cfg = s.cfg :=
  by
  unfold State.setReg; split <;> rfl
@[simp] theorem State.setReg_bank0 (s : State) (i : Reg) (v : Word) : (s.setReg i v).bank0 = s.bank0 :=
  by
  unfold State.setReg; split <;> rfl
@[simp] theorem State.setReg_bank1 (s : State) (i : Reg) (v : Word) : (s.setReg i v).bank1 = s.bank1 :=
  by
  unfold State.setReg; split <;> rfl
@[simp] theorem State.setReg_rgns (s : State) (i : Reg) (v : Word) : (s.setReg i v).rgns = s.rgns :=
  by
  unfold State.setReg; split <;> rfl
@[simp] theorem State.setReg_hip (s : State) (i : Reg) (v : Word) : (s.setReg i v).hip = s.hip :=
  by
  unfold State.setReg; split <;> rfl
@[simp] theorem State.setReg_hipOrd (s : State) (i : Reg) (v : Word) : (s.setReg i v).hipOrd = s.hipOrd :=
  by
  unfold State.setReg; split <;> rfl
@[simp] theorem State.setReg_hicmp (s : State) (i : Reg) (v : Word) : (s.setReg i v).hicmp = s.hicmp :=
  by
  unfold State.setReg; split <;> rfl
@[simp] theorem State.setReg_hudp (s : State) (i : Reg) (v : Word) : (s.setReg i v).hudp = s.hudp :=
  by
  unfold State.setReg; split <;> rfl
@[simp] theorem State.setReg_hudpOrd (s : State) (i : Reg) (v : Word) : (s.setReg i v).hudpOrd = s.hudpOrd :=
  by
  unfold State.setReg; split <;> rfl
@[simp] theorem State.setReg_fsr (s : State) (i : Reg) (v : Word) : (s.setReg i v).fsr = s.fsr :=
  by
  unfold State.setReg; split <;> rfl
@[simp] theorem State.setReg_fcmd (s : State) (i : Reg) (v : Word) : (s.setReg i v).fcmd = s.fcmd :=
  by
  unfold State.setReg; split <;> rfl
@[simp] theorem State.setReg_cmd (s : State) (i : Reg) (v : Word) : (s.setReg i v).cmd = s.cmd :=
  by
  unfold State.setReg; split <;> rfl
@[simp] theorem State.setReg_host (s : State) (i : Reg) (v : Word) : (s.setReg i v).host = s.host :=
  by
  unfold State.setReg; split <;> rfl
@[simp] theorem State.setReg_responses (s : State) (i : Reg) (v : Word) : (s.setReg i v).responses = s.responses :=
  by
  unfold State.setReg; split <;> rfl
@[simp] theorem State.setReg_bank (s : State) (i : Reg) (v : Word) (p : BankId) : (s.setReg i v).bank p = s.bank p :=
  by
  unfold State.setReg; split <;> rfl
@[simp] theorem State.setReg_rgn (s : State) (i : Reg) (v : Word) (k : RgnIdx) : (s.setReg i v).rgn k = s.rgn k :=
  by
  unfold State.setReg; split <;> rfl
@[simp] theorem State.setReg_faulted (s : State) (i : Reg) (v : Word) : (s.setReg i v).faulted = s.faulted  :=
  by
  unfold State.setReg; split <;> rfl
@[simp] theorem State.setReg_storeByte (s : State) (i : Reg) (v : Word) (st : Store) (a : Nat) : (s.setReg i v).storeByte st a = s.storeByte st a :=
  by
  unfold State.setReg; split <;> rfl

/-! ### `State.setBank` -/

@[simp] theorem State.setBank_cfg (s : State) (p : BankId) (b : Bank) : (s.setBank p b).cfg = s.cfg :=
  by cases p <;> rfl
@[simp] theorem State.setBank_xs (s : State) (p : BankId) (b : Bank) : (s.setBank p b).xs = s.xs := by cases p <;> rfl
@[simp] theorem State.setBank_rgns (s : State) (p : BankId) (b : Bank) : (s.setBank p b).rgns = s.rgns :=
  by cases p <;> rfl
@[simp] theorem State.setBank_hip (s : State) (p : BankId) (b : Bank) : (s.setBank p b).hip = s.hip :=
  by cases p <;> rfl
@[simp] theorem State.setBank_hipOrd (s : State) (p : BankId) (b : Bank) : (s.setBank p b).hipOrd = s.hipOrd :=
  by cases p <;> rfl
@[simp] theorem State.setBank_hicmp (s : State) (p : BankId) (b : Bank) : (s.setBank p b).hicmp = s.hicmp :=
  by cases p <;> rfl
@[simp] theorem State.setBank_hudp (s : State) (p : BankId) (b : Bank) : (s.setBank p b).hudp = s.hudp :=
  by cases p <;> rfl
@[simp] theorem State.setBank_hudpOrd (s : State) (p : BankId) (b : Bank) : (s.setBank p b).hudpOrd = s.hudpOrd :=
  by cases p <;> rfl
@[simp] theorem State.setBank_fsr (s : State) (p : BankId) (b : Bank) : (s.setBank p b).fsr = s.fsr :=
  by cases p <;> rfl
@[simp] theorem State.setBank_fcmd (s : State) (p : BankId) (b : Bank) : (s.setBank p b).fcmd = s.fcmd :=
  by cases p <;> rfl
@[simp] theorem State.setBank_cmd (s : State) (p : BankId) (b : Bank) : (s.setBank p b).cmd = s.cmd :=
  by cases p <;> rfl
@[simp] theorem State.setBank_host (s : State) (p : BankId) (b : Bank) : (s.setBank p b).host = s.host :=
  by cases p <;> rfl
@[simp] theorem State.setBank_responses (s : State) (p : BankId) (b : Bank) : (s.setBank p b).responses = s.responses :=
  by cases p <;> rfl
@[simp] theorem State.setBank_reg (s : State) (p : BankId) (b : Bank) (i : Reg) : (s.setBank p b).reg i = s.reg i :=
  by cases p <;> rfl
@[simp] theorem State.setBank_rgn (s : State) (p : BankId) (b : Bank) (k : RgnIdx) : (s.setBank p b).rgn k = s.rgn k :=
  by cases p <;> rfl
@[simp] theorem State.setBank_faulted (s : State) (p : BankId) (b : Bank) : (s.setBank p b).faulted = s.faulted  :=
  by cases p <;> rfl

/-! ### `State.setRgn` -/

@[simp] theorem State.setRgn_cfg (s : State) (k : RgnIdx) (r : Region) : (s.setRgn k r).cfg = s.cfg := rfl
@[simp] theorem State.setRgn_xs (s : State) (k : RgnIdx) (r : Region) : (s.setRgn k r).xs = s.xs := rfl
@[simp] theorem State.setRgn_bank0 (s : State) (k : RgnIdx) (r : Region) : (s.setRgn k r).bank0 = s.bank0 := rfl
@[simp] theorem State.setRgn_bank1 (s : State) (k : RgnIdx) (r : Region) : (s.setRgn k r).bank1 = s.bank1 := rfl
@[simp] theorem State.setRgn_hip (s : State) (k : RgnIdx) (r : Region) : (s.setRgn k r).hip = s.hip := rfl
@[simp] theorem State.setRgn_hipOrd (s : State) (k : RgnIdx) (r : Region) : (s.setRgn k r).hipOrd = s.hipOrd := rfl
@[simp] theorem State.setRgn_hicmp (s : State) (k : RgnIdx) (r : Region) : (s.setRgn k r).hicmp = s.hicmp := rfl
@[simp] theorem State.setRgn_hudp (s : State) (k : RgnIdx) (r : Region) : (s.setRgn k r).hudp = s.hudp := rfl
@[simp] theorem State.setRgn_hudpOrd (s : State) (k : RgnIdx) (r : Region) : (s.setRgn k r).hudpOrd = s.hudpOrd := rfl
@[simp] theorem State.setRgn_fsr (s : State) (k : RgnIdx) (r : Region) : (s.setRgn k r).fsr = s.fsr := rfl
@[simp] theorem State.setRgn_fcmd (s : State) (k : RgnIdx) (r : Region) : (s.setRgn k r).fcmd = s.fcmd := rfl
@[simp] theorem State.setRgn_cmd (s : State) (k : RgnIdx) (r : Region) : (s.setRgn k r).cmd = s.cmd := rfl
@[simp] theorem State.setRgn_host (s : State) (k : RgnIdx) (r : Region) : (s.setRgn k r).host = s.host := rfl
@[simp] theorem State.setRgn_responses (s : State) (k : RgnIdx) (r : Region) : (s.setRgn k r).responses = s.responses :=
  rfl
@[simp] theorem State.setRgn_reg (s : State) (k : RgnIdx) (r : Region) (i : Reg) : (s.setRgn k r).reg i = s.reg i :=
  rfl
@[simp] theorem State.setRgn_bank (s : State) (k : RgnIdx) (r : Region) (p : BankId) : (s.setRgn k r).bank p = s.bank p :=
  rfl
@[simp] theorem State.setRgn_faulted (s : State) (k : RgnIdx) (r : Region) : (s.setRgn k r).faulted = s.faulted  :=
  rfl

/-! ### `State.writeBank` -/

@[simp] theorem State.writeBank_cfg (s : State) (p : BankId) (a : Nat) (bs : List Byte) : (s.writeBank p a bs).cfg = s.cfg :=
  by cases p <;> rfl
@[simp] theorem State.writeBank_xs (s : State) (p : BankId) (a : Nat) (bs : List Byte) : (s.writeBank p a bs).xs = s.xs :=
  by cases p <;> rfl
@[simp] theorem State.writeBank_rgns (s : State) (p : BankId) (a : Nat) (bs : List Byte) : (s.writeBank p a bs).rgns = s.rgns :=
  by cases p <;> rfl
@[simp] theorem State.writeBank_hip (s : State) (p : BankId) (a : Nat) (bs : List Byte) : (s.writeBank p a bs).hip = s.hip :=
  by cases p <;> rfl
@[simp] theorem State.writeBank_hipOrd (s : State) (p : BankId) (a : Nat) (bs : List Byte) : (s.writeBank p a bs).hipOrd = s.hipOrd :=
  by cases p <;> rfl
@[simp] theorem State.writeBank_hicmp (s : State) (p : BankId) (a : Nat) (bs : List Byte) : (s.writeBank p a bs).hicmp = s.hicmp :=
  by cases p <;> rfl
@[simp] theorem State.writeBank_hudp (s : State) (p : BankId) (a : Nat) (bs : List Byte) : (s.writeBank p a bs).hudp = s.hudp :=
  by cases p <;> rfl
@[simp] theorem State.writeBank_hudpOrd (s : State) (p : BankId) (a : Nat) (bs : List Byte) : (s.writeBank p a bs).hudpOrd = s.hudpOrd :=
  by cases p <;> rfl
@[simp] theorem State.writeBank_fsr (s : State) (p : BankId) (a : Nat) (bs : List Byte) : (s.writeBank p a bs).fsr = s.fsr :=
  by cases p <;> rfl
@[simp] theorem State.writeBank_fcmd (s : State) (p : BankId) (a : Nat) (bs : List Byte) : (s.writeBank p a bs).fcmd = s.fcmd :=
  by cases p <;> rfl
@[simp] theorem State.writeBank_cmd (s : State) (p : BankId) (a : Nat) (bs : List Byte) : (s.writeBank p a bs).cmd = s.cmd :=
  by cases p <;> rfl
@[simp] theorem State.writeBank_host (s : State) (p : BankId) (a : Nat) (bs : List Byte) : (s.writeBank p a bs).host = s.host :=
  by cases p <;> rfl
@[simp] theorem State.writeBank_responses (s : State) (p : BankId) (a : Nat) (bs : List Byte) : (s.writeBank p a bs).responses = s.responses :=
  by cases p <;> rfl
@[simp] theorem State.writeBank_reg (s : State) (p : BankId) (a : Nat) (bs : List Byte) (i : Reg) : (s.writeBank p a bs).reg i = s.reg i :=
  by cases p <;> rfl
@[simp] theorem State.writeBank_rgn (s : State) (p : BankId) (a : Nat) (bs : List Byte) (k : RgnIdx) : (s.writeBank p a bs).rgn k = s.rgn k :=
  by cases p <;> rfl
@[simp] theorem State.writeBank_faulted (s : State) (p : BankId) (a : Nat) (bs : List Byte) : (s.writeBank p a bs).faulted = s.faulted  :=
  by cases p <;> rfl

/-! ### `State.storeWrite` -/

@[simp] theorem State.storeWrite_cfg (s : State) (st : Store) (a : Nat) (bs : List Byte) : (s.storeWrite st a bs).cfg = s.cfg :=
  by
  rcases st with (_ | _) | _ | _ | _ <;> rfl
@[simp] theorem State.storeWrite_xs (s : State) (st : Store) (a : Nat) (bs : List Byte) : (s.storeWrite st a bs).xs = s.xs :=
  by
  rcases st with (_ | _) | _ | _ | _ <;> rfl
@[simp] theorem State.storeWrite_rgns (s : State) (st : Store) (a : Nat) (bs : List Byte) : (s.storeWrite st a bs).rgns = s.rgns :=
  by
  rcases st with (_ | _) | _ | _ | _ <;> rfl
@[simp] theorem State.storeWrite_hipOrd (s : State) (st : Store) (a : Nat) (bs : List Byte) : (s.storeWrite st a bs).hipOrd = s.hipOrd :=
  by
  rcases st with (_ | _) | _ | _ | _ <;> rfl
@[simp] theorem State.storeWrite_hudpOrd (s : State) (st : Store) (a : Nat) (bs : List Byte) : (s.storeWrite st a bs).hudpOrd = s.hudpOrd :=
  by
  rcases st with (_ | _) | _ | _ | _ <;> rfl
@[simp] theorem State.storeWrite_fsr (s : State) (st : Store) (a : Nat) (bs : List Byte) : (s.storeWrite st a bs).fsr = s.fsr :=
  by
  rcases st with (_ | _) | _ | _ | _ <;> rfl
@[simp] theorem State.storeWrite_fcmd (s : State) (st : Store) (a : Nat) (bs : List Byte) : (s.storeWrite st a bs).fcmd = s.fcmd :=
  by
  rcases st with (_ | _) | _ | _ | _ <;> rfl
@[simp] theorem State.storeWrite_cmd (s : State) (st : Store) (a : Nat) (bs : List Byte) : (s.storeWrite st a bs).cmd = s.cmd :=
  by
  rcases st with (_ | _) | _ | _ | _ <;> rfl
@[simp] theorem State.storeWrite_host (s : State) (st : Store) (a : Nat) (bs : List Byte) : (s.storeWrite st a bs).host = s.host :=
  by
  rcases st with (_ | _) | _ | _ | _ <;> rfl
@[simp] theorem State.storeWrite_responses (s : State) (st : Store) (a : Nat) (bs : List Byte) : (s.storeWrite st a bs).responses = s.responses :=
  by
  rcases st with (_ | _) | _ | _ | _ <;> rfl
@[simp] theorem State.storeWrite_reg (s : State) (st : Store) (a : Nat) (bs : List Byte) (i : Reg) : (s.storeWrite st a bs).reg i = s.reg i :=
  by
  rcases st with (_ | _) | _ | _ | _ <;> rfl
@[simp] theorem State.storeWrite_rgn (s : State) (st : Store) (a : Nat) (bs : List Byte) (k : RgnIdx) : (s.storeWrite st a bs).rgn k = s.rgn k :=
  by
  rcases st with (_ | _) | _ | _ | _ <;> rfl
@[simp] theorem State.storeWrite_faulted (s : State) (st : Store) (a : Nat) (bs : List Byte) : (s.storeWrite st a bs).faulted = s.faulted  :=
  by
  rcases st with (_ | _) | _ | _ | _ <;> rfl

/-! ### `State.setNetOrder` -/

@[simp] theorem State.setNetOrder_cfg (s : State) (loc : Loc) (o : Order) : (s.setNetOrder loc o).cfg = s.cfg :=
  by
  rcases loc with (_ | _) | _ <;> rfl
@[simp] theorem State.setNetOrder_xs (s : State) (loc : Loc) (o : Order) : (s.setNetOrder loc o).xs = s.xs :=
  by
  rcases loc with (_ | _) | _ <;> rfl
@[simp] theorem State.setNetOrder_rgns (s : State) (loc : Loc) (o : Order) : (s.setNetOrder loc o).rgns = s.rgns :=
  by
  rcases loc with (_ | _) | _ <;> rfl
@[simp] theorem State.setNetOrder_hip (s : State) (loc : Loc) (o : Order) : (s.setNetOrder loc o).hip = s.hip :=
  by
  rcases loc with (_ | _) | _ <;> rfl
@[simp] theorem State.setNetOrder_hicmp (s : State) (loc : Loc) (o : Order) : (s.setNetOrder loc o).hicmp = s.hicmp :=
  by
  rcases loc with (_ | _) | _ <;> rfl
@[simp] theorem State.setNetOrder_hudp (s : State) (loc : Loc) (o : Order) : (s.setNetOrder loc o).hudp = s.hudp :=
  by
  rcases loc with (_ | _) | _ <;> rfl
@[simp] theorem State.setNetOrder_hudpOrd (s : State) (loc : Loc) (o : Order) : (s.setNetOrder loc o).hudpOrd = s.hudpOrd :=
  by
  rcases loc with (_ | _) | _ <;> rfl
@[simp] theorem State.setNetOrder_fsr (s : State) (loc : Loc) (o : Order) : (s.setNetOrder loc o).fsr = s.fsr :=
  by
  rcases loc with (_ | _) | _ <;> rfl
@[simp] theorem State.setNetOrder_fcmd (s : State) (loc : Loc) (o : Order) : (s.setNetOrder loc o).fcmd = s.fcmd :=
  by
  rcases loc with (_ | _) | _ <;> rfl
@[simp] theorem State.setNetOrder_cmd (s : State) (loc : Loc) (o : Order) : (s.setNetOrder loc o).cmd = s.cmd :=
  by
  rcases loc with (_ | _) | _ <;> rfl
@[simp] theorem State.setNetOrder_host (s : State) (loc : Loc) (o : Order) : (s.setNetOrder loc o).host = s.host :=
  by
  rcases loc with (_ | _) | _ <;> rfl
@[simp] theorem State.setNetOrder_responses (s : State) (loc : Loc) (o : Order) : (s.setNetOrder loc o).responses = s.responses :=
  by
  rcases loc with (_ | _) | _ <;> rfl
@[simp] theorem State.setNetOrder_reg (s : State) (loc : Loc) (o : Order) (i : Reg) : (s.setNetOrder loc o).reg i = s.reg i :=
  by
  rcases loc with (_ | _) | _ <;> rfl
@[simp] theorem State.setNetOrder_rgn (s : State) (loc : Loc) (o : Order) (k : RgnIdx) : (s.setNetOrder loc o).rgn k = s.rgn k :=
  by
  rcases loc with (_ | _) | _ <;> rfl
@[simp] theorem State.setNetOrder_faulted (s : State) (loc : Loc) (o : Order) : (s.setNetOrder loc o).faulted = s.faulted  :=
  by
  rcases loc with (_ | _) | _ <;> rfl
@[simp] theorem State.setNetOrder_storeByte (s : State) (loc : Loc) (o : Order) (st : Store) (a : Nat) : (s.setNetOrder loc o).storeByte st a = s.storeByte st a :=
  by
  rcases loc with (_ | _) | _ <;> rcases st with (_ | _) | _ | _ | _ <;> rfl

/-! ### `State.setTrnOrder` -/

@[simp] theorem State.setTrnOrder_cfg (s : State) (loc : Loc) (o : Order) : (s.setTrnOrder loc o).cfg = s.cfg :=
  by
  rcases loc with (_ | _) | _ <;> rfl
@[simp] theorem State.setTrnOrder_xs (s : State) (loc : Loc) (o : Order) : (s.setTrnOrder loc o).xs = s.xs :=
  by
  rcases loc with (_ | _) | _ <;> rfl
@[simp] theorem State.setTrnOrder_rgns (s : State) (loc : Loc) (o : Order) : (s.setTrnOrder loc o).rgns = s.rgns :=
  by
  rcases loc with (_ | _) | _ <;> rfl
@[simp] theorem State.setTrnOrder_hip (s : State) (loc : Loc) (o : Order) : (s.setTrnOrder loc o).hip = s.hip :=
  by
  rcases loc with (_ | _) | _ <;> rfl
@[simp] theorem State.setTrnOrder_hipOrd (s : State) (loc : Loc) (o : Order) : (s.setTrnOrder loc o).hipOrd = s.hipOrd :=
  by
  rcases loc with (_ | _) | _ <;> rfl
@[simp] theorem State.setTrnOrder_hicmp (s : State) (loc : Loc) (o : Order) : (s.setTrnOrder loc o).hicmp = s.hicmp :=
  by
  rcases loc with (_ | _) | _ <;> rfl
@[simp] theorem State.setTrnOrder_hudp (s : State) (loc : Loc) (o : Order) : (s.setTrnOrder loc o).hudp = s.hudp :=
  by
  rcases loc with (_ | _) | _ <;> rfl
@[simp] theorem State.setTrnOrder_fsr (s : State) (loc : Loc) (o : Order) : (s.setTrnOrder loc o).fsr = s.fsr :=
  by
  rcases loc with (_ | _) | _ <;> rfl
@[simp] theorem State.setTrnOrder_fcmd (s : State) (loc : Loc) (o : Order) : (s.setTrnOrder loc o).fcmd = s.fcmd :=
  by
  rcases loc with (_ | _) | _ <;> rfl
@[simp] theorem State.setTrnOrder_cmd (s : State) (loc : Loc) (o : Order) : (s.setTrnOrder loc o).cmd = s.cmd :=
  by
  rcases loc with (_ | _) | _ <;> rfl
@[simp] theorem State.setTrnOrder_host (s : State) (loc : Loc) (o : Order) : (s.setTrnOrder loc o).host = s.host :=
  by
  rcases loc with (_ | _) | _ <;> rfl
@[simp] theorem State.setTrnOrder_responses (s : State) (loc : Loc) (o : Order) : (s.setTrnOrder loc o).responses = s.responses :=
  by
  rcases loc with (_ | _) | _ <;> rfl
@[simp] theorem State.setTrnOrder_reg (s : State) (loc : Loc) (o : Order) (i : Reg) : (s.setTrnOrder loc o).reg i = s.reg i :=
  by
  rcases loc with (_ | _) | _ <;> rfl
@[simp] theorem State.setTrnOrder_rgn (s : State) (loc : Loc) (o : Order) (k : RgnIdx) : (s.setTrnOrder loc o).rgn k = s.rgn k :=
  by
  rcases loc with (_ | _) | _ <;> rfl
@[simp] theorem State.setTrnOrder_faulted (s : State) (loc : Loc) (o : Order) : (s.setTrnOrder loc o).faulted = s.faulted  :=
  by
  rcases loc with (_ | _) | _ <;> rfl
@[simp] theorem State.setTrnOrder_storeByte (s : State) (loc : Loc) (o : Order) (st : Store) (a : Nat) : (s.setTrnOrder loc o).storeByte st a = s.storeByte st a :=
  by
  rcases loc with (_ | _) | _ <;> rcases st with (_ | _) | _ | _ | _ <;> rfl

/-! ### `State.resetBlock` (rule R250) -/

@[simp] theorem State.resetBlock_cfg (s : State) : s.resetBlock.cfg = s.cfg := rfl
@[simp] theorem State.resetBlock_host (s : State) : s.resetBlock.host = s.host := rfl
@[simp] theorem State.resetBlock_responses (s : State) : s.resetBlock.responses = s.responses := rfl
@[simp] theorem State.resetBlock_fsr (s : State) : s.resetBlock.fsr = 0 := rfl
@[simp] theorem State.resetBlock_fcmd (s : State) : s.resetBlock.fcmd = 0 := rfl
@[simp] theorem State.resetBlock_bank (s : State) (p : BankId) : s.resetBlock.bank p = Bank.reset := by cases p <;> rfl

/-! ### Reading back what was written -/

theorem State.setBank_bank (s : State) (p q : BankId) (b : Bank) :
    (s.setBank p b).bank q = if q = p then b else s.bank q := by
  cases p <;> cases q <;> rfl

@[simp] theorem State.setBank_bank_self (s : State) (p : BankId) (b : Bank) : (s.setBank p b).bank p = b := by
  cases p <;> rfl

theorem State.setBank_bank_other (s : State) {p q : BankId} (b : Bank) (h : q ≠ p) :
    (s.setBank p b).bank q = s.bank q := by
  rw [State.setBank_bank, if_neg h]

/-- Rule R21: `x0` reads 0. -/
@[simp] theorem State.reg_zero (s : State) : s.reg 0 = 0 := rfl

/-- Rule R21: a write to `x0` is discarded. -/
@[simp] theorem State.setReg_zero (s : State) (v : Word) : s.setReg 0 v = s := rfl

/-- Rules R20, R21: what a register reads after a write. -/
theorem State.setReg_reg (s : State) (i j : Reg) (v : Word) :
    (s.setReg i v).reg j = if j = i ∧ i ≠ 0 then v else s.reg j := by
  have hi : i.toNat < 16 := i.isLt
  have hj : j.toNat < 16 := j.isLt
  have key : ∀ a b : Reg, a = b ↔ a.toNat = b.toNat := fun a b => BitVec.toNat_eq
  have hz : (0 : Reg).toNat = 0 := rfl
  by_cases h0 : i = 0
  · subst h0; rw [if_neg (fun h => h.2 rfl)]; rfl
  by_cases hji : j = i
  · subst hji
    rw [if_pos ⟨rfl, h0⟩]
    rw [key, hz] at h0
    obtain ⟨n, hn⟩ := Nat.exists_eq_succ_of_ne_zero h0
    simp only [State.setReg, State.reg, hn]
    rw [Vector.getElem?_setIfInBounds_self_of_lt (by omega)]
    rfl
  · rw [if_neg (fun h => hji h.1)]
    rw [key] at hji
    rw [key, hz] at h0
    obtain ⟨m, hm⟩ := Nat.exists_eq_succ_of_ne_zero h0
    simp only [State.setReg, State.reg, hm]
    rcases hn : j.toNat with _ | n
    · rfl
    · simp only []
      rw [Vector.getElem?_setIfInBounds_ne (by omega)]

/-- Rule R32: what a region descriptor reads after a write. -/
theorem State.setRgn_rgn (s : State) (k j : RgnIdx) (r : Region) :
    (s.setRgn k r).rgn j = if j = k then r else s.rgn j := by
  have hk : k.toNat < 4 := k.isLt
  have key : j = k ↔ j.toNat = k.toNat := BitVec.toNat_eq
  unfold State.setRgn State.rgn
  by_cases h : j = k
  · subst h
    rw [if_pos rfl, Vector.getElem?_setIfInBounds_self_of_lt hk]
    rfl
  · rw [if_neg h, Vector.getElem?_setIfInBounds_ne (by rw [key] at h; omega)]

end Sys2Proof.Machine
end

