-- ==== Sys2Proof/Laws/Memory.lean ====
section
/-! SUPPORT. The laws of the byte memory: what a byte reads after a write, for every address and whatever the memory, and
that every operation keeps the canonical form (rules R37, R51, R66). -/

namespace Sys2Proof.Machine

/-! ### What a byte reads after each operation -/

theorem Memory.read_filter (m : Memory) (keep : Nat → Bool) (a : Nat) :
    Memory.read (m.filter fun c => keep c.1) a = if keep a then m.read a else Memory.unlisted := by
  induction m with
  | nil => simp [Memory.read]
  | cons c m ih =>
    obtain ⟨k, b⟩ := c
    by_cases hk : keep k
    · rw [List.filter_cons_of_pos (by simpa using hk)]
      by_cases h : a = k
      · subst h; simp [Memory.read, hk]
      · simp only [Memory.read, if_neg h, ih]
    · rw [List.filter_cons_of_neg (by simpa using hk), ih]
      by_cases h : a = k
      · subst h; simp [hk]
      · simp only [Memory.read, if_neg h]

theorem Memory.read_insert (m : Memory) (a : Nat) (v : Byte) (x : Nat) (h : ∀ c ∈ m, c.1 ≠ a) :
    (m.insert a v).read x = if x = a then v else m.read x := by
  induction m with
  | nil => simp [Memory.insert, Memory.read]
  | cons c m ih =>
    obtain ⟨k, b⟩ := c
    have hk : k ≠ a := h (k, b) (by simp)
    have hm : ∀ c ∈ m, c.1 ≠ a := fun c hc => h c (by simp [hc])
    unfold Memory.insert
    split
    · simp only [Memory.read]
    · simp only [Memory.read, ih hm]
      by_cases hx : x = k
      · subst hx; rw [if_pos rfl, if_pos rfl, if_neg hk]
      · simp only [if_neg hx]

/-- The read-after-write law, at every address. -/
theorem Memory.read_write (m : Memory) (a : Nat) (v : Byte) (x : Nat) :
    (m.write a v).read x = if x = a then v else m.read x := by
  have hf : Memory.read (m.filter fun c => c.1 != a) x = if x = a then Memory.unlisted else m.read x := by
    have := Memory.read_filter m (fun k => k != a) x
    by_cases h : x = a <;> simpa [h] using this
  unfold Memory.write
  by_cases hv : v = Memory.unlisted
  · simp only [if_pos hv, hf]; simp [hv]
  · simp only [if_neg hv]
    rw [Memory.read_insert _ _ _ _ (by simp), hf]
    by_cases h : x = a <;> simp [h]

theorem Memory.read_clear (m : Memory) (lo hi x : Nat) :
    (m.clear lo hi).read x = if lo ≤ x ∧ x < hi then Memory.unlisted else m.read x := by
  have := Memory.read_filter m (fun k => decide (k < lo) || decide (hi ≤ k)) x
  unfold Memory.clear
  rw [this]
  by_cases h : lo ≤ x ∧ x < hi
  · rw [if_pos h, if_neg (by simp; omega)]
  · rw [if_neg h, if_pos (by simp; omega)]

/-- `MemWrite` (rule R51) stores exactly its bytes. -/
theorem Memory.read_writeBytes (m : Memory) (a : Nat) (bs : List Byte) (x : Nat) :
    (m.writeBytes a bs).read x = if a ≤ x ∧ x < a + bs.length then bs.getD (x - a) 0 else m.read x := by
  induction bs generalizing m a with
  | nil => rw [Memory.writeBytes, if_neg (by simp only [List.length_nil]; omega)]
  | cons b bs ih =>
    rw [Memory.writeBytes, ih, Memory.read_write]
    simp only [List.length_cons]
    by_cases h : a + 1 ≤ x ∧ x < a + 1 + bs.length
    · rw [if_pos h, if_pos (by omega), show x - a = (x - (a + 1)) + 1 by omega, List.getD_cons_succ]
    · rw [if_neg h]
      by_cases hx : x = a
      · subst hx; simp
      · rw [if_neg hx, if_neg (by omega)]

@[simp] theorem Memory.length_readBytes (m : Memory) (a n : Nat) : (m.readBytes a n).length = n := by
  simp [Memory.readBytes]

theorem Memory.getElem?_readBytes (m : Memory) (a n i : Nat) :
    (m.readBytes a n)[i]? = if i < n then some (m.read (a + i)) else none := by
  unfold Memory.readBytes
  by_cases h : i < n <;> simp [h]

/-! ### The canonical form is kept -/

theorem Memory.wf_filter {m : Memory} (keep : Host.Cell → Bool) (h : m.wf) : Memory.wf (m.filter keep) :=
  ⟨h.1.filter _, fun c hc => h.2 c (List.mem_of_mem_filter hc)⟩

theorem Memory.mem_insert (m : Memory) (a : Nat) (v : Byte) (c : Host.Cell) :
    c ∈ m.insert a v ↔ c = (a, v) ∨ c ∈ m := by
  induction m with
  | nil => simp [Memory.insert]
  | cons d m ih =>
    obtain ⟨k, b⟩ := d
    unfold Memory.insert
    split
    · simp
    · simp [ih]; tauto

theorem Memory.wf_insert {m : Memory} {a : Nat} {v : Byte} (h : m.wf) (hv : v ≠ 0) (ha : ∀ c ∈ m, c.1 ≠ a) :
    (m.insert a v).wf := by
  refine ⟨?_, fun c hc => ?_⟩
  · induction m with
    | nil => simp [Memory.insert]
    | cons d m ih =>
      obtain ⟨k, b⟩ := d
      have hd := List.pairwise_cons.mp h.1
      have hk : k ≠ a := ha (k, b) (by simp)
      unfold Memory.insert
      split
      · next hlt =>
        refine List.pairwise_cons.mpr ⟨fun c hc => ?_, h.1⟩
        rcases List.mem_cons.mp hc with rfl | hc
        · exact hlt
        · exact Nat.lt_trans hlt (hd.1 c hc)
      · next hge =>
        refine List.pairwise_cons.mpr ⟨fun c hc => ?_, ih ⟨hd.2, fun c hc => h.2 c (by simp [hc])⟩
          (fun c hc => ha c (by simp [hc]))⟩
        rcases (Memory.mem_insert _ _ _ _).mp hc with rfl | hc
        · show k < a; omega
        · exact hd.1 c hc
  · rcases (Memory.mem_insert _ _ _ _).mp hc with rfl | hc
    · exact hv
    · exact h.2 c hc

theorem Memory.wf_write {m : Memory} (a : Nat) (v : Byte) (h : m.wf) : (m.write a v).wf := by
  unfold Memory.write
  by_cases hv : v = Memory.unlisted
  · simp only [if_pos hv]; exact Memory.wf_filter _ h
  · simp only [if_neg hv]
    exact Memory.wf_insert (Memory.wf_filter _ h) hv (by simp)

theorem Memory.wf_clear {m : Memory} (lo hi : Nat) (h : m.wf) : (m.clear lo hi).wf := Memory.wf_filter _ h

theorem Memory.wf_writeBytes {m : Memory} (a : Nat) (bs : List Byte) (h : m.wf) : (m.writeBytes a bs).wf := by
  induction bs generalizing m a with
  | nil => exact h
  | cons b bs ih => exact ih (a + 1) (Memory.wf_write a b h)

/-- The memories after reset have the canonical form. -/
theorem Memory.wf_reset (p : BankId) : (State.reset.bank p).mem.wf := by cases p <;> decide

/-! ### No entry outside the addresses written -/

theorem Memory.keys_write {m : Memory} {a : Nat} {v : Byte} {c : Host.Cell} (h : c ∈ m.write a v) :
    c.1 = a ∨ c ∈ m := by
  unfold Memory.write at h
  by_cases hv : v = Memory.unlisted
  · simp only [if_pos hv] at h; exact .inr (List.mem_of_mem_filter h)
  · simp only [if_neg hv] at h
    rcases (Memory.mem_insert _ _ _ _).mp h with rfl | h
    · exact .inl rfl
    · exact .inr (List.mem_of_mem_filter h)

theorem Memory.keys_writeBytes {m : Memory} {a : Nat} {bs : List Byte} {c : Host.Cell} (h : c ∈ m.writeBytes a bs) :
    (a ≤ c.1 ∧ c.1 < a + bs.length) ∨ c ∈ m := by
  induction bs generalizing m a with
  | nil => exact .inr h
  | cons b bs ih =>
    rcases ih h with h | h
    · exact .inl ⟨by omega, by simp only [List.length_cons]; omega⟩
    · rcases Memory.keys_write h with h | h
      · exact .inl ⟨by omega, by simp only [List.length_cons]; omega⟩
      · exact .inr h

theorem Memory.keys_clear {m : Memory} {lo hi : Nat} {c : Host.Cell} (h : c ∈ m.clear lo hi) : c ∈ m :=
  List.mem_of_mem_filter h

end Sys2Proof.Machine
end

