-- ==== Sys2Proof/Laws/Ops.lean ====
section
/-! SUPPORT. Once for each shared operation, what it can do: ending a command, the tests of the pseudocode, the operands, the
stores and the step. -/

namespace Sys2Proof.Machine

/-! ### Pseudocode as `Except` -/

theorem Abort.bind_eq_ok {α β : Type} {x : Except Abort α} {f : α → Except Abort β} {b : β} :
    (x >>= f) = .ok b ↔ ∃ a, x = .ok a ∧ f a = .ok b := by
  cases x with
  | error e => simp [bind, Except.bind]
  | ok a => simp [bind, Except.bind]

@[simp] theorem Abort.ok_bind {α β : Type} (a : α) (f : α → Except Abort β) : ((.ok a : Except Abort α) >>= f) = f a := rfl

@[simp] theorem Abort.error_bind {α β : Type} (e : Abort) (f : α → Except Abort β) :
    ((.error e : Except Abort α) >>= f) = .error e := rfl

@[simp] theorem Abort.pure_eq {α : Type} (a : α) : (pure a : Except Abort α) = .ok a := rfl

@[simp] theorem stopIf_pos {c : Prop} [Decidable c] (a : Abort) (h : c) : stopIf c a = .error a := if_pos h

@[simp] theorem stopIf_neg {c : Prop} [Decidable c] (a : Abort) (h : ¬c) : stopIf c a = .ok () := if_neg h

theorem stopIf_eq_ok {c : Prop} [Decidable c] {a : Abort} {u : Unit} : stopIf c a = .ok u ↔ ¬c := by
  by_cases h : c <;> simp [h]

/-! ### Ending a command -/

/-- `t` is `s` after a command that did not complete: turned away in the faulted state, refused, or taking a fault. -/
def State.Stopped (s t : State) : Prop :=
  (s.faulted = true ∧ t = s.reply .stFaulted s.fsr) ∨ (s.faulted = false ∧ ∃ a, t = s.abort a)

/-- What every ending short of completion leaves alone: all but the response and, after a fault, `FSR` and `FCMD`. -/
theorem State.Stopped.frame {s t : State} (h : s.Stopped t) :
    ∃ r f c, t = { s with fsr := f, fcmd := c, responses := r :: s.responses } := by
  rcases h with ⟨-, rfl⟩ | ⟨-, a, rfl⟩
  · exact ⟨_, s.fsr, s.fcmd, rfl⟩
  · cases a with
    | raise c => exact ⟨_, _, _, rfl⟩
    | none => exact ⟨_, s.fsr, s.fcmd, rfl⟩
    | notRep => exact ⟨_, s.fsr, s.fcmd, rfl⟩
    | noRoom => exact ⟨_, s.fsr, s.fcmd, rfl⟩

/-- A command that did not complete did not answer `ST_OK`. -/
theorem State.Stopped.not_ok {s t : State} (h : s.Stopped t) (v : Word) :
    t.lastResponse ≠ some { status := .stOk, value := v } := by
  rcases h with ⟨-, rfl⟩ | ⟨-, a, rfl⟩
  · simp [State.lastResponse, State.reply]
  · cases a <;> simp [State.lastResponse, State.abort, State.raise, State.reply]

theorem State.illegalWord_stopped (s : State) : s.Stopped s.illegalWord := by
  unfold State.illegalWord
  split
  · next h => exact .inl ⟨h, rfl⟩
  · next h => exact .inr ⟨by simpa using h, .raise .illegal, rfl⟩

theorem State.commandValue_ok {s : State} (h : s.faulted = false) (rd : Reg) (v : Word) :
    s.commandValue rd (.ok v) = .next ((s.setReg rd v).reply .stOk v) := by
  simp [State.commandValue, h]

theorem State.commandValue_error {s : State} (h : s.faulted = false) (rd : Reg) (a : Abort) :
    s.commandValue rd (.error a) = .next (s.abort a) := by
  simp [State.commandValue, h]

theorem State.commandValue_faulted {s : State} (h : s.faulted = true) (rd : Reg) (body : Except Abort Word) :
    s.commandValue rd body = .next (s.reply .stFaulted s.fsr) := by
  simp [State.commandValue, h]

theorem State.commandEffect_ok {s : State} (h : s.faulted = false) (t : State) :
    s.commandEffect (.ok t) = .next (t.reply .stOk 0) := by
  simp [State.commandEffect, h]

theorem State.commandEffect_error {s : State} (h : s.faulted = false) (a : Abort) :
    s.commandEffect (.error a) = .next (s.abort a) := by
  simp [State.commandEffect, h]

theorem State.commandEffect_faulted {s : State} (h : s.faulted = true) (body : Except Abort State) :
    s.commandEffect body = .next (s.reply .stFaulted s.fsr) := by
  simp [State.commandEffect, h]

/-- All a command with a destination can do. -/
theorem State.commandValue_cases {s t : State} {rd : Reg} {body : Except Abort Word}
    (h : s.commandValue rd body = .next t) :
    (s.faulted = true ∧ t = s.reply .stFaulted s.fsr) ∨
      (s.faulted = false ∧ ∃ a, body = .error a ∧ t = s.abort a) ∨
      (s.faulted = false ∧ ∃ v, body = .ok v ∧ t = (s.setReg rd v).reply .stOk v) := by
  rcases hf : s.faulted with _ | _
  · rcases body with a | v
    · rw [State.commandValue_error hf] at h; cases h; exact .inr (.inl ⟨rfl, _, rfl, rfl⟩)
    · rw [State.commandValue_ok hf] at h; cases h; exact .inr (.inr ⟨rfl, _, rfl, rfl⟩)
  · rw [State.commandValue_faulted hf] at h; cases h; exact .inl ⟨rfl, rfl⟩

/-- All a command without a destination can do. -/
theorem State.commandEffect_cases {s t : State} {body : Except Abort State} (h : s.commandEffect body = .next t) :
    (s.faulted = true ∧ t = s.reply .stFaulted s.fsr) ∨
      (s.faulted = false ∧ ∃ a, body = .error a ∧ t = s.abort a) ∨
      (s.faulted = false ∧ ∃ u, body = .ok u ∧ t = u.reply .stOk 0) := by
  rcases hf : s.faulted with _ | _
  · rcases body with a | u
    · rw [State.commandEffect_error hf] at h; cases h; exact .inr (.inl ⟨rfl, _, rfl, rfl⟩)
    · rw [State.commandEffect_ok hf] at h; cases h; exact .inr (.inr ⟨rfl, _, rfl, rfl⟩)
  · rw [State.commandEffect_faulted hf] at h; cases h; exact .inl ⟨rfl, rfl⟩

theorem State.commandValue_stopped_or {s t : State} {rd : Reg} {body : Except Abort Word}
    (h : s.commandValue rd body = .next t) :
    s.Stopped t ∨ ∃ v, body = .ok v ∧ t = (s.setReg rd v).reply .stOk v := by
  rcases State.commandValue_cases h with ⟨hf, rfl⟩ | ⟨hf, a, -, rfl⟩ | ⟨-, v, hv, rfl⟩
  · exact .inl (.inl ⟨hf, rfl⟩)
  · exact .inl (.inr ⟨hf, a, rfl⟩)
  · exact .inr ⟨v, hv, rfl⟩

theorem State.commandEffect_stopped_or {s t : State} {body : Except Abort State} (h : s.commandEffect body = .next t) :
    s.Stopped t ∨ ∃ u, body = .ok u ∧ t = u.reply .stOk 0 := by
  rcases State.commandEffect_cases h with ⟨hf, rfl⟩ | ⟨hf, a, -, rfl⟩ | ⟨-, u, hu, rfl⟩
  · exact .inl (.inl ⟨hf, rfl⟩)
  · exact .inl (.inr ⟨hf, a, rfl⟩)
  · exact .inr ⟨u, hu, rfl⟩

/-- `respond(v)` leaves the state that `State.Answered` describes. -/
theorem State.answered (s : State) (rd : Reg) (v : Word) : s.Answered ((s.setReg rd v).reply .stOk v) rd v := by
  refine ⟨?_, fun r => ?_⟩
  · unfold State.setReg State.reply
    split <;> rfl
  · rw [State.reply_reg, State.setReg_reg]
    by_cases h : r = rd
    · subst h; simp
    · simp [h]

theorem State.abort_onlyResponds_or_faults (s : State) (a : Abort) :
    (a = .none ∧ s.OnlyResponds (s.abort a) { status := .stNone, value := 0 }) ∨
      (a = .notRep ∧ s.OnlyResponds (s.abort a) { status := .stNotRep, value := 0 }) ∨
      (a = .noRoom ∧ s.OnlyResponds (s.abort a) { status := .stNoRoom, value := 0 }) ∨
      ∃ c, a = .raise c ∧ s.OnlyFaults (s.abort a) c := by
  cases a with
  | none => exact .inl ⟨rfl, rfl⟩
  | notRep => exact .inr (.inl ⟨rfl, rfl⟩)
  | noRoom => exact .inr (.inr (.inl ⟨rfl, rfl⟩))
  | raise c => exact .inr (.inr (.inr ⟨c, rfl, rfl⟩))

/-! ### Regions -/

theorem State.rgnBytes_eq (s : State) (k : RgnIdx) :
    s.rgnBytes k = if s.RegionFits k then .ok (s.regionBytes k) else .error (.raise .bounds) := by
  unfold State.rgnBytes State.RegionFits
  by_cases h : (s.rgn k).base.toNat + (s.rgn k).len.toNat ≤ (s.bank (s.rgn k).bank).plen
  · rw [if_pos h]; simp only [gt_iff_lt, Nat.not_lt.mpr h, if_false]; rfl
  · rw [if_neg h]; simp only [gt_iff_lt, Nat.lt_of_not_le h, if_true]

@[simp] theorem State.length_regionBytes (s : State) (k : RgnIdx) : (s.regionBytes k).length = (s.rgn k).len.toNat := by
  simp [State.regionBytes]

/-! ### Header views -/

@[simp] theorem State.hv_stage (s : State) (kind : Kind) :
    s.hv kind .stage = .ok { store := kind.stageStore, off := 0, avail := kind.minLen, ord := kind.stageOrder s } := rfl

/-- Rule R54: a view in a bank. -/
theorem State.hv_bank {s : State} {kind : Kind} {p : BankId} {v : View} (h : s.hv kind (.bank p) = .ok v) :
    ∃ off, kind.anchor (s.bank p) = some off ∧ kind.minLen ≤ (s.bank p).plen - off ∧
      v = { store := .bank p, off := off, avail := (s.bank p).plen - off, ord := kind.bankOrder (s.bank p) } := by
  unfold State.hv at h
  split at h
  · next heq => cases heq
  · next heq =>
    cases heq
    split at h
    · cases h
    · next off hoff =>
      split at h
      · cases h
      · next hlen =>
        cases h
        exact ⟨off, hoff, Nat.le_of_not_lt hlen, rfl⟩

theorem State.hv_bank_none {s : State} {kind : Kind} {p : BankId} (h : kind.anchor (s.bank p) = none) :
    s.hv kind (.bank p) = .error .none := by
  unfold State.hv
  simp only [h]

theorem State.hv_bank_some {s : State} {kind : Kind} {p : BankId} {off : Nat} (h : kind.anchor (s.bank p) = some off) :
    s.hv kind (.bank p) =
      if (s.bank p).plen - off < kind.minLen then .error .notRep
      else .ok { store := .bank p, off := off, avail := (s.bank p).plen - off, ord := kind.bankOrder (s.bank p) } := by
  unfold State.hv
  simp only [h]

/-- The fixed header lies in the bytes available. -/
theorem State.hv_avail {s : State} {kind : Kind} {loc : Loc} {v : View} (h : s.hv kind loc = .ok v) :
    kind.minLen ≤ v.avail := by
  rcases loc with p | _
  · obtain ⟨off, -, hlen, rfl⟩ := State.hv_bank h; exact hlen
  · cases h; exact Nat.le_refl _

/-- A store has bytes up to index `n`. -/
def Store.Holds : Store → Nat → Prop
  | .bank _, _ => True
  | .hip, n => n ≤ 20
  | .hicmp, n => n ≤ 4
  | .hudp, n => n ≤ 8

/-- The store of a view holds every byte of the fixed header. -/
theorem State.hv_holds {s : State} {kind : Kind} {loc : Loc} {v : View} (h : s.hv kind loc = .ok v) {n : Nat}
    (hn : n ≤ kind.minLen) : v.store.Holds (v.off + n) := by
  rcases loc with p | _
  · obtain ⟨off, -, -, rfl⟩ := State.hv_bank h; trivial
  · cases h
    cases kind <;> simpa [Store.Holds, Kind.stageStore, Kind.minLen, Config.ipHdr, Config.icmpHdr, Config.udpHdr] using hn

/-! ### Stores -/

theorem stageWrite_get {n : Nat} (v : Vector Byte n) (a : Nat) (bs : List Byte) (x : Nat) (h : a + bs.length ≤ n) :
    (stageWrite v a bs)[x]?.getD 0 =
      if a ≤ x ∧ x < a + bs.length then bs.getD (x - a) 0 else v[x]?.getD 0 := by
  induction bs generalizing v a with
  | nil => rw [stageWrite, if_neg (by simp only [List.length_nil]; omega)]
  | cons b bs ih =>
    simp only [List.length_cons] at h
    rw [stageWrite, ih _ _ (by omega)]
    simp only [List.length_cons]
    by_cases hx : a + 1 ≤ x ∧ x < a + 1 + bs.length
    · rw [if_pos hx, if_pos (by omega), show x - a = (x - (a + 1)) + 1 by omega, List.getD_cons_succ]
    · rw [if_neg hx]
      by_cases hxa : x = a
      · subst hxa
        rw [if_pos (by omega), Vector.getElem?_setIfInBounds_self_of_lt (by omega)]
        simp
      · rw [if_neg (by omega), Vector.getElem?_setIfInBounds_ne (by omega)]

/-- The read-after-write law of every byte store, at every index. -/
theorem State.storeByte_storeWrite (s : State) (st st' : Store) (a : Nat) (bs : List Byte) (x : Nat)
    (h : st.Holds (a + bs.length)) :
    (s.storeWrite st a bs).storeByte st' x =
      if st' = st ∧ a ≤ x ∧ x < a + bs.length then bs.getD (x - a) 0 else s.storeByte st' x := by
  by_cases hst : st' = st
  · subst hst
    simp only [true_and]
    rcases st' with p | _ | _ | _
    · simp only [State.storeWrite, State.writeBank, State.storeByte, State.setBank_bank_self]
      exact Memory.read_writeBytes _ _ _ _
    · exact stageWrite_get _ _ _ _ h
    · exact stageWrite_get _ _ _ _ h
    · exact stageWrite_get _ _ _ _ h
  · simp only [hst, false_and, if_false]
    rcases st with (_ | _) | _ | _ | _ <;> rcases st' with (_ | _) | _ | _ | _ <;>
      first | rfl | exact absurd rfl hst

@[simp] theorem State.length_storeBytes (s : State) (st : Store) (a n : Nat) : (s.storeBytes st a n).length = n := by
  simp [State.storeBytes]

theorem State.getD_storeBytes (s : State) (st : Store) (a n i : Nat) (h : i < n) :
    (s.storeBytes st a n).getD i 0 = s.storeByte st (a + i) := by
  simp [State.storeBytes, h]

@[simp] theorem State.length_bytesAt (s : State) (v : View) (i n : Nat) : (s.bytesAt v i n).length = n := by
  simp [State.bytesAt]

theorem State.getD_bytesAt (s : State) (v : View) (i n j : Nat) (h : j < n) :
    (s.bytesAt v i n).getD j 0 = s.byteAt v (i + j) := by
  rw [State.bytesAt, State.getD_storeBytes _ _ _ _ _ h, State.byteAt, Nat.add_assoc]

theorem State.bytesAt_zero (s : State) (v : View) (n : Nat) : s.bytesAt v 0 n = s.imageBytes v n := by
  simp [State.bytesAt, State.storeBytes, State.imageBytes, State.byteAt]

@[simp] theorem length_bytesBE16 (v : Half) : (bytesBE16 v).length = 2 := rfl
@[simp] theorem length_bytesLE16 (v : Half) : (bytesLE16 v).length = 2 := rfl
@[simp] theorem length_encode16 (o : Order) (v : Half) : (encode16 o v).length = 2 := by cases o <;> rfl

theorem be16_bytes (v : Half) : be16 (v.extractLsb' 8 8) (v.extractLsb' 0 8) = v := by
  unfold be16
  ext i hi
  simp only [BitVec.getElem_append, BitVec.getElem_extractLsb']
  split
  · simp [BitVec.getLsbD_eq_getElem hi]
  · rw [show 8 + (i - 8) = i by omega, BitVec.getLsbD_eq_getElem hi]

/-- Rule R53: a field decodes to the number it encodes. -/
theorem decode16_encode16 (o : Order) (v : Half) :
    decode16 o ((encode16 o v).getD 0 0) ((encode16 o v).getD 1 0) = v := by
  cases o <;> exact be16_bytes v

/-! ### The step -/

/-- All a step can do. -/
theorem step_cases {s t : State} (h : step s = .next t) :
    (s.host = [] ∧ t = s) ∨
      (∃ w rest i, s.host = .issue w :: rest ∧ decode w = .ok i ∧ exec i (s.present w rest) = .next t) ∨
      (∃ w rest e, s.host = .issue w :: rest ∧ decode w = .error e ∧ t = (s.present w rest).illegalWord) ∨
      (∃ rest, s.host = .reset :: rest ∧ t = ({ s with host := rest } : State).resetBlock) := by
  unfold step hostStep at h
  split at h
  · next hh => cases h; exact .inl ⟨hh, rfl⟩
  · next w rest hh =>
    unfold runWord at h
    split at h
    · next i hi => exact .inr (.inl ⟨w, rest, i, hh, hi, h⟩)
    · next e he => cases h; exact .inr (.inr (.inl ⟨w, rest, e, hh, he, rfl⟩))
  · next rest hh => cases h; exact .inr (.inr (.inr ⟨rest, hh, rfl⟩))

/-- A run of `k + 1` steps is a step and a run of `k`. -/
theorem run_succ {M : Host.Core} {k : Nat} {s t : M.State} (h : M.step s = .next t) : M.run (k + 1) s = M.run k t := by
  rw [Host.Core.run, h]

/-- The same of the machine of this package. -/
theorem core_run_succ {k : Nat} {s t : State} (h : step s = .next t) :
    Sys2Proof.core.run (k + 1) s = Sys2Proof.core.run k t :=
  run_succ (M := Sys2Proof.core) h

end Sys2Proof.Machine
end

