-- ==== Sys2Proof/Laws/Checksum.lean ====
section
/-! SUPPORT. The checksum functions as natural numbers: one step of the fold, the words of a byte sequence and their sum,
and a field decoded by its tag. -/

namespace Sys2Proof.Machine

/-- Rule R100: what one step of the fold computes. -/
theorem fold_toNat (a v : Half) :
    (fold a v).toNat =
      if 0xFFFF < a.toNat + v.toNat then a.toNat + v.toNat - 0x10000 + 1 else a.toNat + v.toNat := by
  unfold fold
  have := a.isLt
  have := v.isLt
  split
  · next h => rw [if_pos h, BitVec.toNat_ofNat]; omega
  · next h => rw [if_neg h, BitVec.toNat_ofNat]; omega

/-- Rule R102: the checksum is the complement of the final accumulator. -/
theorem csum_toNat (bs : List Byte) (seed : Half) :
    (csum bs seed).toNat = 0xFFFF - ((words bs).foldl fold (~~~seed)).toNat := by
  unfold csum
  rw [BitVec.toNat_not]

/-! ### Bytes and words (rules R9, R53, R101) -/

theorem be16_toNat (b0 b1 : Byte) : (be16 b0 b1).toNat = b0.toNat * 256 + b1.toNat := by
  unfold be16
  rw [BitVec.toNat_append, ← Nat.shiftLeft_add_eq_or_of_lt b1.isLt, Nat.shiftLeft_eq]

theorem be32_toNat (b0 b1 b2 b3 : Byte) :
    (be32 b0 b1 b2 b3).toNat = b0.toNat * 2 ^ 24 + b1.toNat * 2 ^ 16 + b2.toNat * 2 ^ 8 + b3.toNat := by
  unfold be32
  rw [BitVec.toNat_append, ← Nat.shiftLeft_add_eq_or_of_lt b3.isLt, Nat.shiftLeft_eq, BitVec.toNat_append,
    ← Nat.shiftLeft_add_eq_or_of_lt b2.isLt, Nat.shiftLeft_eq, BitVec.toNat_append,
    ← Nat.shiftLeft_add_eq_or_of_lt b1.isLt, Nat.shiftLeft_eq]
  omega

theorem decode16_toNat (o : Order) (b0 b1 : Byte) :
    (decode16 o b0 b1).toNat =
      if o = .wire then b0.toNat * 256 + b1.toNat else b1.toNat * 256 + b0.toNat := by
  cases o
  · exact be16_toNat b0 b1
  · exact be16_toNat b1 b0

theorem decode32_toNat (o : Order) (b0 b1 b2 b3 : Byte) :
    (decode32 o b0 b1 b2 b3).toNat =
      if o = .wire then b0.toNat * 2 ^ 24 + b1.toNat * 2 ^ 16 + b2.toNat * 2 ^ 8 + b3.toNat
      else b3.toNat * 2 ^ 24 + b2.toNat * 2 ^ 16 + b1.toNat * 2 ^ 8 + b0.toNat := by
  cases o
  · exact be32_toNat b0 b1 b2 b3
  · exact be32_toNat b3 b2 b1 b0

/-- Rule R140: the two nibbles of a byte. -/
theorem nibbles_toNat (b : Byte) :
    (b.extractLsb' 4 4).toNat = b.toNat / 16 ∧ (b.extractLsb' 0 4).toNat = b.toNat % 16 := by
  have := b.isLt
  simp [BitVec.extractLsb'_toNat, Nat.shiftRight_eq_div_pow]
  omega

/-- Words pair from the first byte, so an even prefix splits off. -/
theorem words_append (as bs : List Byte) (h : as.length % 2 = 0) : words (as ++ bs) = words as ++ words bs := by
  match as with
  | [] => simp [words]
  | [b] => simp at h
  | a :: b :: as =>
    simp only [List.cons_append, words]
    rw [words_append as bs (by simp at h; omega)]

theorem wordSum_cons_cons (a b : Byte) (bs : List Byte) : wordSum (a :: b :: bs) = a.toNat * 256 + b.toNat + wordSum bs := by
  simp [wordSum, words, be16_toNat]

/-- How the sum of the words moves when one byte is replaced. -/
theorem wordSum_set (bs : List Byte) (i : Nat) (b : Byte) (h : i < bs.length) :
    wordSum (bs.set i b) + (if i % 2 = 0 then 256 else 1) * (bs.getD i 0).toNat =
      wordSum bs + (if i % 2 = 0 then 256 else 1) * b.toNat := by
  match bs, i with
  | [], _ => simp at h
  | [x], 0 => simp [wordSum, words, be16_toNat]; omega
  | [x], i + 1 => simp at h
  | x :: y :: bs, 0 => simp [wordSum_cons_cons]; omega
  | x :: y :: bs, 1 => simp [wordSum_cons_cons]; omega
  | x :: y :: bs, i + 2 =>
    have := wordSum_set bs i b (by simp at h; omega)
    simp only [List.set_cons_succ, wordSum_cons_cons, List.getD_cons_succ, Nat.add_mod_right] at *
    omega

theorem wordSum_zeroWordAt (bs : List Byte) (i : Nat) (h : 2 * i + 1 < bs.length) :
    wordSum (zeroWordAt bs (2 * i)) + (be16 (bs.getD (2 * i) 0) (bs.getD (2 * i + 1) 0)).toNat = wordSum bs := by
  unfold zeroWordAt
  have h1 := wordSum_set (bs.set (2 * i) 0) (2 * i + 1) 0 (by simpa using h)
  have h2 := wordSum_set bs (2 * i) 0 (by omega)
  rw [be16_toNat]
  simp at h1 h2 ⊢
  omega

/-- Storing a word where a zero word stood adds it to the sum. -/
theorem wordSum_storeWordAt (bs : List Byte) (i : Nat) (v : Half) (h : 2 * i + 1 < bs.length) :
    wordSum (storeWordAt bs (2 * i) v) = wordSum (zeroWordAt bs (2 * i)) + v.toNat := by
  have hz : zeroWordAt (storeWordAt bs (2 * i) v) (2 * i) = zeroWordAt bs (2 * i) := by
    unfold storeWordAt zeroWordAt
    apply List.ext_getElem
    · simp
    · intro n h1 h2
      simp [List.getElem_set]
      split
      · rfl
      · split <;> rfl
  have hs := wordSum_zeroWordAt (storeWordAt bs (2 * i) v) i (by simpa [storeWordAt] using h)
  have e1 : (storeWordAt bs (2 * i) v).getD (2 * i) 0 = v.extractLsb' 8 8 := by
    have h1 : 2 * i < bs.length := by omega
    simp [storeWordAt, h1]
  have e2 : (storeWordAt bs (2 * i) v).getD (2 * i + 1) 0 = v.extractLsb' 0 8 := by
    simp [storeWordAt, h]
  rw [hz, e1, e2, be16_bytes] at hs
  exact hs.symm

end Sys2Proof.Machine
end

