-- ==== Sys2Proof/Laws/Decode.lean ====
section
/-! SUPPORT. The fields of the four formats (rules R71 to R74): a format's word has the fields it was made of, and a word is
the format of its own fields. -/

namespace Sys2Proof

/-! ### Format I -/

@[simp] theorem fieldOp_formatI (op : BitVec 8) (rd : Reg) (imm16 : Half) :
    fieldOp (formatI op rd imm16) = op := by
  ext i hi
  simp only [fieldOp, formatI, BitVec.getElem_extractLsb', BitVec.getLsbD_append]
  interval_cases i <;> simp

@[simp] theorem fieldRd_formatI (op : BitVec 8) (rd : Reg) (imm16 : Half) :
    fieldRd (formatI op rd imm16) = rd := by
  ext i hi
  simp only [fieldRd, formatI, BitVec.getElem_extractLsb', BitVec.getLsbD_append]
  interval_cases i <;> simp

@[simp] theorem fieldRs1_formatI (op : BitVec 8) (rd : Reg) (imm16 : Half) :
    fieldRs1 (formatI op rd imm16) = 0 := by
  ext i hi
  simp only [fieldRs1, formatI, BitVec.getElem_extractLsb', BitVec.getLsbD_append]
  interval_cases i <;> simp

@[simp] theorem fieldImm16_formatI (op : BitVec 8) (rd : Reg) (imm16 : Half) :
    fieldImm16 (formatI op rd imm16) = imm16 := by
  ext i hi
  simp only [fieldImm16, formatI, BitVec.getElem_extractLsb', BitVec.getLsbD_append]
  interval_cases i <;> simp

/-! ### Format R -/

@[simp] theorem fieldOp_formatR (op : BitVec 8) (rd rs1 rs2 rs3 : Reg) :
    fieldOp (formatR op rd rs1 rs2 rs3) = op := by
  ext i hi
  simp only [fieldOp, formatR, BitVec.getElem_extractLsb', BitVec.getLsbD_append]
  interval_cases i <;> simp

@[simp] theorem fieldRd_formatR (op : BitVec 8) (rd rs1 rs2 rs3 : Reg) :
    fieldRd (formatR op rd rs1 rs2 rs3) = rd := by
  ext i hi
  simp only [fieldRd, formatR, BitVec.getElem_extractLsb', BitVec.getLsbD_append]
  interval_cases i <;> simp

@[simp] theorem fieldRs1_formatR (op : BitVec 8) (rd rs1 rs2 rs3 : Reg) :
    fieldRs1 (formatR op rd rs1 rs2 rs3) = rs1 := by
  ext i hi
  simp only [fieldRs1, formatR, BitVec.getElem_extractLsb', BitVec.getLsbD_append]
  interval_cases i <;> simp

@[simp] theorem fieldRs2_formatR (op : BitVec 8) (rd rs1 rs2 rs3 : Reg) :
    fieldRs2 (formatR op rd rs1 rs2 rs3) = rs2 := by
  ext i hi
  simp only [fieldRs2, formatR, BitVec.getElem_extractLsb', BitVec.getLsbD_append]
  interval_cases i <;> simp

@[simp] theorem fieldRs3_formatR (op : BitVec 8) (rd rs1 rs2 rs3 : Reg) :
    fieldRs3 (formatR op rd rs1 rs2 rs3) = rs3 := by
  ext i hi
  simp only [fieldRs3, formatR, BitVec.getElem_extractLsb', BitVec.getLsbD_append]
  interval_cases i <;> simp

@[simp] theorem fieldLow8_formatR (op : BitVec 8) (rd rs1 rs2 rs3 : Reg) :
    fieldLow8 (formatR op rd rs1 rs2 rs3) = 0 := by
  ext i hi
  simp only [fieldLow8, formatR, BitVec.getElem_extractLsb', BitVec.getLsbD_append]
  interval_cases i <;> simp

/-! ### Format S -/

@[simp] theorem fieldOp_formatS (op : BitVec 8) (rd rs1 rs2 rs3 : Reg) (loc k j : BitVec 2) :
    fieldOp (formatS op rd rs1 rs2 rs3 loc k j) = op := by
  ext i hi
  simp only [fieldOp, formatS, BitVec.getElem_extractLsb', BitVec.getLsbD_append]
  interval_cases i <;> simp

@[simp] theorem fieldRd_formatS (op : BitVec 8) (rd rs1 rs2 rs3 : Reg) (loc k j : BitVec 2) :
    fieldRd (formatS op rd rs1 rs2 rs3 loc k j) = rd := by
  ext i hi
  simp only [fieldRd, formatS, BitVec.getElem_extractLsb', BitVec.getLsbD_append]
  interval_cases i <;> simp

@[simp] theorem fieldRs1_formatS (op : BitVec 8) (rd rs1 rs2 rs3 : Reg) (loc k j : BitVec 2) :
    fieldRs1 (formatS op rd rs1 rs2 rs3 loc k j) = rs1 := by
  ext i hi
  simp only [fieldRs1, formatS, BitVec.getElem_extractLsb', BitVec.getLsbD_append]
  interval_cases i <;> simp

@[simp] theorem fieldRs2_formatS (op : BitVec 8) (rd rs1 rs2 rs3 : Reg) (loc k j : BitVec 2) :
    fieldRs2 (formatS op rd rs1 rs2 rs3 loc k j) = rs2 := by
  ext i hi
  simp only [fieldRs2, formatS, BitVec.getElem_extractLsb', BitVec.getLsbD_append]
  interval_cases i <;> simp

@[simp] theorem fieldRs3_formatS (op : BitVec 8) (rd rs1 rs2 rs3 : Reg) (loc k j : BitVec 2) :
    fieldRs3 (formatS op rd rs1 rs2 rs3 loc k j) = rs3 := by
  ext i hi
  simp only [fieldRs3, formatS, BitVec.getElem_extractLsb', BitVec.getLsbD_append]
  interval_cases i <;> simp

@[simp] theorem fieldLoc_formatS (op : BitVec 8) (rd rs1 rs2 rs3 : Reg) (loc k j : BitVec 2) :
    fieldLoc (formatS op rd rs1 rs2 rs3 loc k j) = loc := by
  ext i hi
  simp only [fieldLoc, formatS, BitVec.getElem_extractLsb', BitVec.getLsbD_append]
  interval_cases i <;> simp

@[simp] theorem fieldK_formatS (op : BitVec 8) (rd rs1 rs2 rs3 : Reg) (loc k j : BitVec 2) :
    fieldK (formatS op rd rs1 rs2 rs3 loc k j) = k := by
  ext i hi
  simp only [fieldK, formatS, BitVec.getElem_extractLsb', BitVec.getLsbD_append]
  interval_cases i <;> simp

@[simp] theorem fieldJ_formatS (op : BitVec 8) (rd rs1 rs2 rs3 : Reg) (loc k j : BitVec 2) :
    fieldJ (formatS op rd rs1 rs2 rs3 loc k j) = j := by
  ext i hi
  simp only [fieldJ, formatS, BitVec.getElem_extractLsb', BitVec.getLsbD_append]
  interval_cases i <;> simp

@[simp] theorem fieldLow2_formatS (op : BitVec 8) (rd rs1 rs2 rs3 : Reg) (loc k j : BitVec 2) :
    fieldLow2 (formatS op rd rs1 rs2 rs3 loc k j) = 0 := by
  ext i hi
  simp only [fieldLow2, formatS, BitVec.getElem_extractLsb', BitVec.getLsbD_append]
  interval_cases i <;> simp

/-! ### Format F -/

@[simp] theorem fieldOp_formatF (op : BitVec 8) (rd : Reg) (loc : BitVec 2) (fld : BitVec 4) :
    fieldOp (formatF op rd loc fld) = op := by
  ext i hi
  simp only [fieldOp, formatF, BitVec.getElem_extractLsb', BitVec.getLsbD_append]
  interval_cases i <;> simp

@[simp] theorem fieldRd_formatF (op : BitVec 8) (rd : Reg) (loc : BitVec 2) (fld : BitVec 4) :
    fieldRd (formatF op rd loc fld) = rd := by
  ext i hi
  simp only [fieldRd, formatF, BitVec.getElem_extractLsb', BitVec.getLsbD_append]
  interval_cases i <;> simp

@[simp] theorem fieldRs1_formatF (op : BitVec 8) (rd : Reg) (loc : BitVec 2) (fld : BitVec 4) :
    fieldRs1 (formatF op rd loc fld) = 0 := by
  ext i hi
  simp only [fieldRs1, formatF, BitVec.getElem_extractLsb', BitVec.getLsbD_append]
  interval_cases i <;> simp

@[simp] theorem fieldRs2_formatF (op : BitVec 8) (rd : Reg) (loc : BitVec 2) (fld : BitVec 4) :
    fieldRs2 (formatF op rd loc fld) = 0 := by
  ext i hi
  simp only [fieldRs2, formatF, BitVec.getElem_extractLsb', BitVec.getLsbD_append]
  interval_cases i <;> simp

@[simp] theorem fieldRs3_formatF (op : BitVec 8) (rd : Reg) (loc : BitVec 2) (fld : BitVec 4) :
    fieldRs3 (formatF op rd loc fld) = 0 := by
  ext i hi
  simp only [fieldRs3, formatF, BitVec.getElem_extractLsb', BitVec.getLsbD_append]
  interval_cases i <;> simp

@[simp] theorem fieldLoc_formatF (op : BitVec 8) (rd : Reg) (loc : BitVec 2) (fld : BitVec 4) :
    fieldLoc (formatF op rd loc fld) = loc := by
  ext i hi
  simp only [fieldLoc, formatF, BitVec.getElem_extractLsb', BitVec.getLsbD_append]
  interval_cases i <;> simp

@[simp] theorem fieldK_formatF (op : BitVec 8) (rd : Reg) (loc : BitVec 2) (fld : BitVec 4) :
    fieldK (formatF op rd loc fld) = 0 := by
  ext i hi
  simp only [fieldK, formatF, BitVec.getElem_extractLsb', BitVec.getLsbD_append]
  interval_cases i <;> simp

@[simp] theorem fieldFld_formatF (op : BitVec 8) (rd : Reg) (loc : BitVec 2) (fld : BitVec 4) :
    fieldFld (formatF op rd loc fld) = fld := by
  ext i hi
  simp only [fieldFld, formatF, BitVec.getElem_extractLsb', BitVec.getLsbD_append]
  interval_cases i <;> simp

/-! ### A word from its own fields -/

/-- Rule R71. -/
theorem formatI_fields (w : Word) (h : fieldRs1 w = 0) :
    formatI (fieldOp w) (fieldRd w) (fieldImm16 w) = w := by
  rw [formatI, ← show fieldRs1 w = 0#4 from h]
  simp only [fieldOp, fieldRd, fieldRs1, fieldImm16]
  rw [BitVec.extractLsb'_append_extractLsb'_eq_extractLsb' (by omega)]
  rw [BitVec.extractLsb'_append_extractLsb'_eq_extractLsb' (by omega)]
  rw [BitVec.extractLsb'_append_extractLsb'_eq_extractLsb' (by omega)]
  simp

/-- Rule R72. -/
theorem formatR_fields (w : Word) (h : fieldLow8 w = 0) :
    formatR (fieldOp w) (fieldRd w) (fieldRs1 w) (fieldRs2 w) (fieldRs3 w) = w := by
  rw [formatR, ← show fieldLow8 w = 0#8 from h]
  simp only [fieldOp, fieldRd, fieldRs1, fieldRs2, fieldRs3, fieldLow8]
  rw [BitVec.extractLsb'_append_extractLsb'_eq_extractLsb' (by omega)]
  rw [BitVec.extractLsb'_append_extractLsb'_eq_extractLsb' (by omega)]
  rw [BitVec.extractLsb'_append_extractLsb'_eq_extractLsb' (by omega)]
  rw [BitVec.extractLsb'_append_extractLsb'_eq_extractLsb' (by omega)]
  rw [BitVec.extractLsb'_append_extractLsb'_eq_extractLsb' (by omega)]
  simp

/-- Rule R73. -/
theorem formatS_fields (w : Word) (h : fieldLow2 w = 0) :
    formatS (fieldOp w) (fieldRd w) (fieldRs1 w) (fieldRs2 w) (fieldRs3 w) (fieldLoc w) (fieldK w) (fieldJ w) = w := by
  rw [formatS, ← show fieldLow2 w = 0#2 from h]
  simp only [fieldOp, fieldRd, fieldRs1, fieldRs2, fieldRs3, fieldLoc, fieldK, fieldJ, fieldLow2]
  rw [BitVec.extractLsb'_append_extractLsb'_eq_extractLsb' (by omega)]
  rw [BitVec.extractLsb'_append_extractLsb'_eq_extractLsb' (by omega)]
  rw [BitVec.extractLsb'_append_extractLsb'_eq_extractLsb' (by omega)]
  rw [BitVec.extractLsb'_append_extractLsb'_eq_extractLsb' (by omega)]
  rw [BitVec.extractLsb'_append_extractLsb'_eq_extractLsb' (by omega)]
  rw [BitVec.extractLsb'_append_extractLsb'_eq_extractLsb' (by omega)]
  rw [BitVec.extractLsb'_append_extractLsb'_eq_extractLsb' (by omega)]
  rw [BitVec.extractLsb'_append_extractLsb'_eq_extractLsb' (by omega)]
  simp

/-- Rule R74. -/
theorem formatF_fields (w : Word) (h1 : fieldRs1 w = 0) (h2 : fieldRs2 w = 0) (h3 : fieldRs3 w = 0) (hk : fieldK w = 0) :
    formatF (fieldOp w) (fieldRd w) (fieldLoc w) (fieldFld w) = w := by
  have e : formatF (fieldOp w) (fieldRd w) (fieldLoc w) (fieldFld w) =
      fieldOp w ++ fieldRd w ++ fieldRs1 w ++ fieldRs2 w ++ fieldRs3 w ++ fieldLoc w ++ fieldK w ++ fieldFld w := by
    rw [h1, h2, h3, hk]; rfl
  rw [e]
  simp only [fieldOp, fieldRd, fieldRs1, fieldRs2, fieldRs3, fieldLoc, fieldK, fieldFld]
  rw [BitVec.extractLsb'_append_extractLsb'_eq_extractLsb' (by omega)]
  rw [BitVec.extractLsb'_append_extractLsb'_eq_extractLsb' (by omega)]
  rw [BitVec.extractLsb'_append_extractLsb'_eq_extractLsb' (by omega)]
  rw [BitVec.extractLsb'_append_extractLsb'_eq_extractLsb' (by omega)]
  rw [BitVec.extractLsb'_append_extractLsb'_eq_extractLsb' (by omega)]
  rw [BitVec.extractLsb'_append_extractLsb'_eq_extractLsb' (by omega)]
  rw [BitVec.extractLsb'_append_extractLsb'_eq_extractLsb' (by omega)]
  simp

/-! ### The operand fields (rules R76, R77) -/

@[simp] theorem bankOfLoc_bits (p : BankId) : bankOfLoc p.bits = .ok p := by cases p <;> rfl

@[simp] theorem locOfLoc_bits (l : Loc) : locOfLoc l.bits = .ok l := by rcases l with (_ | _) | _ <;> rfl

@[simp] theorem selOfJ_bits (j : OffSel) : selOfJ j.bits = .ok j := by cases j <;> rfl

theorem bits_of_bankOfLoc {b : BitVec 2} {p : BankId} (h : bankOfLoc b = .ok p) : p.bits = b := by
  revert h; cases p <;> revert b <;> decide

theorem bits_of_locOfLoc {b : BitVec 2} {l : Loc} (h : locOfLoc b = .ok l) : l.bits = b := by
  revert h; rcases l with (_ | _) | _ <;> revert b <;> decide

theorem bits_of_selOfJ {b : BitVec 2} {j : OffSel} (h : selOfJ b = .ok j) : j.bits = b := by
  revert h; cases j <;> revert b <;> decide

/-- Rule R75: the test of the must-be-zero fields. -/
theorem mustBeZero_eq_ok {c : Prop} [Decidable c] {u : Unit} : mustBeZero c = .ok u ↔ c := by
  by_cases h : c <;> simp [mustBeZero, h]

@[simp] theorem mustBeZero_pos {c : Prop} [Decidable c] (h : c) : mustBeZero c = .ok () := if_pos h

/-! ### Words field by field -/

/-- A word, from its fields in the finest division (rules R73, R74). -/
theorem word_of_fields (w : Word) :
    fieldOp w ++ fieldRd w ++ fieldRs1 w ++ fieldRs2 w ++ fieldRs3 w ++ fieldLoc w ++ fieldK w ++ fieldJ w ++
      fieldLow2 w = w := by
  simp only [fieldOp, fieldRd, fieldRs1, fieldRs2, fieldRs3, fieldLoc, fieldK, fieldJ, fieldLow2]
  rw [BitVec.extractLsb'_append_extractLsb'_eq_extractLsb' (by omega)]
  rw [BitVec.extractLsb'_append_extractLsb'_eq_extractLsb' (by omega)]
  rw [BitVec.extractLsb'_append_extractLsb'_eq_extractLsb' (by omega)]
  rw [BitVec.extractLsb'_append_extractLsb'_eq_extractLsb' (by omega)]
  rw [BitVec.extractLsb'_append_extractLsb'_eq_extractLsb' (by omega)]
  rw [BitVec.extractLsb'_append_extractLsb'_eq_extractLsb' (by omega)]
  rw [BitVec.extractLsb'_append_extractLsb'_eq_extractLsb' (by omega)]
  rw [BitVec.extractLsb'_append_extractLsb'_eq_extractLsb' (by omega)]
  simp

theorem word_ext {a b : Word} (h0 : fieldOp a = fieldOp b) (h1 : fieldRd a = fieldRd b) (h2 : fieldRs1 a = fieldRs1 b)
    (h3 : fieldRs2 a = fieldRs2 b) (h4 : fieldRs3 a = fieldRs3 b) (h5 : fieldLoc a = fieldLoc b)
    (h6 : fieldK a = fieldK b) (h7 : fieldJ a = fieldJ b) (h8 : fieldLow2 a = fieldLow2 b) : a = b := by
  rw [← word_of_fields a, ← word_of_fields b, h0, h1, h2, h3, h4, h5, h6, h7, h8]

@[simp] theorem fieldOp_and (a b : Word) : fieldOp (a &&& b) = fieldOp a &&& fieldOp b := BitVec.extractLsb'_and
@[simp] theorem fieldRd_and (a b : Word) : fieldRd (a &&& b) = fieldRd a &&& fieldRd b := BitVec.extractLsb'_and
@[simp] theorem fieldRs1_and (a b : Word) : fieldRs1 (a &&& b) = fieldRs1 a &&& fieldRs1 b := BitVec.extractLsb'_and
@[simp] theorem fieldRs2_and (a b : Word) : fieldRs2 (a &&& b) = fieldRs2 a &&& fieldRs2 b := BitVec.extractLsb'_and
@[simp] theorem fieldRs3_and (a b : Word) : fieldRs3 (a &&& b) = fieldRs3 a &&& fieldRs3 b := BitVec.extractLsb'_and
@[simp] theorem fieldLoc_and (a b : Word) : fieldLoc (a &&& b) = fieldLoc a &&& fieldLoc b := BitVec.extractLsb'_and
@[simp] theorem fieldK_and (a b : Word) : fieldK (a &&& b) = fieldK a &&& fieldK b := BitVec.extractLsb'_and
@[simp] theorem fieldJ_and (a b : Word) : fieldJ (a &&& b) = fieldJ a &&& fieldJ b := BitVec.extractLsb'_and
@[simp] theorem fieldLow2_and (a b : Word) : fieldLow2 (a &&& b) = fieldLow2 a &&& fieldLow2 b := BitVec.extractLsb'_and

@[simp] theorem fieldJ_formatF (op : BitVec 8) (rd : Reg) (loc : BitVec 2) (fld : BitVec 4) :
    fieldJ (formatF op rd loc fld) = fld.extractLsb' 2 2 := by
  ext i hi
  simp only [fieldJ, formatF, BitVec.getElem_extractLsb', BitVec.getLsbD_append]
  interval_cases i <;> simp

@[simp] theorem fieldLow2_formatF (op : BitVec 8) (rd : Reg) (loc : BitVec 2) (fld : BitVec 4) :
    fieldLow2 (formatF op rd loc fld) = fld.extractLsb' 0 2 := by
  ext i hi
  simp only [fieldLow2, formatF, BitVec.getElem_extractLsb', BitVec.getLsbD_append]
  interval_cases i <;> simp

@[simp] theorem fieldLoc_formatR (op : BitVec 8) (rd rs1 rs2 rs3 : Reg) : fieldLoc (formatR op rd rs1 rs2 rs3) = 0 := by
  ext i hi
  simp only [fieldLoc, formatR, BitVec.getElem_extractLsb', BitVec.getLsbD_append]
  interval_cases i <;> simp

@[simp] theorem fieldK_formatR (op : BitVec 8) (rd rs1 rs2 rs3 : Reg) : fieldK (formatR op rd rs1 rs2 rs3) = 0 := by
  ext i hi
  simp only [fieldK, formatR, BitVec.getElem_extractLsb', BitVec.getLsbD_append]
  interval_cases i <;> simp

@[simp] theorem fieldJ_formatR (op : BitVec 8) (rd rs1 rs2 rs3 : Reg) : fieldJ (formatR op rd rs1 rs2 rs3) = 0 := by
  ext i hi
  simp only [fieldJ, formatR, BitVec.getElem_extractLsb', BitVec.getLsbD_append]
  interval_cases i <;> simp

@[simp] theorem fieldLow2_formatR (op : BitVec 8) (rd rs1 rs2 rs3 : Reg) : fieldLow2 (formatR op rd rs1 rs2 rs3) = 0 := by
  ext i hi
  simp only [fieldLow2, formatR, BitVec.getElem_extractLsb', BitVec.getLsbD_append]
  interval_cases i <;> simp

/-- The decoder's two nibbles name the opcode (rule R78). -/
theorem fieldOp_of_nibbles {w : Word} {h l : Nat} (hh : ((fieldOp w).extractLsb' 4 4).toNat = h)
    (hl : ((fieldOp w).extractLsb' 0 4).toNat = l) : fieldOp w = BitVec.ofNat 8 (16 * h + l) := by
  apply BitVec.eq_of_toNat_eq
  simp only [BitVec.extractLsb'_toNat, BitVec.toNat_ofNat, Nat.shiftRight_eq_div_pow] at *
  have := (fieldOp w).isLt
  omega

theorem DecodeError.bind_eq_ok {α β : Type} {x : Except DecodeError α} {f : α → Except DecodeError β} {b : β} :
    (x >>= f) = .ok b ↔ ∃ a, x = .ok a ∧ f a = .ok b := by
  cases x with
  | error e => simp [bind, Except.bind]
  | ok a => simp [bind, Except.bind]

end Sys2Proof
end

