-- ==== Sys2Proof/Laws/Effects.lean ====
section
/-! SUPPORT. Once for each command without a destination register, all it can do when it answers a next state; and the same,
in one lemma, for every command with one. -/

namespace Sys2Proof.Machine

/-! ### Commands with a destination register -/

theorem exec_of_dest {i : Instr} {rd : Reg} (s : State) (h : i.dest = some rd) (hc : ∀ csr, i ≠ .sysRdcsr rd csr) :
    ∃ body, exec i s = s.commandValue rd body := by
  cases i <;> simp only [Instr.dest, Option.some.injEq, reduceCtorEq] at h <;> subst h <;>
    first | exact ⟨_, rfl⟩ | exact ⟨.ok _, rfl⟩ | exact absurd rfl (hc _)

theorem execSysRdcsr_cases {s t : State} {rd : Reg} {csr : BitVec 4} (h : exec (.sysRdcsr rd csr) s = .next t) :
    (∃ v, s.csr csr = some v ∧ t = (s.setReg rd v).reply .stOk v) ∨ (s.csr csr = none ∧ t = s.illegalWord) := by
  change execSysRdcsr rd csr s = _ at h
  unfold execSysRdcsr at h
  split at h
  · next v hv => cases h; exact .inl ⟨v, hv, rfl⟩
  · next hn => cases h; exact .inr ⟨hn, rfl⟩

/-- All a command with a destination can do. -/
theorem exec_dest_cases {i : Instr} {s t : State} {rd : Reg} (hd : i.dest = some rd) (h : exec i s = .next t) :
    s.Stopped t ∨ ∃ v, t = (s.setReg rd v).reply .stOk v := by
  by_cases hc : ∃ csr, i = .sysRdcsr rd csr
  · obtain ⟨csr, rfl⟩ := hc
    rcases execSysRdcsr_cases h with ⟨v, -, rfl⟩ | ⟨-, rfl⟩
    · exact .inr ⟨v, rfl⟩
    · exact .inl s.illegalWord_stopped
  · obtain ⟨body, hb⟩ := exec_of_dest s hd (fun csr hi => hc ⟨csr, hi⟩)
    rw [hb] at h
    rcases State.commandValue_stopped_or h with h | ⟨v, -, rfl⟩
    · exact .inl h
    · exact .inr ⟨v, rfl⟩

/-! ### Regions and the packet buffer -/

theorem execRgnSet_cases {s t : State} {rs1 rs2 : Reg} {p : BankId} {k : RgnIdx}
    (h : exec (.rgnSet rs1 rs2 p k) s = .next t) :
    s.Stopped t ∨ t = (s.setRgn k { bank := p, base := s.reg rs1, len := s.reg rs2 }).reply .stOk 0 := by
  rcases State.commandEffect_stopped_or (body := .ok _) h with h | ⟨u, hu, rfl⟩
  · exact .inl h
  · cases hu; exact .inr rfl

theorem execPktNew_cases {s t : State} {rs1 : Reg} {p : BankId} (h : exec (.pktNew rs1 p) s = .next t) :
    s.Stopped t ∨ ((s.reg rs1).toNat ≤ s.cfg.pktCap ∧
      t = (s.setBank p (newBank (s.bank p) (s.reg rs1).toNat)).reply .stOk 0) := by
  rcases State.commandEffect_stopped_or h with h | ⟨u, hu, rfl⟩
  · exact .inl h
  · obtain ⟨_, hc, hu⟩ := Abort.bind_eq_ok.mp hu
    cases hu
    exact .inr ⟨Nat.le_of_not_lt (stopIf_eq_ok.mp hc), rfl⟩

theorem execPktNewReply_cases {s t : State} {p : BankId} {k : RgnIdx} (h : exec (.pktNewReply p k) s = .next t) :
    s.Stopped t ∨ (s.cfg.headroom + (s.rgn k).len.toNat ≤ s.cfg.pktCap ∧ s.RegionFits k ∧
      t = (s.setBank p (replyBank (s.bank p) s.cfg.headroom (s.regionBytes k))).reply .stOk 0) := by
  rcases State.commandEffect_stopped_or h with h | ⟨u, hu, rfl⟩
  · exact .inl h
  · obtain ⟨_, hc, hu⟩ := Abort.bind_eq_ok.mp hu
    obtain ⟨bs, hb, hu⟩ := Abort.bind_eq_ok.mp hu
    rw [State.rgnBytes_eq] at hb
    by_cases hf : s.RegionFits k
    · rw [if_pos hf] at hb
      cases hb; cases hu
      exact .inr ⟨Nat.le_of_not_lt (stopIf_eq_ok.mp hc), hf, rfl⟩
    · rw [if_neg hf] at hb; cases hb

theorem execPktWr8_cases {s t : State} {rs1 rs2 : Reg} {p : BankId} (h : exec (.pktWr8 rs1 rs2 p) s = .next t) :
    s.Stopped t ∨ ((s.reg rs1).toNat < (s.bank p).plen ∧
      t = (s.writeBank p (s.reg rs1).toNat [s.regByte rs2]).reply .stOk 0) := by
  rcases State.commandEffect_stopped_or h with h | ⟨u, hu, rfl⟩
  · exact .inl h
  · obtain ⟨_, hc, hu⟩ := Abort.bind_eq_ok.mp hu
    cases hu
    exact .inr ⟨Nat.lt_of_not_le (stopIf_eq_ok.mp hc), rfl⟩

/-- Rules R125, R126: where a transport fill goes, when it goes. -/
theorem fillTransportAt_eq_ok {b : Bank} {n t : Nat} :
    fillTransportAt b n = .ok t ↔
      ∃ po, b.poff = some po ∧ n ≤ po ∧ (∀ no, b.noff = some no → no ≤ po - n) ∧ t = po - n := by
  unfold fillTransportAt
  split
  · next hp => simp [hp]
  · next po hp =>
    rw [Abort.bind_eq_ok]
    constructor
    · rintro ⟨_, hc, h⟩
      obtain ⟨_, hc', h⟩ := Abort.bind_eq_ok.mp h
      have h1 := stopIf_eq_ok.mp hc
      have h2 := stopIf_eq_ok.mp hc'
      cases h
      refine ⟨po, hp, by omega, fun no hno => ?_, rfl⟩
      simpa [hno] using h2
    · rintro ⟨po', hpo, hle, hno, rfl⟩
      rw [hp] at hpo; cases hpo
      refine ⟨(), stopIf_eq_ok.mpr (by omega), Abort.bind_eq_ok.mpr ⟨(), stopIf_eq_ok.mpr ?_, rfl⟩⟩
      cases hn : b.noff with
      | none => simp
      | some no => simpa using hno no hn

/-- Rule R127: where a network fill goes, when it goes. -/
theorem fillNetworkAt_eq_ok {b : Bank} {t : Nat} :
    fillNetworkAt b = .ok t ↔ ∃ off, b.toff = some off ∧ 20 ≤ off ∧ t = off - 20 := by
  unfold fillNetworkAt Config.ipHdr
  split
  · next hp => simp [hp]
  · next off hp =>
    rw [Abort.bind_eq_ok]
    constructor
    · rintro ⟨_, hc, h⟩
      have h1 := stopIf_eq_ok.mp hc
      cases h
      exact ⟨off, hp, by omega, rfl⟩
    · rintro ⟨off', hoff, hle, rfl⟩
      rw [hp] at hoff; cases hoff
      exact ⟨(), stopIf_eq_ok.mpr (by omega), rfl⟩

theorem execPktFillI_cases {s t : State} {p : BankId} (h : exec (.pktFillI p) s = .next t) :
    s.Stopped t ∨ ∃ a, fillTransportAt (s.bank p) 4 = .ok a ∧
      t = (s.fillTransport p a s.hicmp.toList .wire).reply .stOk 0 := by
  rcases State.commandEffect_stopped_or h with h | ⟨u, hu, rfl⟩
  · exact .inl h
  · obtain ⟨a, ha, hu⟩ := Abort.bind_eq_ok.mp hu
    cases hu
    exact .inr ⟨a, ha, rfl⟩

theorem execPktFillU_cases {s t : State} {p : BankId} (h : exec (.pktFillU p) s = .next t) :
    s.Stopped t ∨ ∃ a, fillTransportAt (s.bank p) 8 = .ok a ∧
      t = (s.fillTransport p a s.hudp.toList s.hudpOrd).reply .stOk 0 := by
  rcases State.commandEffect_stopped_or h with h | ⟨u, hu, rfl⟩
  · exact .inl h
  · obtain ⟨a, ha, hu⟩ := Abort.bind_eq_ok.mp hu
    cases hu
    exact .inr ⟨a, ha, rfl⟩

theorem execPktFillN_cases {s t : State} {p : BankId} (h : exec (.pktFillN p) s = .next t) :
    s.Stopped t ∨ ∃ a, fillNetworkAt (s.bank p) = .ok a ∧
      t = (s.fillNetwork p a s.hip.toList s.hipOrd).reply .stOk 0 := by
  rcases State.commandEffect_stopped_or h with h | ⟨u, hu, rfl⟩
  · exact .inl h
  · obtain ⟨a, ha, hu⟩ := Abort.bind_eq_ok.mp hu
    cases hu
    exact .inr ⟨a, ha, rfl⟩

theorem needOffset_eq_ok {o : Option Nat} {a : Nat} : needOffset o = .ok a ↔ o = some a := by
  cases o <;> simp [needOffset]

theorem execPktPayload_cases {s t : State} {p : BankId} {k : RgnIdx} (h : exec (.pktPayload p k) s = .next t) :
    s.Stopped t ∨ ∃ o, (s.bank p).poff = some o ∧ t = (s.setRgn k (sliceFrom p (s.bank p) o)).reply .stOk 0 := by
  rcases State.commandEffect_stopped_or h with h | ⟨u, hu, rfl⟩
  · exact .inl h
  · obtain ⟨a, ha, hu⟩ := Abort.bind_eq_ok.mp hu
    cases hu
    exact .inr ⟨a, needOffset_eq_ok.mp ha, rfl⟩

theorem execPktWhole_cases {s t : State} {p : BankId} {k : RgnIdx} (h : exec (.pktWhole p k) s = .next t) :
    s.Stopped t ∨ ∃ o, (s.bank p).noff = some o ∧ t = (s.setRgn k (sliceFrom p (s.bank p) o)).reply .stOk 0 := by
  rcases State.commandEffect_stopped_or h with h | ⟨u, hu, rfl⟩
  · exact .inl h
  · obtain ⟨a, ha, hu⟩ := Abort.bind_eq_ok.mp hu
    cases hu
    exact .inr ⟨a, needOffset_eq_ok.mp ha, rfl⟩

/-! ### Header commands -/

theorem execIpParse_cases {s t : State} {p : BankId} (h : exec (.ipParse p) s = .next t) :
    s.Stopped t ∨ ∃ v, s.hv .ip (.bank p) = .ok v ∧
      (s.ipVersionAt v).toNat = 4 ∧ (s.ipIhlAt v).toNat = 5 ∧ 20 ≤ (s.fld16 v 2).toNat ∧ (s.fld16 v 2).toNat ≤ v.avail ∧
      t = (s.setBank p { s.bank p with toff := some (v.off + 20), poff := none }).reply .stOk 0 := by
  rcases State.commandEffect_stopped_or h with h | ⟨u, hu, rfl⟩
  · exact .inl h
  · obtain ⟨v, hv, hu⟩ := Abort.bind_eq_ok.mp hu
    obtain ⟨_, h1, hu⟩ := Abort.bind_eq_ok.mp hu
    obtain ⟨_, h2, hu⟩ := Abort.bind_eq_ok.mp hu
    obtain ⟨_, h3, hu⟩ := Abort.bind_eq_ok.mp hu
    cases hu
    have h1 := stopIf_eq_ok.mp h1
    have h2 := stopIf_eq_ok.mp h2
    have h3 := stopIf_eq_ok.mp h3
    simp only [Config.ipVersion, Config.ipHdr] at h1 h2 h3
    exact .inr ⟨v, hv, by omega, by omega, by omega, by omega, rfl⟩

theorem execIpSetTotLen_cases {s t : State} {rs1 : Reg} {loc : Loc} (h : exec (.ipSetTotLen rs1 loc) s = .next t) :
    s.Stopped t ∨ ∃ v, s.hv .ip loc = .ok v ∧ t = (s.put16 v 2 (s.regHalf rs1)).reply .stOk 0 := by
  rcases State.commandEffect_stopped_or h with h | ⟨u, hu, rfl⟩
  · exact .inl h
  · obtain ⟨v, hv, hu⟩ := Abort.bind_eq_ok.mp hu
    cases hu
    exact .inr ⟨v, hv, rfl⟩

theorem execIpBswap_cases {s t : State} {loc : Loc} (h : exec (.ipBswap loc) s = .next t) :
    s.Stopped t ∨ ∃ v, s.hv .ip loc = .ok v ∧
      t = ((s.ipReverseFields v).setNetOrder loc v.ord.toggle).reply .stOk 0 := by
  rcases State.commandEffect_stopped_or h with h | ⟨u, hu, rfl⟩
  · exact .inl h
  · obtain ⟨v, hv, hu⟩ := Abort.bind_eq_ok.mp hu
    cases hu
    exact .inr ⟨v, hv, rfl⟩

/-- Rule R161: the header that the three IPv4 checksum commands sum, and the checks it has passed. -/
theorem State.ipSummed_eq_ok {s : State} {loc : Loc} {r : View × List Byte} (h : s.ipSummed loc = .ok r) :
    s.hv .ip loc = .ok r.1 ∧ 5 ≤ (s.ipIhlAt r.1).toNat ∧ r.1.ord = .wire ∧
      (s.ipIhlAt r.1).toNat * 4 ≤ r.1.avail ∧ r.2 = s.bytesAt r.1 0 ((s.ipIhlAt r.1).toNat * 4) := by
  obtain ⟨v, hv, h⟩ := Abort.bind_eq_ok.mp h
  obtain ⟨_, h1, h⟩ := Abort.bind_eq_ok.mp h
  obtain ⟨_, h2, h⟩ := Abort.bind_eq_ok.mp h
  obtain ⟨_, h3, h⟩ := Abort.bind_eq_ok.mp h
  cases h
  exact ⟨hv, Nat.le_of_not_lt (stopIf_eq_ok.mp h1), by simpa using stopIf_eq_ok.mp h2,
    Nat.le_of_not_lt (stopIf_eq_ok.mp h3), rfl⟩

theorem State.ipSummed_ok {s : State} {loc : Loc} {v : View} (hv : s.hv .ip loc = .ok v)
    (h1 : 5 ≤ (s.ipIhlAt v).toNat) (h2 : v.ord = .wire) (h3 : (s.ipIhlAt v).toNat * 4 ≤ v.avail) :
    s.ipSummed loc = .ok (v, s.bytesAt v 0 ((s.ipIhlAt v).toNat * 4)) := by
  unfold State.ipSummed
  rw [hv, Abort.ok_bind]
  simp only [stopIf_neg _ (Nat.not_lt.mpr h1), stopIf_neg _ (not_not_intro h2), stopIf_neg _ (Nat.not_lt.mpr h3),
    Abort.ok_bind, Abort.pure_eq]

theorem execIpSetCsum_cases {s t : State} {loc : Loc} (h : exec (.ipSetCsum loc) s = .next t) :
    s.Stopped t ∨ ∃ r, s.ipSummed loc = .ok r ∧
      t = (s.putBytes r.1 10 (bytesBE16 (csum r.2 (s.be16At r.1 10)))).reply .stOk 0 := by
  rcases State.commandEffect_stopped_or h with h | ⟨u, hu, rfl⟩
  · exact .inl h
  · obtain ⟨r, hr, hu⟩ := Abort.bind_eq_ok.mp hu
    cases hu
    exact .inr ⟨r, hr, rfl⟩

theorem execIpReply_cases {s t : State} {loc : Loc} (h : exec (.ipReply loc) s = .next t) :
    s.Stopped t ∨ ∃ v, s.hv .ip loc = .ok v ∧ ¬s.ttlRefused v ∧
      t = ({ s with hip := ipReplyHeader (s.byteAt v), hipOrd := v.ord } : State).reply .stOk 0 := by
  rcases State.commandEffect_stopped_or h with h | ⟨u, hu, rfl⟩
  · exact .inl h
  · obtain ⟨v, hv, hu⟩ := Abort.bind_eq_ok.mp hu
    obtain ⟨_, hq, hu⟩ := Abort.bind_eq_ok.mp hu
    cases hu
    exact .inr ⟨v, hv, stopIf_eq_ok.mp hq, rfl⟩

theorem execIcmpParse_cases {s t : State} {p : BankId} (h : exec (.icmpParse p) s = .next t) :
    s.Stopped t ∨ ∃ v, s.hv .icmp (.bank p) = .ok v ∧
      t = (s.setBank p { s.bank p with poff := some (v.off + 4) }).reply .stOk 0 := by
  rcases State.commandEffect_stopped_or h with h | ⟨u, hu, rfl⟩
  · exact .inl h
  · obtain ⟨v, hv, hu⟩ := Abort.bind_eq_ok.mp hu
    cases hu
    exact .inr ⟨v, hv, rfl⟩

theorem execIcmpBuild_cases {s t : State} {rs1 rs2 : Reg} (h : exec (.icmpBuild rs1 rs2) s = .next t) :
    s.Stopped t ∨ t = ({ s with hicmp := #v[s.regByte rs1, s.regByte rs2, 0, 0] } : State).reply .stOk 0 := by
  rcases State.commandEffect_stopped_or (body := .ok _) h with h | ⟨u, hu, rfl⟩
  · exact .inl h
  · cases hu; exact .inr rfl

/-- Rule R187: the bytes that the two ICMP checksum commands sum, and the checks they have passed. -/
theorem State.icmpSummed_eq_ok {s : State} {loc : Loc} {rs1 : Reg} {r : View × List Byte}
    (h : s.icmpSummed loc rs1 = .ok r) :
    s.hv .icmp loc = .ok r.1 ∧ 4 ≤ (s.reg rs1).toNat ∧ (s.reg rs1).toNat ≤ r.1.avail ∧
      r.2 = s.bytesAt r.1 0 (s.reg rs1).toNat := by
  obtain ⟨v, hv, h⟩ := Abort.bind_eq_ok.mp h
  obtain ⟨_, h1, h⟩ := Abort.bind_eq_ok.mp h
  cases h
  have h1 := stopIf_eq_ok.mp h1
  exact ⟨hv, by omega, by show _ ≤ v.avail; omega, rfl⟩

theorem State.icmpSummed_ok {s : State} {loc : Loc} {rs1 : Reg} {v : View} (hv : s.hv .icmp loc = .ok v)
    (h1 : 4 ≤ (s.reg rs1).toNat) (h2 : (s.reg rs1).toNat ≤ v.avail) :
    s.icmpSummed loc rs1 = .ok (v, s.bytesAt v 0 (s.reg rs1).toNat) := by
  unfold State.icmpSummed
  rw [hv, Abort.ok_bind]
  simp only [stopIf_neg _ (show ¬((s.reg rs1).toNat < 4 ∨ (s.reg rs1).toNat > v.avail) by omega), Abort.ok_bind,
    Abort.pure_eq]

theorem execIcmpSetCsum_cases {s t : State} {rs1 : Reg} {loc : Loc} (h : exec (.icmpSetCsum rs1 loc) s = .next t) :
    s.Stopped t ∨ ∃ r, s.icmpSummed loc rs1 = .ok r ∧
      t = (s.putBytes r.1 2 (bytesBE16 (csum r.2 (s.be16At r.1 2)))).reply .stOk 0 := by
  rcases State.commandEffect_stopped_or h with h | ⟨u, hu, rfl⟩
  · exact .inl h
  · obtain ⟨r, hr, hu⟩ := Abort.bind_eq_ok.mp hu
    cases hu
    exact .inr ⟨r, hr, rfl⟩

theorem execUdpParse_cases {s t : State} {p : BankId} (h : exec (.udpParse p) s = .next t) :
    s.Stopped t ∨ ∃ v, s.hv .udp (.bank p) = .ok v ∧ 8 ≤ (s.fld16 v 4).toNat ∧ (s.fld16 v 4).toNat ≤ v.avail ∧
      t = (s.setBank p { s.bank p with poff := some (v.off + 8) }).reply .stOk 0 := by
  rcases State.commandEffect_stopped_or h with h | ⟨u, hu, rfl⟩
  · exact .inl h
  · obtain ⟨v, hv, hu⟩ := Abort.bind_eq_ok.mp hu
    obtain ⟨_, h1, hu⟩ := Abort.bind_eq_ok.mp hu
    cases hu
    have h1 := stopIf_eq_ok.mp h1
    simp only [Config.udpHdr] at h1
    exact .inr ⟨v, hv, by omega, by omega, rfl⟩

theorem execUdpBswap_cases {s t : State} {loc : Loc} (h : exec (.udpBswap loc) s = .next t) :
    s.Stopped t ∨ ∃ v, s.hv .udp loc = .ok v ∧
      t = ((s.udpReverseFields v).setTrnOrder loc v.ord.toggle).reply .stOk 0 := by
  rcases State.commandEffect_stopped_or h with h | ⟨u, hu, rfl⟩
  · exact .inl h
  · obtain ⟨v, hv, hu⟩ := Abort.bind_eq_ok.mp hu
    cases hu
    exact .inr ⟨v, hv, rfl⟩

theorem execUdpReply_cases {s t : State} {loc : Loc} (h : exec (.udpReply loc) s = .next t) :
    s.Stopped t ∨ ∃ v, s.hv .udp loc = .ok v ∧
      t = ({ s with hudp := udpReplyHeader (s.byteAt v), hudpOrd := v.ord } : State).reply .stOk 0 := by
  rcases State.commandEffect_stopped_or h with h | ⟨u, hu, rfl⟩
  · exact .inl h
  · obtain ⟨v, hv, hu⟩ := Abort.bind_eq_ok.mp hu
    cases hu
    exact .inr ⟨v, hv, rfl⟩

/-- Rule R200: the segment that the two UDP checksum commands sum, and the checks it has passed. -/
theorem State.udpSummed_eq_ok {s : State} {loc : Loc} {r : View × Half × List Byte} (h : s.udpSummed loc = .ok r) :
    s.hv .udp loc = .ok r.1 ∧ r.2.1 = s.fld16 r.1 4 ∧ 8 ≤ r.2.1.toNat ∧ r.1.ord = .wire ∧ r.2.1.toNat ≤ r.1.avail ∧
      r.2.2 = s.bytesAt r.1 0 r.2.1.toNat := by
  obtain ⟨v, hv, h⟩ := Abort.bind_eq_ok.mp h
  obtain ⟨_, h1, h⟩ := Abort.bind_eq_ok.mp h
  obtain ⟨_, h2, h⟩ := Abort.bind_eq_ok.mp h
  obtain ⟨_, h3, h⟩ := Abort.bind_eq_ok.mp h
  cases h
  exact ⟨hv, rfl, Nat.le_of_not_lt (stopIf_eq_ok.mp h1), by simpa using stopIf_eq_ok.mp h2,
    Nat.le_of_not_lt (stopIf_eq_ok.mp h3), rfl⟩

theorem State.udpSummed_ok {s : State} {loc : Loc} {v : View} (hv : s.hv .udp loc = .ok v)
    (h1 : 8 ≤ (s.fld16 v 4).toNat) (h2 : v.ord = .wire) (h3 : (s.fld16 v 4).toNat ≤ v.avail) :
    s.udpSummed loc = .ok (v, s.fld16 v 4, s.bytesAt v 0 (s.fld16 v 4).toNat) := by
  unfold State.udpSummed
  rw [hv, Abort.ok_bind]
  simp only [stopIf_neg _ (show ¬(s.fld16 v 4).toNat < Config.udpHdr from Nat.not_lt.mpr h1),
    stopIf_neg _ (not_not_intro h2), stopIf_neg _ (Nat.not_lt.mpr h3), Abort.ok_bind, Abort.pure_eq]

theorem execUdpSetCsum_cases {s t : State} {rs1 rs2 : Reg} {loc : Loc}
    (h : exec (.udpSetCsum rs1 rs2 loc) s = .next t) :
    s.Stopped t ∨ ∃ r, s.udpSummed loc = .ok r ∧
      t = (s.putBytes r.1 6 (bytesBE16 (s.udpSegmentCsum rs1 rs2 r.1 r.2.1 r.2.2))).reply .stOk 0 := by
  rcases State.commandEffect_stopped_or h with h | ⟨u, hu, rfl⟩
  · exact .inl h
  · obtain ⟨r, hr, hu⟩ := Abort.bind_eq_ok.mp hu
    cases hu
    exact .inr ⟨r, hr, rfl⟩

/-! ### What every completed command without a destination leaves alone -/

/-- The fields that no command's effect writes: the parameters, the general registers, `FSR`, `FCMD`, the word being
executed, the host's actions and the earlier responses. -/
def State.SameControl (s u : State) : Prop :=
  u.cfg = s.cfg ∧ u.xs = s.xs ∧ u.fsr = s.fsr ∧ u.fcmd = s.fcmd ∧ u.cmd = s.cmd ∧ u.host = s.host ∧
    u.responses = s.responses

theorem State.sameControl_setBank (s : State) (p : BankId) (b : Bank) : s.SameControl (s.setBank p b) := by
  simp [State.SameControl]

theorem State.sameControl_putBytes (s : State) (v : View) (i : Nat) (bs : List Byte) :
    s.SameControl (s.putBytes v i bs) := by
  simp [State.SameControl, State.putBytes]

/-- All that a command without a destination can do outside its stores, offsets, tags, descriptors and staging registers. -/
theorem exec_effect_control {i : Instr} {s t : State} (hd : i.dest = none) (h : exec i s = .next t) :
    s.Stopped t ∨ ∃ u, s.SameControl u ∧ t = u.reply .stOk 0 := by
  cases i with
  | rgnSet =>
    rcases execRgnSet_cases h with h | rfl
    · exact .inl h
    · exact .inr ⟨_, by simp [State.SameControl], rfl⟩
  | pktNew =>
    rcases execPktNew_cases h with h | ⟨-, rfl⟩
    · exact .inl h
    · exact .inr ⟨_, State.sameControl_setBank _ _ _, rfl⟩
  | pktNewReply =>
    rcases execPktNewReply_cases h with h | ⟨-, -, rfl⟩
    · exact .inl h
    · exact .inr ⟨_, State.sameControl_setBank _ _ _, rfl⟩
  | pktWr8 =>
    rcases execPktWr8_cases h with h | ⟨-, rfl⟩
    · exact .inl h
    · exact .inr ⟨_, State.sameControl_setBank _ _ _, rfl⟩
  | pktFillI =>
    rcases execPktFillI_cases h with h | ⟨a, -, rfl⟩
    · exact .inl h
    · exact .inr ⟨_, State.sameControl_setBank _ _ _, rfl⟩
  | pktFillU =>
    rcases execPktFillU_cases h with h | ⟨a, -, rfl⟩
    · exact .inl h
    · exact .inr ⟨_, State.sameControl_setBank _ _ _, rfl⟩
  | pktFillN =>
    rcases execPktFillN_cases h with h | ⟨a, -, rfl⟩
    · exact .inl h
    · exact .inr ⟨_, State.sameControl_setBank _ _ _, rfl⟩
  | pktPayload =>
    rcases execPktPayload_cases h with h | ⟨o, -, rfl⟩
    · exact .inl h
    · exact .inr ⟨_, by simp [State.SameControl], rfl⟩
  | pktWhole =>
    rcases execPktWhole_cases h with h | ⟨o, -, rfl⟩
    · exact .inl h
    · exact .inr ⟨_, by simp [State.SameControl], rfl⟩
  | ipParse =>
    rcases execIpParse_cases h with h | ⟨v, -, -, -, -, -, rfl⟩
    · exact .inl h
    · exact .inr ⟨_, State.sameControl_setBank _ _ _, rfl⟩
  | ipSetTotLen =>
    rcases execIpSetTotLen_cases h with h | ⟨v, -, rfl⟩
    · exact .inl h
    · exact .inr ⟨_, State.sameControl_putBytes _ _ _ _, rfl⟩
  | ipBswap =>
    rcases execIpBswap_cases h with h | ⟨v, -, rfl⟩
    · exact .inl h
    · exact .inr ⟨_, by simp [State.SameControl, State.ipReverseFields, State.reverseAt, State.putBytes], rfl⟩
  | ipSetCsum =>
    rcases execIpSetCsum_cases h with h | ⟨r, -, rfl⟩
    · exact .inl h
    · exact .inr ⟨_, State.sameControl_putBytes _ _ _ _, rfl⟩
  | ipReply =>
    rcases execIpReply_cases h with h | ⟨v, -, -, rfl⟩
    · exact .inl h
    · exact .inr ⟨_, by simp [State.SameControl], rfl⟩
  | icmpParse =>
    rcases execIcmpParse_cases h with h | ⟨v, -, rfl⟩
    · exact .inl h
    · exact .inr ⟨_, State.sameControl_setBank _ _ _, rfl⟩
  | icmpBuild =>
    rcases execIcmpBuild_cases h with h | rfl
    · exact .inl h
    · exact .inr ⟨_, by simp [State.SameControl], rfl⟩
  | icmpSetCsum =>
    rcases execIcmpSetCsum_cases h with h | ⟨r, -, rfl⟩
    · exact .inl h
    · exact .inr ⟨_, State.sameControl_putBytes _ _ _ _, rfl⟩
  | udpParse =>
    rcases execUdpParse_cases h with h | ⟨v, -, -, -, rfl⟩
    · exact .inl h
    · exact .inr ⟨_, State.sameControl_setBank _ _ _, rfl⟩
  | udpBswap =>
    rcases execUdpBswap_cases h with h | ⟨v, -, rfl⟩
    · exact .inl h
    · exact .inr ⟨_, by simp [State.SameControl, State.udpReverseFields, State.reverseAt, State.putBytes], rfl⟩
  | udpReply =>
    rcases execUdpReply_cases h with h | ⟨v, -, rfl⟩
    · exact .inl h
    · exact .inr ⟨_, by simp [State.SameControl], rfl⟩
  | udpSetCsum =>
    rcases execUdpSetCsum_cases h with h | ⟨r, -, rfl⟩
    · exact .inl h
    · exact .inr ⟨_, State.sameControl_putBytes _ _ _ _, rfl⟩
  | _ => simp [Instr.dest] at hd

/-! ### The shapes of an effect -/

/-- The state before the response that a completed command without a destination leaves, by its shape: `Effect s i u` says
that `i`, completing in `s`, leaves `u`. -/
inductive Effect (s : State) : Instr → State → Prop
  | region (i : Instr) (k : RgnIdx) (r : Region)
      (h : (∃ rs1 rs2 p, i = .rgnSet rs1 rs2 p k) ∨ (∃ p, i = .pktPayload p k) ∨ (∃ p, i = .pktWhole p k)) :
      Effect s i (s.setRgn k r)
  | new (rs1 : Reg) (p : BankId) (h : (s.reg rs1).toNat ≤ s.cfg.pktCap) :
      Effect s (.pktNew rs1 p) (s.setBank p (newBank (s.bank p) (s.reg rs1).toNat))
  | newReply (p : BankId) (k : RgnIdx) (h : s.cfg.headroom + (s.rgn k).len.toNat ≤ s.cfg.pktCap) (hf : s.RegionFits k) :
      Effect s (.pktNewReply p k) (s.setBank p (replyBank (s.bank p) s.cfg.headroom (s.regionBytes k)))
  | writeByte (rs1 rs2 : Reg) (p : BankId) (h : (s.reg rs1).toNat < (s.bank p).plen) :
      Effect s (.pktWr8 rs1 rs2 p) (s.storeWrite (.bank p) (s.reg rs1).toNat [s.regByte rs2])
  | fillIcmp (p : BankId) (a : Nat) (h : fillTransportAt (s.bank p) 4 = .ok a) :
      Effect s (.pktFillI p) (s.fillTransport p a s.hicmp.toList .wire)
  | fillUdp (p : BankId) (a : Nat) (h : fillTransportAt (s.bank p) 8 = .ok a) :
      Effect s (.pktFillU p) (s.fillTransport p a s.hudp.toList s.hudpOrd)
  | fillIp (p : BankId) (a : Nat) (h : fillNetworkAt (s.bank p) = .ok a) :
      Effect s (.pktFillN p) (s.fillNetwork p a s.hip.toList s.hipOrd)
  | ipParse (p : BankId) (v : View) (h : s.hv .ip (.bank p) = .ok v) :
      Effect s (.ipParse p) (s.setBank p { s.bank p with toff := some (v.off + 20), poff := none })
  | icmpParse (p : BankId) (v : View) (h : s.hv .icmp (.bank p) = .ok v) :
      Effect s (.icmpParse p) (s.setBank p { s.bank p with poff := some (v.off + 4) })
  | udpParse (p : BankId) (v : View) (h : s.hv .udp (.bank p) = .ok v) :
      Effect s (.udpParse p) (s.setBank p { s.bank p with poff := some (v.off + 8) })
  | putPair (i : Instr) (kind : Kind) (loc : Loc) (v : View) (a : Nat) (bs : List Byte) (h : s.hv kind loc = .ok v)
      (hi : (∃ r, i = .ipSetTotLen r loc ∧ kind = .ip ∧ a = 2) ∨ (i = .ipSetCsum loc ∧ kind = .ip ∧ a = 10) ∨
        (∃ r, i = .icmpSetCsum r loc ∧ kind = .icmp ∧ a = 2) ∨ (∃ r q, i = .udpSetCsum r q loc ∧ kind = .udp ∧ a = 6))
      (hb : bs.length = 2) : Effect s i (s.putBytes v a bs)
  | ipBswap (loc : Loc) (v : View) (h : s.hv .ip loc = .ok v) :
      Effect s (.ipBswap loc) ((s.ipReverseFields v).setNetOrder loc v.ord.toggle)
  | udpBswap (loc : Loc) (v : View) (h : s.hv .udp loc = .ok v) :
      Effect s (.udpBswap loc) ((s.udpReverseFields v).setTrnOrder loc v.ord.toggle)
  | ipReply (loc : Loc) (v : View) (h : s.hv .ip loc = .ok v) (hq : ¬s.ttlRefused v) :
      Effect s (.ipReply loc) { s with hip := ipReplyHeader (s.byteAt v), hipOrd := v.ord }
  | udpReply (loc : Loc) (v : View) (h : s.hv .udp loc = .ok v) :
      Effect s (.udpReply loc) { s with hudp := udpReplyHeader (s.byteAt v), hudpOrd := v.ord }
  | icmpBuild (rs1 rs2 : Reg) :
      Effect s (.icmpBuild rs1 rs2) { s with hicmp := #v[s.regByte rs1, s.regByte rs2, 0, 0] }

/-- All any command can do: it does not complete, it answers its value, or it has an effect of its shape. -/
theorem exec_cases {i : Instr} {s t : State} (h : exec i s = .next t) :
    s.Stopped t ∨ (∃ rd v, i.dest = some rd ∧ t = (s.setReg rd v).reply .stOk v) ∨
      (i.dest = none ∧ ∃ u, Effect s i u ∧ t = u.reply .stOk 0) := by
  cases hd : i.dest with
  | some rd =>
    rcases exec_dest_cases hd h with h | ⟨v, h⟩
    · exact .inl h
    · exact .inr (.inl ⟨rd, v, rfl, h⟩)
  | none =>
    suffices s.Stopped t ∨ ∃ u, Effect s i u ∧ t = u.reply .stOk 0 from this.imp_right fun h => .inr ⟨rfl, h⟩
    cases i with
    | rgnSet => exact (execRgnSet_cases h).imp_right fun h => ⟨_, .region _ _ _ (.inl ⟨_, _, _, rfl⟩), h⟩
    | pktNew => exact (execPktNew_cases h).imp_right fun ⟨hle, h⟩ => ⟨_, .new _ _ hle, h⟩
    | pktNewReply => exact (execPktNewReply_cases h).imp_right fun ⟨hle, hf, h⟩ => ⟨_, .newReply _ _ hle hf, h⟩
    | pktWr8 => exact (execPktWr8_cases h).imp_right fun ⟨hlt, h⟩ => ⟨_, .writeByte _ _ _ hlt, h⟩
    | pktFillI => exact (execPktFillI_cases h).imp_right fun ⟨_, ha, h⟩ => ⟨_, .fillIcmp _ _ ha, h⟩
    | pktFillU => exact (execPktFillU_cases h).imp_right fun ⟨_, ha, h⟩ => ⟨_, .fillUdp _ _ ha, h⟩
    | pktFillN => exact (execPktFillN_cases h).imp_right fun ⟨_, ha, h⟩ => ⟨_, .fillIp _ _ ha, h⟩
    | pktPayload =>
      exact (execPktPayload_cases h).imp_right fun ⟨_, _, h⟩ => ⟨_, .region _ _ _ (.inr (.inl ⟨_, rfl⟩)), h⟩
    | pktWhole =>
      exact (execPktWhole_cases h).imp_right fun ⟨_, _, h⟩ => ⟨_, .region _ _ _ (.inr (.inr ⟨_, rfl⟩)), h⟩
    | ipParse => exact (execIpParse_cases h).imp_right fun ⟨_, hv, _, _, _, _, h⟩ => ⟨_, .ipParse _ _ hv, h⟩
    | ipSetTotLen r loc =>
      exact (execIpSetTotLen_cases h).imp_right fun ⟨v, hv, h⟩ =>
        ⟨_, .putPair _ .ip loc v 2 _ hv (.inl ⟨_, rfl, rfl, rfl⟩) (length_encode16 _ _), h⟩
    | ipBswap => exact (execIpBswap_cases h).imp_right fun ⟨_, hv, h⟩ => ⟨_, .ipBswap _ _ hv, h⟩
    | ipSetCsum loc =>
      exact (execIpSetCsum_cases h).imp_right fun ⟨r, hr, h⟩ =>
        ⟨_, .putPair _ .ip loc r.1 10 _ (State.ipSummed_eq_ok hr).1 (.inr (.inl ⟨rfl, rfl, rfl⟩)) rfl, h⟩
    | ipReply => exact (execIpReply_cases h).imp_right fun ⟨_, hv, hq, h⟩ => ⟨_, .ipReply _ _ hv hq, h⟩
    | icmpParse => exact (execIcmpParse_cases h).imp_right fun ⟨_, hv, h⟩ => ⟨_, .icmpParse _ _ hv, h⟩
    | icmpBuild => exact (execIcmpBuild_cases h).imp_right fun h => ⟨_, .icmpBuild _ _, h⟩
    | icmpSetCsum r1 loc =>
      exact (execIcmpSetCsum_cases h).imp_right fun ⟨r, hr, h⟩ =>
        ⟨_, .putPair _ .icmp loc r.1 2 _ (State.icmpSummed_eq_ok hr).1 (.inr (.inr (.inl ⟨_, rfl, rfl, rfl⟩))) rfl, h⟩
    | udpParse => exact (execUdpParse_cases h).imp_right fun ⟨_, hv, _, _, h⟩ => ⟨_, .udpParse _ _ hv, h⟩
    | udpBswap => exact (execUdpBswap_cases h).imp_right fun ⟨_, hv, h⟩ => ⟨_, .udpBswap _ _ hv, h⟩
    | udpReply => exact (execUdpReply_cases h).imp_right fun ⟨_, hv, h⟩ => ⟨_, .udpReply _ _ hv, h⟩
    | udpSetCsum a b loc =>
      exact (execUdpSetCsum_cases h).imp_right fun ⟨r, hr, h⟩ =>
        ⟨_, .putPair _ .udp loc r.1 6 _ (State.udpSummed_eq_ok hr).1 (.inr (.inr (.inr ⟨_, _, rfl, rfl, rfl⟩))) rfl, h⟩
    | _ => simp [Instr.dest] at hd

/-- Every command has a next state. -/
theorem exec_next (i : Instr) (s : State) : ∃ t, exec i s = .next t := by
  have hv : ∀ rd body, ∃ t, s.commandValue rd body = .next t := by
    intro rd body; unfold State.commandValue; split
    · exact ⟨_, rfl⟩
    · split <;> exact ⟨_, rfl⟩
  have he : ∀ body, ∃ t, s.commandEffect body = .next t := by
    intro body; unfold State.commandEffect; split
    · exact ⟨_, rfl⟩
    · split <;> exact ⟨_, rfl⟩
  by_cases hc : ∃ rd csr, i = .sysRdcsr rd csr
  · obtain ⟨rd, csr, rfl⟩ := hc
    show ∃ t, execSysRdcsr rd csr s = _
    unfold execSysRdcsr
    split <;> exact ⟨_, rfl⟩
  · cases hd : i.dest with
    | some rd =>
      obtain ⟨b, hb⟩ := exec_of_dest s hd (fun csr h => hc ⟨rd, csr, h⟩)
      rw [hb]; exact hv _ _
    | none => cases i <;> first | exact he _ | exact he (.ok _) | cases hd

/-- Rule R223: a header command whose view is refused ends with that refusal. -/
theorem exec_header_error {i : Instr} {kind : Kind} {loc : Loc} (hd : i.header? = some (kind, loc)) {s : State} {a : Abort}
    (hv : s.hv kind loc = .error a) (hf : s.faulted = false) : exec i s = .next (s.abort a) := by
  cases i <;> simp only [Instr.header?, reduceCtorEq, Option.some.injEq, Prod.mk.injEq] at hd <;>
    obtain ⟨rfl, rfl⟩ := hd <;>
    first
    | (show State.commandValue s _ (s.hv _ _ >>= _) = _
       rw [hv]; exact State.commandValue_error hf _ a)
    | (show State.commandEffect s (s.hv _ _ >>= _) = _
       rw [hv]; exact State.commandEffect_error hf a)
    | (show State.commandValue s _ (s.ipSummed _ >>= _) = _
       rw [State.ipSummed, hv]; exact State.commandValue_error hf _ a)
    | (show State.commandEffect s (s.ipSummed _ >>= _) = _
       rw [State.ipSummed, hv]; exact State.commandEffect_error hf a)
    | (show State.commandValue s _ (s.icmpSummed _ _ >>= _) = _
       rw [State.icmpSummed, hv]; exact State.commandValue_error hf _ a)
    | (show State.commandEffect s (s.icmpSummed _ _ >>= _) = _
       rw [State.icmpSummed, hv]; exact State.commandEffect_error hf a)
    | (show State.commandValue s _ (s.udpSummed _ >>= _) = _
       rw [State.udpSummed, hv]; exact State.commandValue_error hf _ a)
    | (show State.commandEffect s (s.udpSummed _ >>= _) = _
       rw [State.udpSummed, hv]; exact State.commandEffect_error hf a)

end Sys2Proof.Machine
end

