-- ==== Sys2Proof/Laws/PerInstr.lean ====
section
/-! SUPPORT. A fact about every command as syntax, one lemma per constructor: its word is one that its row of the opcode table
admits (rule R78). -/

namespace Sys2Proof.Laws

/-- Rule R78: the word of a well-formed command satisfies `w & mask = match` and the constraint of the command's row. -/
def EncodeMatchesRow.Statement (i : Instr) : Prop := i.wellFormed = true → i.row.admits (encode i) = true

/-- The two tests of a row. -/
theorem admits_of {r : OpcodeRow} {w : Word} (h : w &&& r.mask = r.pattern) (hc : r.constr.holds w = true) :
    r.admits w = true := by
  simp [OpcodeRow.admits, h, hc]

theorem and_none {n : Nat} {x m q : BitVec n} (hm : m = 0) (hq : q = 0) : x &&& m = q := by rw [hm, hq]; simp

theorem and_bank (p : BankId) {m q : BitVec 2} (hm : m = 2) (hq : q = 0) : p.bits &&& m = q := by
  subst hm hq; cases p <;> rfl

theorem loc_bits_ne (l : Loc) : (l.bits != 3) = true := by rcases l with (_ | _) | _ <;> rfl

theorem sel_bits_ne (j : OffSel) : (j.bits != 3) = true := by cases j <;> rfl

/-! ### A format's word against a mask and a pattern, field by field -/

theorem formatI_matches {op : BitVec 8} {rd : Reg} {imm16 : Half} {m q : Word} (h0 : op &&& fieldOp m = fieldOp q)
    (h1 : rd &&& fieldRd m = fieldRd q) (h2 : fieldRs1 q = 0) (h3 : imm16 &&& fieldImm16 m = fieldImm16 q) :
    formatI op rd imm16 &&& m = q := by
  rw [← formatI_fields q h2, ← h0, ← h1, ← h3]
  refine Eq.trans (formatI_fields _ ?_).symm ?_
  · simp
  · rw [fieldOp_and, fieldRd_and, fieldOp_formatI, fieldRd_formatI]
    congr 1
    rw [show fieldImm16 (formatI op rd imm16 &&& m) = fieldImm16 (formatI op rd imm16) &&& fieldImm16 m from
      BitVec.extractLsb'_and, fieldImm16_formatI]

theorem formatR_matches {op : BitVec 8} {rd rs1 rs2 rs3 : Reg} {m q : Word} (h0 : op &&& fieldOp m = fieldOp q)
    (h1 : rd &&& fieldRd m = fieldRd q) (h2 : rs1 &&& fieldRs1 m = fieldRs1 q) (h3 : rs2 &&& fieldRs2 m = fieldRs2 q)
    (h4 : rs3 &&& fieldRs3 m = fieldRs3 q) (h5 : fieldLoc q = 0) (h6 : fieldK q = 0) (h7 : fieldJ q = 0)
    (h8 : fieldLow2 q = 0) : formatR op rd rs1 rs2 rs3 &&& m = q := by
  apply word_ext <;> simp [h0, h1, h2, h3, h4, h5, h6, h7, h8]

theorem formatS_matches {op : BitVec 8} {rd rs1 rs2 rs3 : Reg} {loc k j : BitVec 2} {m q : Word}
    (h0 : op &&& fieldOp m = fieldOp q) (h1 : rd &&& fieldRd m = fieldRd q) (h2 : rs1 &&& fieldRs1 m = fieldRs1 q)
    (h3 : rs2 &&& fieldRs2 m = fieldRs2 q) (h4 : rs3 &&& fieldRs3 m = fieldRs3 q)
    (h5 : loc &&& fieldLoc m = fieldLoc q) (h6 : k &&& fieldK m = fieldK q) (h7 : j &&& fieldJ m = fieldJ q)
    (h8 : fieldLow2 q = 0) : formatS op rd rs1 rs2 rs3 loc k j &&& m = q := by
  apply word_ext <;> simp [h0, h1, h2, h3, h4, h5, h6, h7, h8]

theorem formatF_matches {op : BitVec 8} {rd : Reg} {loc : BitVec 2} {fld : BitVec 4} {m q : Word}
    (h0 : op &&& fieldOp m = fieldOp q) (h1 : rd &&& fieldRd m = fieldRd q) (h2 : fieldRs1 q = 0) (h3 : fieldRs2 q = 0)
    (h4 : fieldRs3 q = 0) (h5 : loc &&& fieldLoc m = fieldLoc q) (h6 : fieldK q = 0)
    (h7 : fld.extractLsb' 2 2 &&& fieldJ m = fieldJ q) (h8 : fld.extractLsb' 0 2 &&& fieldLow2 m = fieldLow2 q) :
    formatF op rd loc fld &&& m = q := by
  apply word_ext <;> simp [h0, h1, h2, h3, h4, h5, h6, h7, h8]

theorem locNot3_formatS {op : BitVec 8} {rd rs1 rs2 rs3 : Reg} {l : Loc} {k j : BitVec 2} :
    RowConstraint.locNot3.holds (formatS op rd rs1 rs2 rs3 l.bits k j) = true := by
  rw [RowConstraint.holds, fieldLoc_formatS]; exact loc_bits_ne l

theorem locNot3_formatF {op : BitVec 8} {rd : Reg} {l : Loc} {fld : BitVec 4} :
    RowConstraint.locNot3.holds (formatF op rd l.bits fld) = true := by
  rw [RowConstraint.holds, fieldLoc_formatF]; exact loc_bits_ne l

theorem jNot3_formatS {op : BitVec 8} {rd rs1 rs2 rs3 : Reg} {loc k : BitVec 2} {j : OffSel} :
    RowConstraint.jNot3.holds (formatS op rd rs1 rs2 rs3 loc k j.bits) = true := by
  rw [RowConstraint.holds, fieldJ_formatS]; exact sel_bits_ne j

/-! ### The family -/

theorem EncodeMatchesRow.li (rd : Reg) (imm16 : Half) : EncodeMatchesRow.Statement (.li rd imm16) := fun _ =>
  admits_of (formatI_matches (m := 0xFF0F0000#32) (q := 0x10000000#32)
    (by decide) (and_none (by decide) (by decide)) (by decide) (and_none (by decide) (by decide))) rfl

theorem EncodeMatchesRow.lih (rd : Reg) (imm16 : Half) : EncodeMatchesRow.Statement (.lih rd imm16) := fun _ =>
  admits_of (formatI_matches (m := 0xFF0F0000#32) (q := 0x11000000#32)
    (by decide) (and_none (by decide) (by decide)) (by decide) (and_none (by decide) (by decide))) rfl

theorem EncodeMatchesRow.add (rd : Reg) (rs1 : Reg) (rs2 : Reg) : EncodeMatchesRow.Statement (.add rd rs1 rs2) := fun _ =>
  admits_of (formatR_matches (m := 0xFF000FFF#32) (q := 0x12000000#32)
    (by decide) (and_none (by decide) (by decide)) (and_none (by decide) (by decide)) (and_none (by decide) (by decide)) (by decide) (by decide) (by decide) (by decide) (by decide)) rfl

theorem EncodeMatchesRow.sub (rd : Reg) (rs1 : Reg) (rs2 : Reg) : EncodeMatchesRow.Statement (.sub rd rs1 rs2) := fun _ =>
  admits_of (formatR_matches (m := 0xFF000FFF#32) (q := 0x13000000#32)
    (by decide) (and_none (by decide) (by decide)) (and_none (by decide) (by decide)) (and_none (by decide) (by decide)) (by decide) (by decide) (by decide) (by decide) (by decide)) rfl

theorem EncodeMatchesRow.csfold (rd : Reg) (rs1 : Reg) (rs2 : Reg) : EncodeMatchesRow.Statement (.csfold rd rs1 rs2) := fun _ =>
  admits_of (formatR_matches (m := 0xFF000FFF#32) (q := 0x20000000#32)
    (by decide) (and_none (by decide) (by decide)) (and_none (by decide) (by decide)) (and_none (by decide) (by decide)) (by decide) (by decide) (by decide) (by decide) (by decide)) rfl

theorem EncodeMatchesRow.csum (rd : Reg) (rs3 : Reg) (k : RgnIdx) : EncodeMatchesRow.Statement (.csum rd rs3 k) := fun _ =>
  admits_of (formatS_matches (m := 0xFF0FF0CF#32) (q := 0x21000000#32)
    (by decide) (and_none (by decide) (by decide)) (by decide) (by decide) (and_none (by decide) (by decide)) (by decide) (and_none (by decide) (by decide)) (by decide) (by decide)) rfl

theorem EncodeMatchesRow.csum2 (rd : Reg) (rs3 : Reg) (k : RgnIdx) (j : RgnIdx) : EncodeMatchesRow.Statement (.csum2 rd rs3 k j) := fun _ =>
  admits_of (formatS_matches (m := 0xFF0FF0C3#32) (q := 0x22000000#32)
    (by decide) (and_none (by decide) (by decide)) (by decide) (by decide) (and_none (by decide) (by decide)) (by decide) (and_none (by decide) (by decide)) (and_none (by decide) (by decide)) (by decide)) rfl

theorem EncodeMatchesRow.rgnSet (rs1 : Reg) (rs2 : Reg) (loc : BankId) (k : RgnIdx) : EncodeMatchesRow.Statement (.rgnSet rs1 rs2 loc k) := fun _ =>
  admits_of (formatS_matches (m := 0xFFF00F8F#32) (q := 0x30000000#32)
    (by decide) (by decide) (and_none (by decide) (by decide)) (and_none (by decide) (by decide)) (by decide) (and_bank loc (by decide) (by decide)) (and_none (by decide) (by decide)) (by decide) (by decide)) rfl

theorem EncodeMatchesRow.pktNew (rs1 : Reg) (loc : BankId) : EncodeMatchesRow.Statement (.pktNew rs1 loc) := fun _ =>
  admits_of (formatS_matches (m := 0xFFF0FFBF#32) (q := 0x31000000#32)
    (by decide) (by decide) (and_none (by decide) (by decide)) (by decide) (by decide) (and_bank loc (by decide) (by decide)) (by decide) (by decide) (by decide)) rfl

theorem EncodeMatchesRow.pktNewReply (loc : BankId) (k : RgnIdx) : EncodeMatchesRow.Statement (.pktNewReply loc k) := fun _ =>
  admits_of (formatS_matches (m := 0xFFFFFF8F#32) (q := 0x32000000#32)
    (by decide) (by decide) (by decide) (by decide) (by decide) (and_bank loc (by decide) (by decide)) (and_none (by decide) (by decide)) (by decide) (by decide)) rfl

theorem EncodeMatchesRow.pktWr8 (rs1 : Reg) (rs2 : Reg) (loc : BankId) : EncodeMatchesRow.Statement (.pktWr8 rs1 rs2 loc) := fun _ =>
  admits_of (formatS_matches (m := 0xFFF00FBF#32) (q := 0x33000000#32)
    (by decide) (by decide) (and_none (by decide) (by decide)) (and_none (by decide) (by decide)) (by decide) (and_bank loc (by decide) (by decide)) (by decide) (by decide) (by decide)) rfl

theorem EncodeMatchesRow.pktRd8 (rd : Reg) (rs1 : Reg) (loc : BankId) : EncodeMatchesRow.Statement (.pktRd8 rd rs1 loc) := fun _ =>
  admits_of (formatS_matches (m := 0xFF00FFBF#32) (q := 0x34000000#32)
    (by decide) (and_none (by decide) (by decide)) (and_none (by decide) (by decide)) (by decide) (by decide) (and_bank loc (by decide) (by decide)) (by decide) (by decide) (by decide)) rfl

theorem EncodeMatchesRow.pktFillI (loc : BankId) : EncodeMatchesRow.Statement (.pktFillI loc) := fun _ =>
  admits_of (formatS_matches (m := 0xFFFFFFBF#32) (q := 0x35000000#32)
    (by decide) (by decide) (by decide) (by decide) (by decide) (and_bank loc (by decide) (by decide)) (by decide) (by decide) (by decide)) rfl

theorem EncodeMatchesRow.pktFillU (loc : BankId) : EncodeMatchesRow.Statement (.pktFillU loc) := fun _ =>
  admits_of (formatS_matches (m := 0xFFFFFFBF#32) (q := 0x36000000#32)
    (by decide) (by decide) (by decide) (by decide) (by decide) (and_bank loc (by decide) (by decide)) (by decide) (by decide) (by decide)) rfl

theorem EncodeMatchesRow.pktFillN (loc : BankId) : EncodeMatchesRow.Statement (.pktFillN loc) := fun _ =>
  admits_of (formatS_matches (m := 0xFFFFFFBF#32) (q := 0x37000000#32)
    (by decide) (by decide) (by decide) (by decide) (by decide) (and_bank loc (by decide) (by decide)) (by decide) (by decide) (by decide)) rfl

theorem EncodeMatchesRow.pktGetOff (rd : Reg) (loc : BankId) (j : OffSel) : EncodeMatchesRow.Statement (.pktGetOff rd loc j) := fun _ =>
  admits_of (formatS_matches (m := 0xFF0FFFB3#32) (q := 0x38000000#32)
    (by decide) (and_none (by decide) (by decide)) (by decide) (by decide) (by decide) (and_bank loc (by decide) (by decide)) (by decide) (and_none (by decide) (by decide)) (by decide)) jNot3_formatS

theorem EncodeMatchesRow.pktTlen (rd : Reg) (loc : BankId) : EncodeMatchesRow.Statement (.pktTlen rd loc) := fun _ =>
  admits_of (formatS_matches (m := 0xFF0FFFBF#32) (q := 0x39000000#32)
    (by decide) (and_none (by decide) (by decide)) (by decide) (by decide) (by decide) (and_bank loc (by decide) (by decide)) (by decide) (by decide) (by decide)) rfl

theorem EncodeMatchesRow.pktPayload (loc : BankId) (k : RgnIdx) : EncodeMatchesRow.Statement (.pktPayload loc k) := fun _ =>
  admits_of (formatS_matches (m := 0xFFFFFF8F#32) (q := 0x3A000000#32)
    (by decide) (by decide) (by decide) (by decide) (by decide) (and_bank loc (by decide) (by decide)) (and_none (by decide) (by decide)) (by decide) (by decide)) rfl

theorem EncodeMatchesRow.pktWhole (loc : BankId) (k : RgnIdx) : EncodeMatchesRow.Statement (.pktWhole loc k) := fun _ =>
  admits_of (formatS_matches (m := 0xFFFFFF8F#32) (q := 0x3B000000#32)
    (by decide) (by decide) (by decide) (by decide) (by decide) (and_bank loc (by decide) (by decide)) (and_none (by decide) (by decide)) (by decide) (by decide)) rfl

theorem EncodeMatchesRow.ipParse (loc : BankId) : EncodeMatchesRow.Statement (.ipParse loc) := fun _ =>
  admits_of (formatS_matches (m := 0xFFFFFFBF#32) (q := 0x40000000#32)
    (by decide) (by decide) (by decide) (by decide) (by decide) (and_bank loc (by decide) (by decide)) (by decide) (by decide) (by decide)) rfl

theorem EncodeMatchesRow.ipVersion (rd : Reg) (loc : Loc) : EncodeMatchesRow.Statement (.ipVersion rd loc) := fun _ =>
  admits_of (formatF_matches (m := 0xFF0FFF3F#32) (q := 0x41000000#32)
    (by decide) (and_none (by decide) (by decide)) (by decide) (by decide) (by decide) (and_none (by decide) (by decide)) (by decide) (by decide) (by decide)) locNot3_formatF

theorem EncodeMatchesRow.ipHlen (rd : Reg) (loc : Loc) : EncodeMatchesRow.Statement (.ipHlen rd loc) := fun _ =>
  admits_of (formatF_matches (m := 0xFF0FFF3F#32) (q := 0x41000001#32)
    (by decide) (and_none (by decide) (by decide)) (by decide) (by decide) (by decide) (and_none (by decide) (by decide)) (by decide) (by decide) (by decide)) locNot3_formatF

theorem EncodeMatchesRow.ipDscp (rd : Reg) (loc : Loc) : EncodeMatchesRow.Statement (.ipDscp rd loc) := fun _ =>
  admits_of (formatF_matches (m := 0xFF0FFF3F#32) (q := 0x41000002#32)
    (by decide) (and_none (by decide) (by decide)) (by decide) (by decide) (by decide) (and_none (by decide) (by decide)) (by decide) (by decide) (by decide)) locNot3_formatF

theorem EncodeMatchesRow.ipTotLen (rd : Reg) (loc : Loc) : EncodeMatchesRow.Statement (.ipTotLen rd loc) := fun _ =>
  admits_of (formatF_matches (m := 0xFF0FFF3F#32) (q := 0x41000003#32)
    (by decide) (and_none (by decide) (by decide)) (by decide) (by decide) (by decide) (and_none (by decide) (by decide)) (by decide) (by decide) (by decide)) locNot3_formatF

theorem EncodeMatchesRow.ipId (rd : Reg) (loc : Loc) : EncodeMatchesRow.Statement (.ipId rd loc) := fun _ =>
  admits_of (formatF_matches (m := 0xFF0FFF3F#32) (q := 0x41000004#32)
    (by decide) (and_none (by decide) (by decide)) (by decide) (by decide) (by decide) (and_none (by decide) (by decide)) (by decide) (by decide) (by decide)) locNot3_formatF

theorem EncodeMatchesRow.ipFlags (rd : Reg) (loc : Loc) : EncodeMatchesRow.Statement (.ipFlags rd loc) := fun _ =>
  admits_of (formatF_matches (m := 0xFF0FFF3F#32) (q := 0x41000005#32)
    (by decide) (and_none (by decide) (by decide)) (by decide) (by decide) (by decide) (and_none (by decide) (by decide)) (by decide) (by decide) (by decide)) locNot3_formatF

theorem EncodeMatchesRow.ipFragOff (rd : Reg) (loc : Loc) : EncodeMatchesRow.Statement (.ipFragOff rd loc) := fun _ =>
  admits_of (formatF_matches (m := 0xFF0FFF3F#32) (q := 0x41000006#32)
    (by decide) (and_none (by decide) (by decide)) (by decide) (by decide) (by decide) (and_none (by decide) (by decide)) (by decide) (by decide) (by decide)) locNot3_formatF

theorem EncodeMatchesRow.ipRsv (rd : Reg) (loc : Loc) : EncodeMatchesRow.Statement (.ipRsv rd loc) := fun _ =>
  admits_of (formatF_matches (m := 0xFF0FFF3F#32) (q := 0x41000007#32)
    (by decide) (and_none (by decide) (by decide)) (by decide) (by decide) (by decide) (and_none (by decide) (by decide)) (by decide) (by decide) (by decide)) locNot3_formatF

theorem EncodeMatchesRow.ipDf (rd : Reg) (loc : Loc) : EncodeMatchesRow.Statement (.ipDf rd loc) := fun _ =>
  admits_of (formatF_matches (m := 0xFF0FFF3F#32) (q := 0x41000008#32)
    (by decide) (and_none (by decide) (by decide)) (by decide) (by decide) (by decide) (and_none (by decide) (by decide)) (by decide) (by decide) (by decide)) locNot3_formatF

theorem EncodeMatchesRow.ipMf (rd : Reg) (loc : Loc) : EncodeMatchesRow.Statement (.ipMf rd loc) := fun _ =>
  admits_of (formatF_matches (m := 0xFF0FFF3F#32) (q := 0x41000009#32)
    (by decide) (and_none (by decide) (by decide)) (by decide) (by decide) (by decide) (and_none (by decide) (by decide)) (by decide) (by decide) (by decide)) locNot3_formatF

theorem EncodeMatchesRow.ipTtl (rd : Reg) (loc : Loc) : EncodeMatchesRow.Statement (.ipTtl rd loc) := fun _ =>
  admits_of (formatF_matches (m := 0xFF0FFF3F#32) (q := 0x4100000A#32)
    (by decide) (and_none (by decide) (by decide)) (by decide) (by decide) (by decide) (and_none (by decide) (by decide)) (by decide) (by decide) (by decide)) locNot3_formatF

theorem EncodeMatchesRow.ipProto (rd : Reg) (loc : Loc) : EncodeMatchesRow.Statement (.ipProto rd loc) := fun _ =>
  admits_of (formatF_matches (m := 0xFF0FFF3F#32) (q := 0x4100000B#32)
    (by decide) (and_none (by decide) (by decide)) (by decide) (by decide) (by decide) (and_none (by decide) (by decide)) (by decide) (by decide) (by decide)) locNot3_formatF

theorem EncodeMatchesRow.ipCkFld (rd : Reg) (loc : Loc) : EncodeMatchesRow.Statement (.ipCkFld rd loc) := fun _ =>
  admits_of (formatF_matches (m := 0xFF0FFF3F#32) (q := 0x4100000C#32)
    (by decide) (and_none (by decide) (by decide)) (by decide) (by decide) (by decide) (and_none (by decide) (by decide)) (by decide) (by decide) (by decide)) locNot3_formatF

theorem EncodeMatchesRow.ipSrc (rd : Reg) (loc : Loc) : EncodeMatchesRow.Statement (.ipSrc rd loc) := fun _ =>
  admits_of (formatF_matches (m := 0xFF0FFF3F#32) (q := 0x4100000D#32)
    (by decide) (and_none (by decide) (by decide)) (by decide) (by decide) (by decide) (and_none (by decide) (by decide)) (by decide) (by decide) (by decide)) locNot3_formatF

theorem EncodeMatchesRow.ipDst (rd : Reg) (loc : Loc) : EncodeMatchesRow.Statement (.ipDst rd loc) := fun _ =>
  admits_of (formatF_matches (m := 0xFF0FFF3F#32) (q := 0x4100000E#32)
    (by decide) (and_none (by decide) (by decide)) (by decide) (by decide) (by decide) (and_none (by decide) (by decide)) (by decide) (by decide) (by decide)) locNot3_formatF

theorem EncodeMatchesRow.ipSetTotLen (rs1 : Reg) (loc : Loc) : EncodeMatchesRow.Statement (.ipSetTotLen rs1 loc) := fun _ =>
  admits_of (formatS_matches (m := 0xFFF0FF3F#32) (q := 0x42000000#32)
    (by decide) (by decide) (and_none (by decide) (by decide)) (by decide) (by decide) (and_none (by decide) (by decide)) (by decide) (by decide) (by decide)) locNot3_formatS

theorem EncodeMatchesRow.ipBswap (loc : Loc) : EncodeMatchesRow.Statement (.ipBswap loc) := fun _ =>
  admits_of (formatS_matches (m := 0xFFFFFF3F#32) (q := 0x43000000#32)
    (by decide) (by decide) (by decide) (by decide) (by decide) (and_none (by decide) (by decide)) (by decide) (by decide) (by decide)) locNot3_formatS

theorem EncodeMatchesRow.ipCsum (rd : Reg) (loc : Loc) : EncodeMatchesRow.Statement (.ipCsum rd loc) := fun _ =>
  admits_of (formatS_matches (m := 0xFF0FFF3F#32) (q := 0x44000000#32)
    (by decide) (and_none (by decide) (by decide)) (by decide) (by decide) (by decide) (and_none (by decide) (by decide)) (by decide) (by decide) (by decide)) locNot3_formatS

theorem EncodeMatchesRow.ipSetCsum (loc : Loc) : EncodeMatchesRow.Statement (.ipSetCsum loc) := fun _ =>
  admits_of (formatS_matches (m := 0xFFFFFF3F#32) (q := 0x45000000#32)
    (by decide) (by decide) (by decide) (by decide) (by decide) (and_none (by decide) (by decide)) (by decide) (by decide) (by decide)) locNot3_formatS

theorem EncodeMatchesRow.ipVerify (rd : Reg) (loc : Loc) : EncodeMatchesRow.Statement (.ipVerify rd loc) := fun _ =>
  admits_of (formatS_matches (m := 0xFF0FFF3F#32) (q := 0x46000000#32)
    (by decide) (and_none (by decide) (by decide)) (by decide) (by decide) (by decide) (and_none (by decide) (by decide)) (by decide) (by decide) (by decide)) locNot3_formatS

theorem EncodeMatchesRow.ipReply (loc : Loc) : EncodeMatchesRow.Statement (.ipReply loc) := fun _ =>
  admits_of (formatS_matches (m := 0xFFFFFF3F#32) (q := 0x47000000#32)
    (by decide) (by decide) (by decide) (by decide) (by decide) (and_none (by decide) (by decide)) (by decide) (by decide) (by decide)) locNot3_formatS

theorem EncodeMatchesRow.icmpParse (loc : BankId) : EncodeMatchesRow.Statement (.icmpParse loc) := fun _ =>
  admits_of (formatS_matches (m := 0xFFFFFFBF#32) (q := 0x50000000#32)
    (by decide) (by decide) (by decide) (by decide) (by decide) (and_bank loc (by decide) (by decide)) (by decide) (by decide) (by decide)) rfl

theorem EncodeMatchesRow.icmpType (rd : Reg) (loc : Loc) : EncodeMatchesRow.Statement (.icmpType rd loc) := fun _ =>
  admits_of (formatF_matches (m := 0xFF0FFF3F#32) (q := 0x51000000#32)
    (by decide) (and_none (by decide) (by decide)) (by decide) (by decide) (by decide) (and_none (by decide) (by decide)) (by decide) (by decide) (by decide)) locNot3_formatF

theorem EncodeMatchesRow.icmpCode (rd : Reg) (loc : Loc) : EncodeMatchesRow.Statement (.icmpCode rd loc) := fun _ =>
  admits_of (formatF_matches (m := 0xFF0FFF3F#32) (q := 0x51000001#32)
    (by decide) (and_none (by decide) (by decide)) (by decide) (by decide) (by decide) (and_none (by decide) (by decide)) (by decide) (by decide) (by decide)) locNot3_formatF

theorem EncodeMatchesRow.icmpCkFld (rd : Reg) (loc : Loc) : EncodeMatchesRow.Statement (.icmpCkFld rd loc) := fun _ =>
  admits_of (formatF_matches (m := 0xFF0FFF3F#32) (q := 0x51000002#32)
    (by decide) (and_none (by decide) (by decide)) (by decide) (by decide) (by decide) (and_none (by decide) (by decide)) (by decide) (by decide) (by decide)) locNot3_formatF

theorem EncodeMatchesRow.icmpBuild (rs1 : Reg) (rs2 : Reg) : EncodeMatchesRow.Statement (.icmpBuild rs1 rs2) := fun _ =>
  admits_of (formatR_matches (m := 0xFFF00FFF#32) (q := 0x52000000#32)
    (by decide) (by decide) (and_none (by decide) (by decide)) (and_none (by decide) (by decide)) (by decide) (by decide) (by decide) (by decide) (by decide)) rfl

theorem EncodeMatchesRow.icmpCsum (rd : Reg) (rs1 : Reg) (loc : Loc) : EncodeMatchesRow.Statement (.icmpCsum rd rs1 loc) := fun _ =>
  admits_of (formatS_matches (m := 0xFF00FF3F#32) (q := 0x53000000#32)
    (by decide) (and_none (by decide) (by decide)) (and_none (by decide) (by decide)) (by decide) (by decide) (and_none (by decide) (by decide)) (by decide) (by decide) (by decide)) locNot3_formatS

theorem EncodeMatchesRow.icmpSetCsum (rs1 : Reg) (loc : Loc) : EncodeMatchesRow.Statement (.icmpSetCsum rs1 loc) := fun _ =>
  admits_of (formatS_matches (m := 0xFFF0FF3F#32) (q := 0x54000000#32)
    (by decide) (by decide) (and_none (by decide) (by decide)) (by decide) (by decide) (and_none (by decide) (by decide)) (by decide) (by decide) (by decide)) locNot3_formatS

theorem EncodeMatchesRow.udpParse (loc : BankId) : EncodeMatchesRow.Statement (.udpParse loc) := fun _ =>
  admits_of (formatS_matches (m := 0xFFFFFFBF#32) (q := 0x60000000#32)
    (by decide) (by decide) (by decide) (by decide) (by decide) (and_bank loc (by decide) (by decide)) (by decide) (by decide) (by decide)) rfl

theorem EncodeMatchesRow.udpSport (rd : Reg) (loc : Loc) : EncodeMatchesRow.Statement (.udpSport rd loc) := fun _ =>
  admits_of (formatF_matches (m := 0xFF0FFF3F#32) (q := 0x61000000#32)
    (by decide) (and_none (by decide) (by decide)) (by decide) (by decide) (by decide) (and_none (by decide) (by decide)) (by decide) (by decide) (by decide)) locNot3_formatF

theorem EncodeMatchesRow.udpDport (rd : Reg) (loc : Loc) : EncodeMatchesRow.Statement (.udpDport rd loc) := fun _ =>
  admits_of (formatF_matches (m := 0xFF0FFF3F#32) (q := 0x61000001#32)
    (by decide) (and_none (by decide) (by decide)) (by decide) (by decide) (by decide) (and_none (by decide) (by decide)) (by decide) (by decide) (by decide)) locNot3_formatF

theorem EncodeMatchesRow.udpLen (rd : Reg) (loc : Loc) : EncodeMatchesRow.Statement (.udpLen rd loc) := fun _ =>
  admits_of (formatF_matches (m := 0xFF0FFF3F#32) (q := 0x61000002#32)
    (by decide) (and_none (by decide) (by decide)) (by decide) (by decide) (by decide) (and_none (by decide) (by decide)) (by decide) (by decide) (by decide)) locNot3_formatF

theorem EncodeMatchesRow.udpCkFld (rd : Reg) (loc : Loc) : EncodeMatchesRow.Statement (.udpCkFld rd loc) := fun _ =>
  admits_of (formatF_matches (m := 0xFF0FFF3F#32) (q := 0x61000003#32)
    (by decide) (and_none (by decide) (by decide)) (by decide) (by decide) (by decide) (and_none (by decide) (by decide)) (by decide) (by decide) (by decide)) locNot3_formatF

theorem EncodeMatchesRow.udpBswap (loc : Loc) : EncodeMatchesRow.Statement (.udpBswap loc) := fun _ =>
  admits_of (formatS_matches (m := 0xFFFFFF3F#32) (q := 0x62000000#32)
    (by decide) (by decide) (by decide) (by decide) (by decide) (and_none (by decide) (by decide)) (by decide) (by decide) (by decide)) locNot3_formatS

theorem EncodeMatchesRow.udpReply (loc : Loc) : EncodeMatchesRow.Statement (.udpReply loc) := fun _ =>
  admits_of (formatS_matches (m := 0xFFFFFF3F#32) (q := 0x63000000#32)
    (by decide) (by decide) (by decide) (by decide) (by decide) (and_none (by decide) (by decide)) (by decide) (by decide) (by decide)) locNot3_formatS

theorem EncodeMatchesRow.udpCsum (rd : Reg) (rs1 : Reg) (rs2 : Reg) (loc : Loc) : EncodeMatchesRow.Statement (.udpCsum rd rs1 rs2 loc) := fun _ =>
  admits_of (formatS_matches (m := 0xFF000F3F#32) (q := 0x64000000#32)
    (by decide) (and_none (by decide) (by decide)) (and_none (by decide) (by decide)) (and_none (by decide) (by decide)) (by decide) (and_none (by decide) (by decide)) (by decide) (by decide) (by decide)) locNot3_formatS

theorem EncodeMatchesRow.udpSetCsum (rs1 : Reg) (rs2 : Reg) (loc : Loc) : EncodeMatchesRow.Statement (.udpSetCsum rs1 rs2 loc) := fun _ =>
  admits_of (formatS_matches (m := 0xFFF00F3F#32) (q := 0x65000000#32)
    (by decide) (by decide) (and_none (by decide) (by decide)) (and_none (by decide) (by decide)) (by decide) (and_none (by decide) (by decide)) (by decide) (by decide) (by decide)) locNot3_formatS

theorem EncodeMatchesRow.sysRdcsr (rd : Reg) (csr : BitVec 4) : EncodeMatchesRow.Statement (.sysRdcsr rd csr) := fun h =>
  admits_of (formatF_matches (m := 0xFF0FFFF0#32) (q := 0x70000000#32)
    (by decide) (and_none (by decide) (by decide)) (by decide) (by decide) (by decide) (by decide) (by decide) (and_none (by decide) (by decide)) (and_none (by decide) (by decide))) (by simpa [encode, Instr.row, RowConstraint.holds, Instr.wellFormed] using h)

end Sys2Proof.Laws
end

