-- ==== Sys2Proof/Laws/Views.lean ====
section
/-! SUPPORT. What header commands can do through a view (rule R54): the bytes they store, what a store leaves of the views,
and the refusals that every one of them shares. -/

namespace Sys2Proof.Machine

/-! ### The bytes of an image -/

@[simp] theorem State.length_imageBytes (s : State) (v : View) (n : Nat) : (s.imageBytes v n).length = n := by
  simp [State.imageBytes]

theorem State.getD_imageBytes (s : State) (v : View) (n i : Nat) (h : i < n) : (s.imageBytes v n).getD i 0 = s.byteAt v i := by
  simp [State.imageBytes, h]

/-- Two bytes stored through a view. -/
theorem State.storeByte_putPair {s : State} {kind : Kind} {loc : Loc} {v : View} (hv : s.hv kind loc = .ok v) {i : Nat}
    (hi : i + 2 ≤ kind.minLen) (bs : List Byte) (hb : bs.length = 2) (st : Store) (a : Nat) :
    (s.putBytes v i bs).storeByte st a =
      if st = v.store ∧ a = v.off + i then bs.getD 0 0
      else if st = v.store ∧ a = v.off + i + 1 then bs.getD 1 0 else s.storeByte st a := by
  have hh := State.hv_holds hv hi
  rw [State.putBytes, State.storeByte_storeWrite _ _ _ _ _ _ (by rw [hb]; simpa [Nat.add_assoc] using hh), hb]
  by_cases h0 : st = v.store
  · simp only [h0, true_and]
    by_cases h1 : a = v.off + i
    · rw [if_pos h1, if_pos (by omega), show a - (v.off + i) = 0 by omega]
    · rw [if_neg h1]
      by_cases h2 : a = v.off + i + 1
      · rw [if_pos h2, if_pos (by omega), show a - (v.off + i) = 1 by omega]
      · rw [if_neg h2, if_neg (by omega)]
  · simp [h0]

/-- Bytes reversed through a view. -/
theorem State.storeByte_reverseAt {s : State} {kind : Kind} {loc : Loc} {v : View} (hv : s.hv kind loc = .ok v) (i n : Nat)
    (hi : i + n ≤ kind.minLen) (st : Store) (a : Nat) :
    (s.reverseAt v i n).storeByte st a =
      if st = v.store ∧ v.off + i ≤ a ∧ a < v.off + i + n then s.byteAt v (i + (n - 1 - (a - (v.off + i))))
      else s.storeByte st a := by
  have hh := State.hv_holds hv hi
  rw [State.reverseAt, State.putBytes,
    State.storeByte_storeWrite _ _ _ _ _ _ (by simpa [Nat.add_assoc] using hh)]
  simp only [List.length_reverse, State.length_bytesAt]
  split
  · next h =>
    obtain ⟨-, h2, h3⟩ := h
    have hlt : a - (v.off + i) < n := by omega
    rw [← State.getD_bytesAt s v i n (n - 1 - (a - (v.off + i))) (by omega), List.getD_eq_getElem?_getD,
      List.getElem?_reverse (by simpa using hlt), List.getD_eq_getElem?_getD, State.length_bytesAt]
  · rfl

theorem State.storeWrite_bank (s : State) (st : Store) (a : Nat) (bs : List Byte) (p : BankId) :
    (s.storeWrite st a bs).bank p =
      if st = .bank p then { s.bank p with mem := (s.bank p).mem.writeBytes a bs } else s.bank p := by
  rcases st with (_ | _) | _ | _ | _ <;> cases p <;> rfl

/-- A store of bytes changes bytes and nothing else. -/
theorem State.onlyStores_storeWrite (s : State) (st : Store) (a : Nat) (bs : List Byte) :
    s.OnlyStores ((s.storeWrite st a bs).reply .stOk 0) := by
  rcases st with (_ | _) | _ | _ | _ <;> rfl

/-- A replaced bank and nothing else. -/
theorem State.onlyBank_setBank (s : State) (p : BankId) (b : Bank) : s.OnlyBank ((s.setBank p b).reply .stOk 0) p := by
  cases p <;> rfl

/-! ### Views after a store or a new tag -/

/-- A store of bytes moves no view. -/
theorem State.hv_putBytes (s : State) (v : View) (i : Nat) (bs : List Byte) (kind : Kind) (loc : Loc) :
    (s.putBytes v i bs).hv kind loc = s.hv kind loc := by
  rcases loc with p | _
  · have hk : ∀ (b : Bank) (m : Memory), kind.anchor { b with mem := m } = kind.anchor b ∧
        kind.bankOrder { b with mem := m } = kind.bankOrder b := by
      intro b m; cases kind <;> exact ⟨rfl, rfl⟩
    have e := State.storeWrite_bank s v.store (v.off + i) bs p
    rw [← State.putBytes] at e
    split at e
    · unfold State.hv; simp only [e, (hk _ _).1, (hk _ _).2]
    · unfold State.hv; simp only [e]
  · rcases v with ⟨(_ | _) | _ | _ | _, _⟩ <;> cases kind <;> rfl

theorem State.hv_reverseAt (s : State) (v : View) (i n : Nat) (kind : Kind) (loc : Loc) :
    (s.reverseAt v i n).hv kind loc = s.hv kind loc := State.hv_putBytes _ _ _ _ _ _

theorem State.storeByte_setNetOrder (s : State) (loc : Loc) (o : Order) (st : Store) (a : Nat) :
    (s.setNetOrder loc o).storeByte st a = s.storeByte st a := by
  rcases loc with (_ | _) | _ <;> rcases st with (_ | _) | _ | _ | _ <;> rfl

theorem State.storeByte_setTrnOrder (s : State) (loc : Loc) (o : Order) (st : Store) (a : Nat) :
    (s.setTrnOrder loc o).storeByte st a = s.storeByte st a := by
  rcases loc with (_ | _) | _ <;> rcases st with (_ | _) | _ | _ | _ <;> rfl

theorem State.hv_setNetOrder {s : State} {loc : Loc} {v : View} (o : Order) (hv : s.hv .ip loc = .ok v) :
    (s.setNetOrder loc o).hv .ip loc = .ok { v with ord := o } := by
  rcases loc with p | _
  · obtain ⟨off, h1, h2, rfl⟩ := State.hv_bank hv
    have e : (s.setNetOrder (.bank p) o).bank p = { s.bank p with nord := o } := by simp [State.setNetOrder]
    rw [State.hv_bank_some (off := off) (by rw [e]; exact h1), e, if_neg (Nat.not_lt.mpr h2)]
    rfl
  · cases hv; rfl

theorem State.hv_setTrnOrder {s : State} {loc : Loc} {v : View} (o : Order) (hv : s.hv .udp loc = .ok v) :
    (s.setTrnOrder loc o).hv .udp loc = .ok { v with ord := o } := by
  rcases loc with p | _
  · obtain ⟨off, h1, h2, rfl⟩ := State.hv_bank hv
    have e : (s.setTrnOrder (.bank p) o).bank p = { s.bank p with tord := o } := by simp [State.setTrnOrder]
    rw [State.hv_bank_some (off := off) (by rw [e]; exact h1), e, if_neg (Nat.not_lt.mpr h2)]
    rfl
  · cases hv; rfl

end Sys2Proof.Machine
end

