-- ==== Sys2Proof/Machine/Assembler.lean ====
section
/-! DEFINITION. The assembler syntax of the spec (rule R84), its pseudo-instructions (rule R85), and a command list as a
byte stream (rule R83). Notation only: no rule of the block depends on it. -/

namespace Sys2Proof.Machine

/-- `field=xN`. -/
def regOperand (field : String) (r : Reg) : String := field ++ "=x" ++ toString r.toNat

/-- `field=N`. -/
def numOperand (field : String) (n : Nat) : String := field ++ "=" ++ toString n

/-- `P0` or `P1`. -/
def bankName : BankId → String
  | .p0 => "P0"
  | .p1 => "P1"

/-- `loc=P0` or `loc=P1`. -/
def bankOperand (p : BankId) : String := "loc=" ++ bankName p

/-- `loc=P0`, `loc=P1` or `loc=STAGE`. -/
def locOperand : Loc → String
  | .bank p => bankOperand p
  | .stage => "loc=STAGE"

/-- `j=NET`, `j=TRN` or `j=PAY`. -/
def selOperand : OffSel → String
  | .net => "j=NET"
  | .trn => "j=TRN"
  | .pay => "j=PAY"

/-- The name of a CSR number (rules R33, R84); a reserved number is written as the number. -/
def csrName (n : BitVec 4) : String :=
  (["FSR", "FCMD", "CAP", "HEADROOM", "TAGS", "5", "6", "7", "PLEN0", "NOFF0", "TOFF0", "POFF0", "PLEN1", "NOFF1", "TOFF1",
    "POFF1"][n.toNat]?).getD ""

/-- `fld=NAME`. -/
def csrOperand (n : BitVec 4) : String := "fld=" ++ csrName n

/-- The operands of a command in the syntax of rule R84. -/
def operandTexts : Instr → List String
  | .li rd imm16 => [regOperand "rd" rd, numOperand "imm16" imm16.toNat]
  | .lih rd imm16 => [regOperand "rd" rd, numOperand "imm16" imm16.toNat]
  | .add rd rs1 rs2 => [regOperand "rd" rd, regOperand "rs1" rs1, regOperand "rs2" rs2]
  | .sub rd rs1 rs2 => [regOperand "rd" rd, regOperand "rs1" rs1, regOperand "rs2" rs2]
  | .csfold rd rs1 rs2 => [regOperand "rd" rd, regOperand "rs1" rs1, regOperand "rs2" rs2]
  | .csum rd rs3 k => [regOperand "rd" rd, regOperand "rs3" rs3, numOperand "k" k.toNat]
  | .csum2 rd rs3 k j => [regOperand "rd" rd, regOperand "rs3" rs3, numOperand "k" k.toNat, numOperand "j" j.toNat]
  | .rgnSet rs1 rs2 loc k => [regOperand "rs1" rs1, regOperand "rs2" rs2, bankOperand loc, numOperand "k" k.toNat]
  | .pktNew rs1 loc => [regOperand "rs1" rs1, bankOperand loc]
  | .pktNewReply loc k => [bankOperand loc, numOperand "k" k.toNat]
  | .pktWr8 rs1 rs2 loc => [regOperand "rs1" rs1, regOperand "rs2" rs2, bankOperand loc]
  | .pktRd8 rd rs1 loc => [regOperand "rd" rd, regOperand "rs1" rs1, bankOperand loc]
  | .pktFillI loc => [bankOperand loc]
  | .pktFillU loc => [bankOperand loc]
  | .pktFillN loc => [bankOperand loc]
  | .pktGetOff rd loc j => [regOperand "rd" rd, bankOperand loc, selOperand j]
  | .pktTlen rd loc => [regOperand "rd" rd, bankOperand loc]
  | .pktPayload loc k => [bankOperand loc, numOperand "k" k.toNat]
  | .pktWhole loc k => [bankOperand loc, numOperand "k" k.toNat]
  | .ipParse loc => [bankOperand loc]
  | .ipVersion rd loc => [regOperand "rd" rd, locOperand loc]
  | .ipHlen rd loc => [regOperand "rd" rd, locOperand loc]
  | .ipDscp rd loc => [regOperand "rd" rd, locOperand loc]
  | .ipTotLen rd loc => [regOperand "rd" rd, locOperand loc]
  | .ipId rd loc => [regOperand "rd" rd, locOperand loc]
  | .ipFlags rd loc => [regOperand "rd" rd, locOperand loc]
  | .ipFragOff rd loc => [regOperand "rd" rd, locOperand loc]
  | .ipRsv rd loc => [regOperand "rd" rd, locOperand loc]
  | .ipDf rd loc => [regOperand "rd" rd, locOperand loc]
  | .ipMf rd loc => [regOperand "rd" rd, locOperand loc]
  | .ipTtl rd loc => [regOperand "rd" rd, locOperand loc]
  | .ipProto rd loc => [regOperand "rd" rd, locOperand loc]
  | .ipCkFld rd loc => [regOperand "rd" rd, locOperand loc]
  | .ipSrc rd loc => [regOperand "rd" rd, locOperand loc]
  | .ipDst rd loc => [regOperand "rd" rd, locOperand loc]
  | .ipSetTotLen rs1 loc => [regOperand "rs1" rs1, locOperand loc]
  | .ipBswap loc => [locOperand loc]
  | .ipCsum rd loc => [regOperand "rd" rd, locOperand loc]
  | .ipSetCsum loc => [locOperand loc]
  | .ipVerify rd loc => [regOperand "rd" rd, locOperand loc]
  | .ipReply loc => [locOperand loc]
  | .icmpParse loc => [bankOperand loc]
  | .icmpType rd loc => [regOperand "rd" rd, locOperand loc]
  | .icmpCode rd loc => [regOperand "rd" rd, locOperand loc]
  | .icmpCkFld rd loc => [regOperand "rd" rd, locOperand loc]
  | .icmpBuild rs1 rs2 => [regOperand "rs1" rs1, regOperand "rs2" rs2]
  | .icmpCsum rd rs1 loc => [regOperand "rd" rd, regOperand "rs1" rs1, locOperand loc]
  | .icmpSetCsum rs1 loc => [regOperand "rs1" rs1, locOperand loc]
  | .udpParse loc => [bankOperand loc]
  | .udpSport rd loc => [regOperand "rd" rd, locOperand loc]
  | .udpDport rd loc => [regOperand "rd" rd, locOperand loc]
  | .udpLen rd loc => [regOperand "rd" rd, locOperand loc]
  | .udpCkFld rd loc => [regOperand "rd" rd, locOperand loc]
  | .udpBswap loc => [locOperand loc]
  | .udpReply loc => [locOperand loc]
  | .udpCsum rd rs1 rs2 loc => [regOperand "rd" rd, regOperand "rs1" rs1, regOperand "rs2" rs2, locOperand loc]
  | .udpSetCsum rs1 rs2 loc => [regOperand "rs1" rs1, regOperand "rs2" rs2, locOperand loc]
  | .sysRdcsr rd csr => [regOperand "rd" rd, csrOperand csr]

/-- A command in the syntax of rule R84: the mnemonic, then its operands. -/
def assembly (i : Instr) : String := " ".intercalate (i.mnemonic :: operandTexts i)

/-- `LI32 rd, c` (rule R85). -/
def li32 (rd : Reg) (c : Word) : List Instr := [.li rd (c.extractLsb' 0 16), .lih rd (c.extractLsb' 16 16)]

/-- `MV rd, rs` (rule R85). -/
def mv (rd rs : Reg) : List Instr := [.add rd rs 0]

/-- A command list as a byte stream, each word most significant byte first (rule R83). -/
def commandBytes (is : List Instr) : List Byte := is.flatMap fun i => wordBytes (encode i)

end Sys2Proof.Machine
end

