-- ==== Sys2Proof/Tests/Slice0.lean ====
section
/-! SUPPORT. Tests. The words and the expected values come from spec/: the column "match" of rule R78 with the fields of rules
R71 to R74, and the vectors of 95_test_vectors.md (section and row named beside each test). Each step test is one step. The
last part shows, for every obligation with hypotheses, concrete values that meet them. -/

namespace Sys2Proof.Tests

open Sys2Proof Sys2Proof.Machine

/-! ### WellFormed: an ill-formed term for each check, and its neighbours -/

theorem test_wellFormed_reserved_csr :
    Instr.wellFormed (.sysRdcsr 1 5) = false ∧ Instr.wellFormed (.sysRdcsr 1 6) = false ∧
      Instr.wellFormed (.sysRdcsr 1 7) = false := by decide

theorem test_wellFormed_assigned_csr :
    Instr.wellFormed (.sysRdcsr 1 4) = true ∧ Instr.wellFormed (.sysRdcsr 1 8) = true ∧
      Instr.wellFormed (.sysRdcsr 1 15) = true := by decide

/-! ### Decoding: a word of every row, from the table's match column and the formats' field places -/

theorem test_decode_register :
    decode 0x10B0A5C3#32 = .ok (.li 11 0xA5C3) ∧
    decode 0x11B0A5C3#32 = .ok (.lih 11 0xA5C3) ∧
    decode 0x12B69000#32 = .ok (.add 11 6 9) ∧
    decode 0x13B69000#32 = .ok (.sub 11 6 9) := by decide

theorem test_decode_checksum :
    decode 0x20B69000#32 = .ok (.csfold 11 6 9) ∧
    decode 0x21B00D20#32 = .ok (.csum 11 13 2) ∧
    decode 0x22B00D24#32 = .ok (.csum2 11 13 2 1) := by decide

theorem test_decode_rgn :
    decode 0x30069060#32 = .ok (.rgnSet 6 9 .p1 2) := by decide

theorem test_decode_pkt_a :
    decode 0x31060040#32 = .ok (.pktNew 6 .p1) ∧
    decode 0x32000060#32 = .ok (.pktNewReply .p1 2) ∧
    decode 0x33069040#32 = .ok (.pktWr8 6 9 .p1) ∧
    decode 0x34B60040#32 = .ok (.pktRd8 11 6 .p1) ∧
    decode 0x35000040#32 = .ok (.pktFillI .p1) ∧
    decode 0x36000040#32 = .ok (.pktFillU .p1) ∧
    decode 0x37000040#32 = .ok (.pktFillN .p1) ∧
    decode 0x38B00044#32 = .ok (.pktGetOff 11 .p1 .trn) := by decide

theorem test_decode_pkt_b :
    decode 0x39B00040#32 = .ok (.pktTlen 11 .p1) ∧
    decode 0x3A000060#32 = .ok (.pktPayload .p1 2) ∧
    decode 0x3B000060#32 = .ok (.pktWhole .p1 2) := by decide

theorem test_decode_ip_a :
    decode 0x40000040#32 = .ok (.ipParse .p1) ∧
    decode 0x41B00080#32 = .ok (.ipVersion 11 .stage) ∧
    decode 0x41B00001#32 = .ok (.ipHlen 11 (.bank .p0)) ∧
    decode 0x41B00042#32 = .ok (.ipDscp 11 (.bank .p1)) ∧
    decode 0x41B00083#32 = .ok (.ipTotLen 11 .stage) ∧
    decode 0x41B00004#32 = .ok (.ipId 11 (.bank .p0)) ∧
    decode 0x41B00045#32 = .ok (.ipFlags 11 (.bank .p1)) ∧
    decode 0x41B00086#32 = .ok (.ipFragOff 11 .stage) := by decide

theorem test_decode_ip_b :
    decode 0x41B00007#32 = .ok (.ipRsv 11 (.bank .p0)) ∧
    decode 0x41B00048#32 = .ok (.ipDf 11 (.bank .p1)) ∧
    decode 0x41B00089#32 = .ok (.ipMf 11 .stage) ∧
    decode 0x41B0000A#32 = .ok (.ipTtl 11 (.bank .p0)) ∧
    decode 0x41B0004B#32 = .ok (.ipProto 11 (.bank .p1)) ∧
    decode 0x41B0008C#32 = .ok (.ipCkFld 11 .stage) ∧
    decode 0x41B0000D#32 = .ok (.ipSrc 11 (.bank .p0)) ∧
    decode 0x41B0004E#32 = .ok (.ipDst 11 (.bank .p1)) := by decide

theorem test_decode_ip_c :
    decode 0x42060080#32 = .ok (.ipSetTotLen 6 .stage) ∧
    decode 0x43000000#32 = .ok (.ipBswap (.bank .p0)) ∧
    decode 0x44B00040#32 = .ok (.ipCsum 11 (.bank .p1)) ∧
    decode 0x45000080#32 = .ok (.ipSetCsum .stage) ∧
    decode 0x46B00000#32 = .ok (.ipVerify 11 (.bank .p0)) ∧
    decode 0x47000040#32 = .ok (.ipReply (.bank .p1)) := by decide

theorem test_decode_icmp :
    decode 0x50000040#32 = .ok (.icmpParse .p1) ∧
    decode 0x51B00000#32 = .ok (.icmpType 11 (.bank .p0)) ∧
    decode 0x51B00041#32 = .ok (.icmpCode 11 (.bank .p1)) ∧
    decode 0x51B00082#32 = .ok (.icmpCkFld 11 .stage) ∧
    decode 0x52069000#32 = .ok (.icmpBuild 6 9) ∧
    decode 0x53B60040#32 = .ok (.icmpCsum 11 6 (.bank .p1)) ∧
    decode 0x54060080#32 = .ok (.icmpSetCsum 6 .stage) := by decide

theorem test_decode_udp_a :
    decode 0x60000040#32 = .ok (.udpParse .p1) ∧
    decode 0x61B00040#32 = .ok (.udpSport 11 (.bank .p1)) ∧
    decode 0x61B00081#32 = .ok (.udpDport 11 .stage) ∧
    decode 0x61B00002#32 = .ok (.udpLen 11 (.bank .p0)) ∧
    decode 0x61B00043#32 = .ok (.udpCkFld 11 (.bank .p1)) ∧
    decode 0x62000080#32 = .ok (.udpBswap .stage) ∧
    decode 0x63000000#32 = .ok (.udpReply (.bank .p0)) ∧
    decode 0x64B69040#32 = .ok (.udpCsum 11 6 9 (.bank .p1)) := by decide

theorem test_decode_udp_b :
    decode 0x65069080#32 = .ok (.udpSetCsum 6 9 .stage) := by decide

theorem test_decode_sys :
    decode 0x70B0000E#32 = .ok (.sysRdcsr 11 14) := by decide

/-- Section 2.1: words refused, each by the name of the constraint it breaks. -/
theorem test_decode_refused :
    decode 0x14000000#32 = .error .unassignedOpcode ∧ decode 0x1011FFFF#32 = .error .unusedFieldNotZero ∧
    decode 0x411000C0#32 = .error .reservedLoc ∧ decode 0x30000080#32 = .error .stageInPacketCommand ∧
    decode 0x3810000C#32 = .error .reservedSelector ∧ decode 0x4110000F#32 = .error .reservedField ∧
    decode 0x70100005#32 = .error .reservedCsr ∧ decodeStream [0x10, 0x10, 0xFF] = .error .truncatedStream := by decide

/-- Rule R83: most significant byte first. -/
theorem test_decode_stream :
    decodeStream [0x10, 0x10, 0x00, 0x1D, 0xFF] = .ok (.li 1 0x001D, [0xFF]) ∧
      decodeTableWord 32 0x1010001D = some (.li 1 0x001D) := by decide

/-! ### Small states -/

/-- A bank loaded with bytes (the vectors' "loaded with bytes B"). -/
def loaded (bs : List Byte) : Bank :=
  { Bank.reset with plen := bs.length, noff := some 0,
                    mem := ((List.range bs.length).zip bs).filter fun c => c.2 != 0 }

/-- The reset state with `P0` loaded, and registers set. -/
def start (bs : List Byte) (regs : List (Reg × Word)) : State :=
  regs.foldl (fun s r => s.setReg r.1 r.2) { State.reset with bank0 := loaded bs }

/-- `s` with the offsets of `P0` set. -/
def offsets (s : State) (n t q : Option Nat) : State := { s with bank0 := { s.bank0 with noff := n, toff := t, poff := q } }

/-- The state after the word `w`. -/
def after (w : Word) (s : State) : State :=
  match step (s.withFetchWord 32 w.toNat) with
  | .next t => t
  | .fault _ => s
  | .refused _ => s

/-- The response to the word `w`. -/
def answer (w : Word) (s : State) : Option Response := (after w s).lastResponse

/-- The first `n` bytes of bank `P0`. -/
def bytes0 (s : State) (a n : Nat) : List Byte := s.bank0.mem.readBytes a n

/-- The vectors' header `E1` with the bytes 2, 3 and the byte 8 free. -/
def e1 (len : Byte) (ttl : Byte) : List Byte :=
  [0x45, 0x00, 0x00, len, 0x00, 0x00, 0x40, 0x00, ttl, 0x11, 0xb8, 0x61, 0xc0, 0xa8, 0x00, 0x01, 0xc0, 0xa8, 0x00, 0xc7]

/-- The vectors' header `E4`. -/
def e4 : List Byte :=
  [0x45, 0xb8, 0x00, 0x2c, 0x1c, 0x46, 0xa0, 0x05, 0x40, 0x06, 0xf2, 0x58, 0x0a, 0x00, 0x00, 0x01, 0xc0, 0xa8, 0x00, 0xc7]

/-- `E4` after `IP.BSWAP` (section 2.6, row 12). -/
def e4Host : List Byte :=
  [0x45, 0xb8, 0x2c, 0x00, 0x46, 0x1c, 0x05, 0xa0, 0x40, 0x06, 0x58, 0xf2, 0x01, 0x00, 0x00, 0x0a, 0xc7, 0x00, 0xa8, 0xc0]

/-- The vectors' message `E2`, as a transport view at 0. -/
def e2 : State :=
  offsets (start [0x08, 0x00, 0x54, 0x35, 0x12, 0x34, 0x00, 0x01, 0x61, 0x62, 0x63, 0x64, 0x65, 0x66, 0x67, 0x68]
    [(1, 16), (2, 15), (3, 4), (5, 3), (6, 0x1FF), (7, 0x2AB)]) none (some 0) none

/-- The vectors' UDP segment `E3`, as a transport view at 0 (section 1.2). -/
def e3 : State :=
  offsets (start [0x63, 0x9c, 0x88, 0x13, 0x00, 0x1d, 0x00, 0x00, 0x54, 0x68, 0x69, 0x73, 0x20, 0x69, 0x73, 0x20, 0x79, 0x6f,
    0x75, 0x72, 0x20, 0x72, 0x65, 0x70, 0x6c, 0x79, 0x21, 0x0d, 0x0a] [(1, 0x0A000003), (2, 0x0A000001)]) none (some 0) none

/-- `E4` in `P0`, in wire order. -/
def ipWire : State := start e4 []

/-- `E4` in `P0`, in host order. -/
def ipHost : State := { start e4Host [] with bank0 := { loaded e4Host with nord := .host } }

/-- The seven bytes of section 2.4, with the region descriptors (0, 0, 3), (0, 3, 4), (0, 7, 0), (0, 0, 8). -/
def seven : State :=
  { start [1, 2, 3, 4, 5, 6, 7] [(1, 0xABCDFFFF), (2, 0x12340001), (3, 3), (7, 0x1234), (8, 0xFFFF1234)] with
    rgns := #v[⟨.p0, 0, 3⟩, ⟨.p0, 3, 4⟩, ⟨.p0, 7, 0⟩, ⟨.p0, 0, 8⟩] }

/-! ### Memory -/

theorem test_reset_memory_wf : State.reset.MemoryOk := by decide

/-- Writing the byte an unlisted address reads as removes the entry. -/
theorem test_memory_canonical :
    Memory.write (Memory.write [] 5 7) 3 9 = [(3, 9), (5, 7)] ∧ Memory.write [(3, 9), (5, 7)] 5 0 = [(3, 9)] := by decide

/-! ### Register set-up (section 2.2) -/

theorem test_li : answer 0x1010FFFF (start [] []) = some ⟨.stOk, 0xFFFF⟩ ∧ (after 0x1010FFFF (start [] [])).reg 1 = 0xFFFF := by
  decide
theorem test_lih : (after 0x1110FFFF (start [] [(1, 0xFFFF)])).reg 1 = 0xFFFFFFFF := by decide
theorem test_lih_x0 : answer 0x11001234 (start [] []) = some ⟨.stOk, 0x12340000⟩ ∧ (after 0x11001234 (start [] [])).reg 0 = 0 := by
  decide
theorem test_add_wraps : answer 0x12312000 (start [] [(1, 0xFFFFFFFF), (2, 1)]) = some ⟨.stOk, 0⟩ := by decide
theorem test_add_same : (after 0x12111000 (start [] [(1, 0xFFFFFFFF)])).reg 1 = 0xFFFFFFFE := by decide
theorem test_sub_wraps : (after 0x13402000 (start [] [(2, 1)])).reg 4 = 0xFFFFFFFF := by decide

/-! ### The checksum engine (sections 2.3, 2.4) -/

theorem test_fold :
    fold 0 0 = 0 ∧ fold 0xFFFF 0 = 0xFFFF ∧ fold 0xFFFF 1 = 1 ∧ fold 0xFFFF 0xFFFF = 0xFFFF ∧ fold 0x7FFF 0x8000 = 0xFFFF ∧
      fold 0x1234 0xF000 = 0x0235 := by decide
theorem test_csum_function :
    csum [] 0x1234 = 0x1234 ∧ csum [1] 0 = 0xFEFF ∧ csum [0, 0] 0xFFFF = 0xFFFF ∧ csum [0x12, 0x34, 0x56] 0 = 0x97CB := by decide
theorem test_csum2_odd : csum2 [0x12] [0x34] 0 = 0xEDCB := by decide
theorem test_csfold : (after 0x20912000 seven).reg 9 = 1 := by decide
theorem test_csfold_same : (after 0x20111000 seven).reg 1 = 0xFFFF := by decide
theorem test_csum : answer 0x21C00820 seven = some ⟨.stOk, 0x1234⟩ := by decide
theorem test_csum_bounds : answer 0x21100030 seven = some ⟨.stFault, 0x31⟩ ∧ (after 0x21100030 seven).fcmd = 0x21100030 := by
  decide
theorem test_csum2 : (after 0x22A00004 seven).reg 10 = 0xEFF3 := by decide

/-! ### Regions and the packet buffer (section 2.5) -/

/-- Section 2.5, the state of the headroom tests, with `P0` as in its first table. -/
def fills : State :=
  { start [] [] with
    bank0 := { Bank.reset with plen := 40, toff := some 19, poff := some 23 }
    bank1 := { Bank.reset with plen := 140, noff := some 100, toff := some 100, poff := some 104 }
    hicmp := #v[8, 0, 0, 0]
    hudp := #v[0, 7, 0, 7, 0, 8, 0, 0]
    hip := ipReplyHeader fun _ => 0xEE }

theorem test_rgnSet : (after 0x30031040 seven).rgn 0 = ⟨.p1, 3, 0xABCDFFFF⟩ := by decide
theorem test_pktNew_capacity :
    answer 0x31010000 (start [] [(1, 2048)]) = some ⟨.stOk, 0⟩ ∧ answer 0x31010000 (start [] [(1, 2049)]) = some ⟨.stNoRoom, 0⟩ := by
  decide
theorem test_pktNewReply :
    bytes0 { after 0x32000050 seven with bank0 := (after 0x32000050 seven).bank1 } 127 5 = [0, 4, 5, 6, 7] ∧
      (after 0x32000050 seven).bank1.poff = some 128 := by decide
theorem test_pktNewReply_no_room :
    answer 0x32000040 (seven.setRgn 0 ⟨.p0, 0, 1921⟩) = some ⟨.stNoRoom, 0⟩ := by decide
theorem test_pktWr8 : bytes0 (after 0x33061000 (seven.setReg 6 2)) 1 3 = [2, 0xFF, 4] := by decide
theorem test_pktRd8_last :
    answer 0x34960000 (seven.setReg 6 6) = some ⟨.stOk, 7⟩ ∧ answer 0x34960000 (seven.setReg 6 7) = some ⟨.stFault, 0x31⟩ := by decide
theorem test_pktFillI :
    (after 0x35000040 fills).bank1.mem = [(100, 8)] ∧ (after 0x35000040 fills).bank1.toff = some 100 := by decide
theorem test_pktFillU :
    answer 0x36000040 fills = some ⟨.stNoRoom, 0⟩ ∧ (after 0x36000000 fills).bank0.toff = some 15 ∧
      bytes0 (after 0x36000000 fills) 15 8 = [0, 7, 0, 7, 0, 8, 0, 0] := by decide
theorem test_pktFillN :
    (after 0x37000040 fills).bank1.noff = some 80 ∧ answer 0x37000000 fills = some ⟨.stNoRoom, 0⟩ := by decide
theorem test_pktGetOff : answer 0x38100044 fills = some ⟨.stOk, 100⟩ ∧ answer 0x38100000 fills = some ⟨.stNone, 0⟩ := by decide
theorem test_pktTlen : answer 0x39900040 fills = some ⟨.stOk, 40⟩ := by decide
theorem test_pktPayload : (after 0x3A000060 fills).rgn 2 = ⟨.p1, 104, 36⟩ := by decide
theorem test_pktWhole : (after 0x3B000070 fills).rgn 3 = ⟨.p1, 100, 40⟩ := by decide

/-! ### IPv4 (sections 1.1, 1.4, 2.6) -/

theorem test_ipParse :
    (after 0x40000000 (start (e1 20 0x40) [])).bank0.toff = some 20 ∧
      answer 0x40000000 (start (e1 19 0x40) []) = some ⟨.stNotRep, 0⟩ ∧
      answer 0x40000000 (start (e1 21 0x40) []) = some ⟨.stNotRep, 0⟩ := by decide
theorem test_ip_fields_wire :
    answer 0x41100000 ipWire = some ⟨.stOk, 4⟩ ∧ answer 0x41200001 ipWire = some ⟨.stOk, 20⟩ ∧
    answer 0x41300002 ipWire = some ⟨.stOk, 0xB8⟩ ∧ answer 0x41400003 ipWire = some ⟨.stOk, 0x2C⟩ ∧
    answer 0x41500004 ipWire = some ⟨.stOk, 0x1C46⟩ := by decide
theorem test_ip_fields_wire_high :
    answer 0x4160000A ipWire = some ⟨.stOk, 0x40⟩ ∧ answer 0x4170000B ipWire = some ⟨.stOk, 6⟩ ∧
    answer 0x4180000C ipWire = some ⟨.stOk, 0xF258⟩ ∧ answer 0x4190000D ipWire = some ⟨.stOk, 0x0A000001⟩ ∧
    answer 0x41A0000E ipWire = some ⟨.stOk, 0xC0A800C7⟩ := by decide
theorem test_ip_fields_host :
    answer 0x41400003 ipHost = some ⟨.stOk, 0x2C⟩ ∧ answer 0x41500004 ipHost = some ⟨.stOk, 0x1C46⟩ ∧
    answer 0x4180000C ipHost = some ⟨.stOk, 0xF258⟩ ∧ answer 0x4190000D ipHost = some ⟨.stOk, 0x0A000001⟩ ∧
    answer 0x41A0000E ipHost = some ⟨.stOk, 0xC0A800C7⟩ := by decide
theorem test_ip_flags_host :
    answer 0x41B00005 ipHost = some ⟨.stOk, 5⟩ ∧ answer 0x41C00006 ipHost = some ⟨.stOk, 5⟩ ∧
    answer 0x41D00007 ipHost = some ⟨.stOk, 1⟩ ∧ answer 0x41E00008 ipHost = some ⟨.stOk, 0⟩ ∧
    answer 0x41F00009 ipHost = some ⟨.stOk, 1⟩ := by decide
theorem test_ip_flags_wire :
    answer 0x41F00009 ipWire = some ⟨.stFault, 0x21⟩ ∧ answer 0x41E00008 ipWire = some ⟨.stFault, 0x21⟩ := by decide
theorem test_ipSetTotLen :
    bytes0 (after 0x42010000 (ipWire.setReg 1 0x12345)) 2 2 = [0x23, 0x45] ∧
      bytes0 (after 0x42010000 (ipHost.setReg 1 0x12345)) 2 2 = [0x45, 0x23] := by decide
theorem test_ipBswap :
    bytes0 (after 0x43000000 ipWire) 0 20 = e4Host ∧ (after 0x43000000 ipWire).bank0.nord = .host := by decide
theorem test_ipBswap_back :
    bytes0 (after 0x43000000 ipHost) 0 20 = e4 ∧ (after 0x43000000 ipHost).bank0.nord = .wire := by decide
theorem test_ipCsum : answer 0x44500000 (start (e1 0x73 0x40) []) = some ⟨.stOk, 0xB861⟩ := by decide
theorem test_ipCsum_host : answer 0x44100000 ipHost = some ⟨.stFault, 0x21⟩ := by decide
theorem test_ipSetCsum : bytes0 (after 0x45000000 (start (e1 0x73 0x3F) [])) 9 4 = [0x11, 0xB9, 0x61, 0xC0] := by decide
theorem test_ipVerify :
    answer 0x46600000 (start (e1 0x73 0x40) []) = some ⟨.stOk, 0⟩ ∧ answer 0x46100000 (start (e1 0x73 0x3F) []) = some ⟨.stOk, 0x100⟩ := by
  decide
theorem test_ipReply :
    (after 0x47000000 (start (e1 0x73 0x40) [])).hip.toList =
      [0x45, 0x00, 0x00, 0x00, 0x00, 0x00, 0x40, 0x00, 0x3f, 0x11, 0x00, 0x00, 0xc0, 0xa8, 0x00, 0xc7, 0xc0, 0xa8, 0x00, 0x01] := by
  decide
/-- The state with `TTL_FLOOR` at its other option. -/
def ttlRefusing (s : State) : State := { s with cfg := { s.cfg with ttlFloor := .refuse } }

/-- U1 of 93_implementation_defined: the other option answers `ST_NOTREP`, for TTL 0 only. -/
theorem test_ipReply_ttl_refused :
    answer 0x47000000 (ttlRefusing (start (e1 0x73 0) [])) = some ⟨.stNotRep, 0⟩ ∧
      answer 0x47000000 (ttlRefusing (start (e1 0x73 1) [])) = some ⟨.stOk, 0⟩ := by decide
theorem test_ipReply_ttl_zero : (after 0x47000000 (start (e1 0x73 0) [])).hip.toList.getD 8 1 = 0 := by decide

/-! ### ICMP (section 2.7) -/

theorem test_icmpParse : (after 0x50000000 e2).bank0.poff = some 4 := by decide
theorem test_icmp_fields :
    answer 0x51900000 e2 = some ⟨.stOk, 8⟩ ∧ answer 0x51A00001 e2 = some ⟨.stOk, 0⟩ ∧ answer 0x51B00002 e2 = some ⟨.stOk, 0x5435⟩ := by
  decide
theorem test_icmpBuild : (after 0x52067000 e2).hicmp = #v[0xFF, 0xAB, 0, 0] := by decide
theorem test_icmpCsum :
    answer 0x53C10000 e2 = some ⟨.stOk, 0x5435⟩ ∧ answer 0x53C20000 e2 = some ⟨.stOk, 0x549D⟩ ∧
      answer 0x53D50000 e2 = some ⟨.stFault, 0x31⟩ := by decide
theorem test_icmpSetCsum : bytes0 (after 0x54020000 e2) 1 4 = [0, 0x54, 0x9D, 0x12] := by decide
theorem test_icmpSetCsum_stage : (after 0x54030080 { e2 with hicmp := #v[0xFF, 0xAB, 0, 0] }).hicmp = #v[0xFF, 0xAB, 0, 0x54] := by
  decide

/-! ### UDP (sections 1.2, 2.8) -/

theorem test_udpParse : (after 0x60000000 e3).bank0.poff = some 8 := by decide
theorem test_udpParse_long : answer 0x60000000 (e3.writeBank .p0 5 [0x1E]) = some ⟨.stNotRep, 0⟩ := by decide
theorem test_udp_fields :
    answer 0x61300000 e3 = some ⟨.stOk, 0x639C⟩ ∧ answer 0x61400001 e3 = some ⟨.stOk, 0x8813⟩ ∧
    answer 0x61500002 e3 = some ⟨.stOk, 0x1D⟩ ∧ answer 0x61600003 (e3.writeBank .p0 6 [0xA2, 0x50]) = some ⟨.stOk, 0xA250⟩ := by decide
theorem test_udpBswap :
    bytes0 (after 0x62000000 e3) 0 8 = [0x9c, 0x63, 0x13, 0x88, 0x1d, 0x00, 0x00, 0x00] ∧ (after 0x62000000 e3).bank0.tord = .host := by
  decide
theorem test_udpReply :
    (after 0x63000000 e3).hudp = #v[0x88, 0x13, 0x63, 0x9c, 0x00, 0x1d, 0x00, 0x00] ∧ (after 0x63000000 e3).hudpOrd = .wire := by decide
theorem test_udpCsum : answer 0x64512000 e3 = some ⟨.stOk, 0xA250⟩ := by decide +kernel
theorem test_udpCsum_zero :
    answer 0x64100000 (offsets (start [0xff, 0xde, 0, 0, 0, 8, 0, 0] []) none (some 0) none) = some ⟨.stOk, 0xFFFF⟩ := by decide
theorem test_udpSetCsum : bytes0 (after 0x65012000 e3) 5 4 = [0x1D, 0xA2, 0x50, 0x54] := by decide +kernel

/-! ### The system command and the faulted state (sections 2.9, 2.10) -/

theorem test_sysRdcsr :
    answer 0x70300002 (start [] []) = some ⟨.stOk, 0x800⟩ ∧ answer 0x70400003 (start [] []) = some ⟨.stOk, 0x80⟩ ∧
    answer 0x70B0000D (start [] []) = some ⟨.stOk, 0xFFFFFFFF⟩ ∧ answer 0x70000004 ipHost = some ⟨.stOk, 1⟩ := by decide

/-- The state after row 4 of the faulted sequence of section 2.10. -/
def faultedState : State := { start (e1 0x73 0x40) [] with fsr := 0x21, fcmd := 0x41200008 }

theorem test_fault_taken : { after 0x41200008 (start (e1 0x73 0x40) []) with cmd := 0, responses := [] } = faultedState := by decide
theorem test_faulted_refuses :
    answer 0x4130000A faultedState = some ⟨.stFaulted, 0x21⟩ ∧ answer 0xFFFFFFFF faultedState = some ⟨.stFaulted, 0x21⟩ ∧
      answer 0x70100005 faultedState = some ⟨.stFaulted, 0x21⟩ := by decide
theorem test_faulted_rdcsr :
    (after 0x70300000 faultedState).reg 3 = 0x21 ∧ (after 0x70400001 faultedState).reg 4 = 0x41200008 := by decide
theorem test_illegal_word : answer 0xFFFFFFFF (start [] []) = some ⟨.stFault, 0x11⟩ := by decide
theorem test_reset : step { faultedState with host := [.reset] } = .next State.reset := rfl


/-! ### Witnesses: for every obligation with hypotheses, concrete values that meet them, clause by clause -/

/-- The state after the command `i`. -/
def result (i : Instr) (s : State) : State :=
  match exec i s with
  | .next t => t
  | .fault _ => s
  | .refused _ => s

/-- The header image a command resolves. -/
def view (s : State) (kind : Kind) (loc : Loc) : View :=
  match s.hv kind loc with
  | .ok v => v
  | .error _ => ⟨.hip, 0, 0, .wire⟩

/-- `s` with `w` the host's next action. -/
def issues (w : Word) (s : State) : State := { s with host := [.issue w] }

theorem witness_DecodeOfEncode :
    Instr.wellFormed (.sysRdcsr 15 15) = true ∧ Instr.wellFormed (.sysRdcsr 0 5) = false := by decide

theorem witness_EncodeOfDecode : decode 0x70F0000F#32 = .ok (.sysRdcsr 15 15) ∧ decode 0x10000000#32 = .ok (.li 0 0) := by decide

theorem witness_DecodeAgreesWithOpcodeTable :
    (∃ r ∈ opcodeTable, r.admits 0x12312000#32 = true) ∧ (∀ r ∈ opcodeTable, r.admits 0x14000000#32 = false) := by decide

/-- An opcode of no row; a `LI` word and a `PKT.WR8` word that match no row; the first and last reserved field selectors and
CSR numbers; the reserved offset selector and locations; `STAGE` in a packet command and in `UDP.PARSE`. -/
theorem witness_IllegalWords_words :
    (∀ r ∈ opcodeTable, fieldOp 0x14000000#32 ≠ r.pattern.extractLsb' 24 8) ∧
    (∀ q ∈ opcodeTable, q.pattern.extractLsb' 24 8 = fieldOp 0x1011FFFF#32 → 0x1011FFFF#32 &&& q.mask ≠ q.pattern) ∧
    (∃ r ∈ opcodeTable, fieldOp 0x1011FFFF#32 = r.pattern.extractLsb' 24 8) ∧
    (fieldOp 0x4110000F#32 = 0x41 ∧ fieldFld 0x4110000F#32 = 15) ∧
    (fieldOp 0x51100003#32 = 0x51 ∧ 3 ≤ (fieldFld 0x51100003#32).toNat) ∧
    (fieldOp 0x61100004#32 = 0x61 ∧ 4 ≤ (fieldFld 0x61100004#32).toNat) ∧
    (fieldOp 0x70100005#32 = 0x70 ∧ fieldFld 0x70100005#32 = 5) ∧
    (fieldOp 0x70100007#32 = 0x70 ∧ fieldFld 0x70100007#32 = 7) := by decide

theorem witness_IllegalWords_locations :
    (fieldOp 0x3810000C#32 = 0x38 ∧ fieldJ 0x3810000C#32 = 3) ∧
    (0x30 ≤ (fieldOp 0x300000C0#32).toNat ∧ (fieldOp 0x300000C0#32).toNat ≠ 0x52 ∧ fieldLoc 0x300000C0#32 = 3) ∧
    ((fieldOp 0x30000080#32).extractLsb' 4 4 = 3 ∧ fieldLoc 0x30000080#32 = 2) ∧
    (fieldOp 0x60000080#32 = 0x60 ∧ fieldLoc 0x60000080#32 = 2) := by decide

theorem witness_IllegalWords_states :
    legal 0x00000000 = false ∧ (issues 0 State.reset).host = .issue 0 :: [] ∧ (issues 0 State.reset).faulted = false ∧
      (issues 0 faultedState).host = .issue 0 :: [] ∧ (issues 0 faultedState).faulted = true := by decide

theorem witness_StepRunsDecodedInstruction :
    (issues 0x12312000 seven).host = .issue 0x12312000 :: [] ∧ decode 0x12312000#32 = .ok (.add 3 1 2) := by decide

theorem witness_ResetAction : { faultedState with host := [.reset, .issue 0] }.host = .reset :: [.issue 0] := rfl

/-- A `SYS.RDCSR`, another command, and an illegal word. -/
theorem witness_FaultedStateAnswers :
    (issues 0x70300000 faultedState).faulted = true ∧ decode 0x70300000#32 = .ok (.sysRdcsr 3 0) ∧
      (∀ rd csr, decode 0x12312000#32 ≠ .ok (.sysRdcsr rd csr)) ∧ (∀ rd csr, decode 0xFFFFFFFF#32 ≠ .ok (.sysRdcsr rd csr)) := by
  decide

/-- Each outcome of a command: completed with and without a destination, the three refusals, a fault, and the faulted state
with and without a completed `SYS.RDCSR`. -/
theorem witness_CommandOutcomes :
    (result (.add 3 1 2) seven).lastResponse = some ⟨.stOk, 0xBE01FFFF + 1⟩ ∧
    (result (.rgnSet 1 2 .p0 0) seven).lastResponse = some ⟨.stOk, 0⟩ ∧
    (result (.ipParse .p0) State.reset).lastResponse = some ⟨.stNone, 0⟩ ∧
    (result (.ipParse .p0) seven).lastResponse = some ⟨.stNotRep, 0⟩ ∧
    (result (.pktFillN .p0) fills).lastResponse = some ⟨.stNoRoom, 0⟩ ∧
    (result (.csum 1 0 3) seven).lastResponse = some ⟨.stFault, 0x31⟩ ∧
    (result (.add 3 1 2) faultedState).lastResponse = some ⟨.stFaulted, 0x21⟩ ∧
    (result (.sysRdcsr 3 0) faultedState).lastResponse = some ⟨.stOk, 0x21⟩ ∧
    Instr.wellFormed (.sysRdcsr 3 0) = true := by decide

/-- A state that meets every invariant, with offsets set, and its step. -/
theorem witness_StepKeepsPacketOffsets :
    (issues 0x40000000 ipWire).PacketsOk ∧ step (issues 0x40000000 ipWire) = .next (result (.ipParse .p0) { ipWire with cmd := 0x40000000 }) :=
  ⟨by decide, rfl⟩
theorem witness_StepKeepsFaultRegisters :
    (issues 0x41F00009 ipWire).FaultRegsOk ∧ step (issues 0x41F00009 ipWire) = .next (result (.ipMf 15 (.bank .p0)) { ipWire with cmd := 0x41F00009 }) :=
  ⟨by decide, rfl⟩
theorem witness_StepKeepsMemoryForm :
    (issues 0x43000000 ipWire).PacketsOk ∧ (issues 0x43000000 ipWire).MemoryOk ∧
      step (issues 0x43000000 ipWire) = .next (result (.ipBswap (.bank .p0)) { ipWire with cmd := 0x43000000 }) :=
  ⟨by decide, by decide, rfl⟩

/-- One step past the host's last action, with a `SYS.RDCSR` and another command before. -/
theorem witness_FaultedUntilReset :
    { faultedState with host := [.issue 0x70300000, .issue 0x12312000] }.faulted = true ∧
      ∀ a ∈ ({ faultedState with host := [.issue 0x70300000, .issue 0x12312000] } : State).host.take 3, a ≠ .reset := by decide

/-- A command of the other bank, and one that works on a staging register. -/
theorem witness_OtherBankUnchanged :
    exec (.pktNew 7 .p1) seven = .next (result (.pktNew 7 .p1) seven) ∧ (Instr.pktNew 7 .p1).bank? ≠ some .p0 ∧
      exec (.ipBswap .stage) seven = .next (result (.ipBswap .stage) seven) ∧ (Instr.ipBswap .stage).bank? ≠ some .p0 :=
  ⟨rfl, by decide, rfl, by decide⟩

/-- Two states that differ in the byte at the packet length, and the steps that read the last byte before it. -/
theorem witness_HiddenBytesUnobservable :
    let s := issues 0x34960000 (seven.setReg 6 6)
    let s' := s.writeBank .p0 7 [0xEE]
    s ≠ s' ∧ s.SameVisible s' ∧ step s = .next (result (.pktRd8 9 6 .p0) { s with cmd := 0x34960000, host := [] }) ∧
      step s' = .next (result (.pktRd8 9 6 .p0) { s' with cmd := 0x34960000, host := [] }) :=
  ⟨by decide, by decide, rfl, rfl⟩

/-- Another register; `x0` as the destination; a command that does not complete. -/
theorem witness_RegisterFrame :
    exec (.add 3 1 2) seven = .next (result (.add 3 1 2) seven) ∧ (Instr.add 3 1 2).dest ≠ some 4 ∧
    exec (.lih 0 7) seven = .next (result (.lih 0 7) seven) ∧ (Instr.lih 0 7).dest = some 0 ∧
    exec (.csum 1 0 3) seven = .next (result (.csum 1 0 3) seven) ∧
      ∀ v, (result (.csum 1 0 3) seven).lastResponse ≠ some { status := .stOk, value := v } := by
  refine ⟨rfl, by decide, rfl, by decide, rfl, ?_⟩
  have h : (result (.csum 1 0 3) seven).lastResponse = some { status := .stFault, value := 0x31 } := by decide
  intro v
  rw [h]
  simp

/-- The bytes beside the last byte a `PKT.WR8` and an `IP.SETCSUM` store to. -/
theorem witness_MemoryFrame :
    exec (.pktWr8 6 1 .p0) (seven.setReg 6 6) = .next (result (.pktWr8 6 1 .p0) (seven.setReg 6 6)) ∧
    (∀ sp ∈ storeSpans (.pktWr8 6 1 .p0) (seven.setReg 6 6), sp.covers .p0 5 = false ∧ sp.covers .p1 6 = false) ∧
    (∀ sp ∈ storeSpans (.ipSetCsum (.bank .p0)) ipWire, sp.covers .p0 9 = false ∧ sp.covers .p0 12 = false) ∧
    (∀ sp ∈ storeSpans (.ipCsum 1 (.bank .p0)) ipWire, sp.covers .p0 10 = false) :=
  ⟨rfl, by decide, by decide, by decide⟩

/-- A command that changes each tag. -/
theorem witness_OrderTagFrame :
    (result (.ipBswap (.bank .p0)) ipWire).bank0.nord ≠ ipWire.bank0.nord ∧
    (result (.udpBswap (.bank .p0)) e3).bank0.tord ≠ e3.bank0.tord ∧
    (result (.ipReply (.bank .p0)) ipHost).hipOrd ≠ ipHost.hipOrd ∧
    (result (.udpBswap .stage) e3).hudpOrd ≠ e3.hudpOrd ∧
    exec (.ipBswap (.bank .p0)) ipWire = .next (result (.ipBswap (.bank .p0)) ipWire) :=
  ⟨by decide, by decide, by decide, by decide, rfl⟩

theorem witness_PacketDescriptorFrame :
    exec (.udpParse .p0) e3 = .next (result (.udpParse .p0) e3) ∧ (∀ r, Instr.udpParse .p0 ≠ .pktNew r .p0) ∧
      (∀ k, Instr.udpParse .p0 ≠ .pktNewReply .p0 k) ∧ Instr.udpParse .p0 ≠ .pktFillN .p0 ∧ Instr.udpParse .p0 ≠ .ipParse .p0 :=
  ⟨rfl, by decide, by decide, by decide, by decide⟩

/-- A command that changes each staging register and a region descriptor. -/
theorem witness_StagingAndRegionFrame :
    (result (.pktPayload .p1 2) fills).rgn 2 ≠ fills.rgn 2 ∧ (result (.ipReply (.bank .p0)) ipWire).hip ≠ ipWire.hip ∧
      (result (.icmpBuild 1 2) e2).hicmp ≠ e2.hicmp ∧ (result (.udpReply (.bank .p0)) e3).hudp ≠ e3.hudp ∧
      exec (.pktPayload .p1 2) fills = .next (result (.pktPayload .p1 2) fills) :=
  ⟨by decide, by decide, by decide, by decide, rfl⟩

theorem witness_RegisterOperationResults : seven.faulted = false := by decide

/-- The premise of law 3, at its bound. -/
theorem witness_FoldLaws : 1 ≤ (1 : Half).toNat := by decide

theorem witness_ChecksumLaws : (1 : Half) ≠ 0 ∧ ([0xAB] : List Byte).length % 2 = 1 := by decide

/-- The whole of a two-byte sequence. -/
theorem witness_SeedCancellation : 2 * 0 + 1 < ([0xAB, 0xCD] : List Byte).length := by decide

theorem witness_SingleByteCorruptionDetected :
    19 < (e1 0x73 0x40).length ∧ (0xC6 : Byte) ≠ (e1 0x73 0x40).getD 19 0 ∧ csum (e1 0x73 0x40) 0 = 0 := by decide

theorem witness_CsfoldResult : fills.faulted = false := by decide

/-- A region of all bytes, one of no bytes at the packet length, and one a byte too long. -/
theorem witness_RegionChecksums :
    seven.faulted = false ∧ (seven.setRgn 3 ⟨.p0, 0, 7⟩).RegionFits 3 ∧ seven.RegionFits 2 := by decide

/-- Each clause: the region of 8 bytes of 7, the second region of `CSUM2`, and a region that exceeds its bank by one while
its reply of exactly `PKT_CAP` bytes would fit. -/
theorem witness_RegionBoundsFaults :
    seven.faulted = false ∧ ¬seven.RegionFits 3 ∧ seven.RegionFits 0 ∧
      (let s := seven.setRgn 0 ⟨.p1, 0, 1920⟩
       s.faulted = false ∧ ¬s.RegionFits 0 ∧ s.cfg.headroom + (s.rgn 0).len.toNat ≤ s.cfg.pktCap) := by decide

theorem witness_RegionSetResult : ipHost.faulted = false := by decide

/-- Both clauses at the capacity. -/
theorem witness_PacketNewResult :
    (seven.setReg 1 2048).faulted = false ∧ ((seven.setReg 1 2048).reg 1).toNat ≤ (seven.setReg 1 2048).cfg.pktCap ∧
      (seven.setReg 1 2049).cfg.pktCap < ((seven.setReg 1 2049).reg 1).toNat := by decide

/-- Both clauses at the capacity. -/
theorem witness_PacketNewReplyResult :
    let s := { seven.setRgn 0 ⟨.p1, 0, 1920⟩ with bank1 := { Bank.reset with plen := 1920 } }
    s.faulted = false ∧ s.cfg.headroom + (s.rgn 0).len.toNat ≤ s.cfg.pktCap ∧ s.RegionFits 0 ∧
      (s.setRgn 1 ⟨.p0, 0, 1921⟩).cfg.pktCap <
        (s.setRgn 1 ⟨.p0, 0, 1921⟩).cfg.headroom + ((s.setRgn 1 ⟨.p0, 0, 1921⟩).rgn 1).len.toNat := by decide

/-- The last byte of the packet, and the address after it. -/
theorem witness_PacketByteAccess :
    seven.faulted = false ∧ ((seven.setReg 6 6).reg 6).toNat < (seven.setReg 6 6).bank0.plen ∧
      (seven.setReg 6 7).bank0.plen ≤ ((seven.setReg 6 7).reg 6).toNat := by decide

/-- Every outcome: no payload offset; no room by one byte, in the buffer and at a network header; exactly room. -/
theorem witness_TransportFills :
    fills.faulted = false ∧ fills.hicmp.toList.length = 4 ∧ fills.hudp.toList.length = 8 ∧
      State.reset.bank0.poff = none ∧
      ({ fills with bank0 := { fills.bank0 with poff := some 3 } } : State).bank0.poff = some 3 ∧
      (fills.bank1.poff = some 104 ∧ fills.bank1.noff = some 100 ∧ 104 - fills.hudp.toList.length < 100) ∧
      ¬(104 - fills.hicmp.toList.length < 100) := by decide

/-- Every outcome: no transport offset, 19 bytes, 20 bytes. -/
theorem witness_NetworkFill :
    fills.faulted = false ∧ State.reset.bank0.toff = none ∧ fills.bank0.toff = some 19 ∧
      ({ fills with bank0 := { fills.bank0 with toff := some 20 } } : State).bank0.toff = some 20 := by decide

theorem witness_OffsetReads : fills.faulted = false ∧ fills.bank0.noff = none ∧ fills.bank1.noff = some 100 := by decide

theorem witness_PacketSlices :
    fills.faulted = false ∧ fills.cfg.Ok ∧ fills.PacketsOk ∧ fills.bank1.poff = some 104 ∧ State.reset.bank0.poff = none := by decide

/-- The header of a command, and a bank with no offset, with 19 bytes, and a staging register. -/
theorem witness_ViewRefusals :
    (Instr.ipSrc 1 (.bank .p0)).header? = some (.ip, .bank .p0) ∧ (Instr.udpParse .p1).header? = some (.udp, .bank .p1) ∧
      (Instr.ipReply .stage).header? = some (.ip, .stage) ∧ State.reset.faulted = false ∧ State.reset.bank0.noff = none ∧
      (start ((e1 20 0x40).take 19) []).bank0.noff = some 0 ∧ (start ((e1 20 0x40).take 19) []).bank0.plen - 0 < 20 := by decide

/-- The last two bytes of a header, and of a staging register. -/
theorem witness_FieldRoundTrip :
    ipHost.hv .ip (.bank .p0) = .ok (view ipHost .ip (.bank .p0)) ∧ 18 + 2 ≤ Kind.ip.minLen ∧
      e3.hv .udp .stage = .ok (view e3 .udp .stage) ∧ 6 + 2 ≤ Kind.udp.minLen :=
  ⟨rfl, by decide, rfl, by decide⟩

/-- A header that is accepted at both bounds of its length field, and one refused on each side. -/
theorem witness_IpParseResult :
    let s := start (e1 20 0x40) []
    s.faulted = false ∧ s.hv .ip (.bank .p0) = .ok (view s .ip (.bank .p0)) ∧
      (s.fld16 (view s .ip (.bank .p0)) 2).toNat = 20 ∧ (view s .ip (.bank .p0)).avail = 20 ∧
      (start (e1 19 0x40) []).hv .ip (.bank .p0) = .ok (view s .ip (.bank .p0)) ∧
      (start (e1 21 0x40) []).hv .ip (.bank .p0) = .ok (view s .ip (.bank .p0)) :=
  ⟨by decide, rfl, by decide, by decide, rfl, rfl⟩

/-- Under either tag. -/
theorem witness_IpFieldReads :
    ipWire.faulted = false ∧ ipWire.hv .ip (.bank .p0) = .ok ⟨.bank .p0, 0, 20, .wire⟩ ∧
      ipHost.faulted = false ∧ ipHost.hv .ip (.bank .p0) = .ok ⟨.bank .p0, 0, 20, .host⟩ :=
  ⟨by decide, rfl, by decide, rfl⟩

theorem witness_IpFlagReads :
    ipWire.faulted = false ∧ ipWire.hv .ip (.bank .p0) = .ok ⟨.bank .p0, 0, 20, .wire⟩ ∧
      ipHost.faulted = false ∧ ipHost.hv .ip (.bank .p0) = .ok ⟨.bank .p0, 0, 20, .host⟩ :=
  ⟨by decide, rfl, by decide, rfl⟩

theorem witness_IpSetTotalLength :
    ipHost.faulted = false ∧ ipHost.hv .ip (.bank .p0) = .ok ⟨.bank .p0, 0, 20, .host⟩ ∧
      ipHost.hv .ip .stage = .ok ⟨.hip, 0, 20, .wire⟩ := ⟨by decide, rfl, rfl⟩

theorem witness_IpBswapResult :
    ipHost.faulted = false ∧ ipHost.hv .ip (.bank .p0) = .ok ⟨.bank .p0, 0, 20, .host⟩ ∧
      ipHost.hv .ip .stage = .ok ⟨.hip, 0, 20, .wire⟩ := ⟨by decide, rfl, rfl⟩

/-- The shortest header, ending at the end of the packet. -/
theorem witness_IpChecksumResults :
    ipWire.faulted = false ∧ ipWire.hv .ip (.bank .p0) = .ok ⟨.bank .p0, 0, 20, .wire⟩ ∧
      5 = (ipWire.byteAt ⟨.bank .p0, 0, 20, .wire⟩ 0).toNat % 16 ∧ 5 * 4 ≤ 20 := ⟨by decide, rfl, by decide, by decide⟩

theorem witness_IpSetThenVerify :
    ipWire.faulted = false ∧ exec (.ipSetCsum (.bank .p0)) ipWire = .next (result (.ipSetCsum (.bank .p0)) ipWire) ∧
      (result (.ipSetCsum (.bank .p0)) ipWire).lastResponse = some { status := .stOk, value := 0 } := ⟨by decide, rfl, by decide⟩

/-- Each clause at its bound: TTL 0 under `SATURATE`, and TTL 1 and TTL 0 under the other option; and the staging register
as its own source. -/
theorem witness_IpReplyResult :
    let s := start (e1 20 0) []
    let s1 := ttlRefusing (start (e1 20 1) [])
    s.faulted = false ∧ s.hv .ip (.bank .p0) = .ok ⟨.bank .p0, 0, 20, .wire⟩ ∧ s.cfg.ttlFloor = .saturate ∧
      s.byteAt ⟨.bank .p0, 0, 20, .wire⟩ 8 = 0 ∧ s.hv .ip .stage = .ok ⟨.hip, 0, 20, .wire⟩ ∧
      s1.faulted = false ∧ s1.hv .ip (.bank .p0) = .ok ⟨.bank .p0, 0, 20, .wire⟩ ∧
      s1.byteAt ⟨.bank .p0, 0, 20, .wire⟩ 8 ≠ 0 ∧
      (ttlRefusing s).faulted = false ∧ (ttlRefusing s).hv .ip (.bank .p0) = .ok ⟨.bank .p0, 0, 20, .wire⟩ ∧
      (ttlRefusing s).cfg.ttlFloor = .refuse ∧ (ttlRefusing s).byteAt ⟨.bank .p0, 0, 20, .wire⟩ 8 = 0 :=
  ⟨by decide, rfl, rfl, by decide, rfl, by decide, rfl, by decide, by decide, rfl, rfl, by decide⟩

theorem witness_IcmpParseAndReads :
    e2.faulted = false ∧ e2.hv .icmp (.bank .p0) = .ok ⟨.bank .p0, 0, 16, .wire⟩ ∧
      e2.hv .icmp .stage = .ok ⟨.hicmp, 0, 4, .wire⟩ := ⟨by decide, rfl, rfl⟩

theorem witness_IcmpBuildResult : e2.faulted = false := by decide

/-- Both clauses at both bounds: 4 and 16 bytes, 3 and 17 bytes. -/
theorem witness_IcmpChecksumResults :
    e2.faulted = false ∧ e2.hv .icmp (.bank .p0) = .ok ⟨.bank .p0, 0, 16, .wire⟩ ∧ (e2.reg 3).toNat = 4 ∧ (e2.reg 1).toNat = 16 ∧
      (e2.reg 5).toNat < 4 ∧ 16 < ((e2.setReg 5 17).reg 5).toNat := ⟨by decide, rfl, by decide⟩

/-- Length fields 8, the bytes available, and one more. -/
theorem witness_UdpParseAndReads :
    e3.faulted = false ∧ e3.hv .udp (.bank .p0) = .ok ⟨.bank .p0, 0, 29, .wire⟩ ∧
      (e3.fld16 ⟨.bank .p0, 0, 29, .wire⟩ 4).toNat = 29 ∧
      ((e3.writeBank .p0 5 [8]).fld16 ⟨.bank .p0, 0, 29, .wire⟩ 4).toNat = 8 ∧
      ((e3.writeBank .p0 5 [30]).fld16 ⟨.bank .p0, 0, 29, .wire⟩ 4).toNat = 30 ∧
      e3.hv .udp .stage = .ok ⟨.hudp, 0, 8, .wire⟩ := ⟨by decide, rfl, by decide, by decide, by decide, rfl⟩

theorem witness_UdpBswapResult :
    e3.faulted = false ∧ e3.hv .udp (.bank .p0) = .ok ⟨.bank .p0, 0, 29, .wire⟩ := ⟨by decide, rfl⟩

theorem witness_BswapTwice :
    let t := result (.ipBswap (.bank .p0)) ipWire
    let t' := result (.udpBswap (.bank .p0)) e3
    ipWire.faulted = false ∧ ipWire.hv .ip (.bank .p0) = .ok ⟨.bank .p0, 0, 20, .wire⟩ ∧
      exec (.ipBswap (.bank .p0)) ipWire = .next t ∧ exec (.ipBswap (.bank .p0)) t = .next (result (.ipBswap (.bank .p0)) t) ∧
      t.hv .ip (.bank .p0) = .ok ⟨.bank .p0, 0, 20, .host⟩ ∧
      e3.faulted = false ∧ e3.hv .udp (.bank .p0) = .ok ⟨.bank .p0, 0, 29, .wire⟩ ∧
      exec (.udpBswap (.bank .p0)) e3 = .next t' ∧ exec (.udpBswap (.bank .p0)) t' = .next (result (.udpBswap (.bank .p0)) t') ∧
      t'.hv .udp (.bank .p0) = .ok ⟨.bank .p0, 0, 29, .host⟩ :=
  ⟨by decide, rfl, rfl, rfl, rfl, by decide, rfl, rfl, rfl, rfl⟩

theorem witness_UdpReplyResult :
    e3.faulted = false ∧ e3.hv .udp (.bank .p0) = .ok ⟨.bank .p0, 0, 29, .wire⟩ ∧
      e3.hv .udp .stage = .ok ⟨.hudp, 0, 8, .wire⟩ := ⟨by decide, rfl, rfl⟩

/-- A segment of 8 bytes, and one of all the bytes available. -/
theorem witness_UdpChecksumResults :
    e3.faulted = false ∧ e3.hv .udp (.bank .p0) = .ok ⟨.bank .p0, 0, 29, .wire⟩ ∧
      8 = ((e3.writeBank .p0 5 [8]).fld16 ⟨.bank .p0, 0, 29, .wire⟩ 4).toNat ∧
      (e3.fld16 ⟨.bank .p0, 0, 29, .wire⟩ 4).toNat = 29 := ⟨by decide, rfl, by decide, by decide⟩

/-- Each clause of `IP.*` and of `UDP.*` at its bound: a length one unit too short, the tag `HOST`, and a length one unit
past the bytes available. -/
theorem witness_ChecksumChecks :
    (ipHost.writeBank .p0 0 [0x44]).hv .ip (.bank .p0) = .ok ⟨.bank .p0, 0, 20, .host⟩ ∧
    ((ipHost.writeBank .p0 0 [0x44]).byteAt ⟨.bank .p0, 0, 20, .host⟩ 0).toNat % 16 * 4 = 16 ∧
    (ipHost.byteAt ⟨.bank .p0, 0, 20, .host⟩ 0).toNat % 16 * 4 = 20 ∧
    ((ipWire.writeBank .p0 0 [0x46]).byteAt ⟨.bank .p0, 0, 20, .wire⟩ 0).toNat % 16 * 4 = 24 ∧
    ((e3.writeBank .p0 5 [7]).fld16 ⟨.bank .p0, 0, 29, .wire⟩ 4).toNat = 7 ∧
    ((e3.writeBank .p0 5 [30]).fld16 ⟨.bank .p0, 0, 29, .wire⟩ 4).toNat = 30 ∧
    ({ e3 with bank0 := { e3.bank0 with tord := .host } }.writeBank .p0 4 [0x08, 0]).fld16 ⟨.bank .p0, 0, 29, .host⟩ 4 = 8 ∧
    ipHost.faulted = false ∧ e3.faulted = false := ⟨rfl, by decide⟩

end Sys2Proof.Tests
end

section
/-! PROOFS. The block as a whole (00_scope): a step runs the command its word decodes to, every step has a next state and
a word one response, and the state after reset is a legal state. -/

namespace Sys2Proof.Machine

/-! ### The step, by the host's next action -/

theorem step_of_idle {s : State} (h : s.host = []) : step s = .next s := by
  simp [step, hostStep, h]

theorem step_of_issue {s : State} {w : Word} {rest : List HostAction} (h : s.host = .issue w :: rest) :
    step s = runWord w (s.present w rest) := by
  simp [step, hostStep, h]

theorem step_of_reset {s : State} {rest : List HostAction} (h : s.host = .reset :: rest) :
    step s = .next ({ s with host := rest } : State).resetBlock := by
  simp [step, hostStep, h]

theorem runWord_of_decode_ok {w : Word} {i : Instr} (h : decode w = .ok i) (s : State) : runWord w s = exec i s := by
  simp [runWord, h]

theorem runWord_of_decode_error {w : Word} {e : DecodeError} (h : decode w = .error e) (s : State) :
    runWord w s = .next s.illegalWord := by
  simp [runWord, h]

/-! ### One response, and the fields a word never changes (rules R13, R86) -/

/-- `t` is `s` after one response, with the parameters, the host's actions and the word being executed kept. -/
def State.RespondsOnce (s t : State) : Prop :=
  t.cfg = s.cfg ∧ t.host = s.host ∧ t.cmd = s.cmd ∧ ∃ r, t.responses = r :: s.responses

theorem State.Stopped.respondsOnce {s t : State} (h : s.Stopped t) : s.RespondsOnce t := by
  obtain ⟨r, f, c, rfl⟩ := h.frame
  exact ⟨rfl, rfl, rfl, r, rfl⟩

theorem State.SameControl.respondsOnce_reply {s u : State} (h : s.SameControl u) (st : Status) (v : Word) :
    s.RespondsOnce (u.reply st v) := by
  obtain ⟨hcfg, -, -, -, hcmd, hhost, hresponses⟩ := h
  exact ⟨hcfg, hhost, hcmd, _, by rw [State.reply_responses, hresponses]⟩

theorem State.respondsOnce_setReg_reply (s : State) (rd : Reg) (st : Status) (v : Word) :
    s.RespondsOnce ((s.setReg rd v).reply st v) :=
  ⟨by simp, by simp, by simp, _, by rw [State.reply_responses, State.setReg_responses]⟩

theorem exec_respondsOnce {i : Instr} {s t : State} (h : exec i s = .next t) : s.RespondsOnce t := by
  cases hd : i.dest with
  | some rd =>
    rcases exec_dest_cases hd h with hstop | ⟨v, rfl⟩
    · exact hstop.respondsOnce
    · exact s.respondsOnce_setReg_reply rd .stOk v
  | none =>
    rcases exec_effect_control hd h with hstop | ⟨u, hu, rfl⟩
    · exact hstop.respondsOnce
    · exact hu.respondsOnce_reply .stOk 0

/-- Every word, legal or not, has a next state, with one response more. -/
theorem runWord_respondsOnce (w : Word) (s : State) : ∃ t, runWord w s = .next t ∧ s.RespondsOnce t := by
  cases hw : decode w with
  | ok i =>
    obtain ⟨t, ht⟩ := exec_next i s
    exact ⟨t, (runWord_of_decode_ok hw s).trans ht, exec_respondsOnce ht⟩
  | error e => exact ⟨_, runWord_of_decode_error hw s, s.illegalWord_stopped.respondsOnce⟩

/-! ### The state after reset -/

/-- An empty bank with no offset set is in order whatever the capacity (rule R31). -/
theorem Bank.ok_reset (cap : Nat) : Bank.reset.Ok cap :=
  ⟨Nat.zero_le cap, rfl, rfl, rfl, rfl, rfl, rfl⟩

theorem Config.spec_ok : Config.spec.Ok := by decide

theorem State.packetsOk_reset : State.reset.PacketsOk := ⟨Bank.ok_reset _, Bank.ok_reset _⟩

theorem State.faultRegsOk_reset : State.reset.FaultRegsOk := ⟨.inl rfl, fun _ => rfl⟩

theorem Memory.inBank_nil (cap : Nat) : Memory.inBank cap [] := fun _ h => absurd h List.not_mem_nil

theorem State.memoryOk_reset : State.reset.MemoryOk :=
  ⟨Memory.wf_reset .p0, Memory.wf_reset .p1, Memory.inBank_nil _, Memory.inBank_nil _⟩

/-! ### The obligations -/

/-- Settles O7: the host's list of actions decides the step, and a word is the case of `runWord`. -/
theorem stepIsTotal : Obligations.StepIsTotal := by
  intro s
  cases hs : s.host with
  | nil => exact ⟨s, step_of_idle hs, rfl, rfl⟩
  | cons a rest =>
    cases a with
    | issue w =>
      obtain ⟨t, ht, hcfg, hhost, hcmd, hresponses⟩ := runWord_respondsOnce w (s.present w rest)
      exact ⟨t, (step_of_issue hs).trans ht, hcfg, hhost, hcmd, hresponses⟩
    | reset => exact ⟨_, step_of_reset hs, rfl, rfl, rfl⟩

/-- Settles O6: presenting the word and then running what it decodes to. -/
theorem stepRunsDecodedInstruction : Obligations.StepRunsDecodedInstruction := by
  intro s w rest i hs hw
  calc step s = runWord w (s.present w rest) := step_of_issue hs
    _ = exec i (s.present w rest) := runWord_of_decode_ok hw _
    _ = exec i { s with cmd := w, host := rest } := rfl

/-- Settles O12, one invariant at a time. -/
theorem resetMeetsInvariants : Obligations.ResetMeetsInvariants :=
  ⟨Config.spec_ok, State.packetsOk_reset, State.faultRegsOk_reset, State.memoryOk_reset⟩

end Sys2Proof.Machine
end

section
/-! PROOFS. The state of the block (10_state): one account of what a command can do to a packet bank and one of what it can
do to the rest of the state. The invariants of rules R26, R27, R31 and R37 and the frames of rules R21 to R36 are read off
these two. -/

namespace Sys2Proof.Machine

/-! ### Stores through a view: which store changes -/

/-- The store a view of this kind lies in at this location (rule R54). -/
def Kind.storeAt (kind : Kind) : Loc → Store
  | .bank p => .bank p
  | .stage => kind.stageStore

theorem State.hv_store {s : State} {kind : Kind} {loc : Loc} {v : View} (h : s.hv kind loc = .ok v) :
    v.store = kind.storeAt loc := by
  rcases loc with p | _
  · obtain ⟨off, -, -, rfl⟩ := State.hv_bank h; rfl
  · cases h; rfl

theorem Kind.storeAt_eq_bank {kind : Kind} {loc : Loc} {p : BankId} (h : kind.storeAt loc = .bank p) :
    loc = .bank p := by
  rcases loc with q | _
  · cases h; rfl
  · cases kind <;> cases h

theorem Kind.storeAt_eq_stage {kind : Kind} {loc : Loc} {st : Store} (h : kind.storeAt loc = st)
    (hst : ∀ p, st ≠ .bank p) : loc = .stage ∧ kind.stageStore = st := by
  rcases loc with q | _
  · exact absurd h.symm (hst q)
  · exact ⟨rfl, h⟩

/-- The whole fixed header of a view in a bank lies below `PLEN`. -/
theorem State.hv_below_plen {s : State} {kind : Kind} {p : BankId} {v : View} (h : s.hv kind (.bank p) = .ok v) :
    v.off + kind.minLen ≤ (s.bank p).plen := by
  obtain ⟨off, -, hlen, rfl⟩ := State.hv_bank h
  have hpos : 0 < kind.minLen := by cases kind <;> decide
  show off + kind.minLen ≤ (s.bank p).plen
  omega

/-- `u` holds in the store `st` what `s` holds there; of a bank this says that all of it is the same. -/
def State.SameStore (s u : State) : Store → Prop
  | .bank p => u.bank p = s.bank p
  | .hip => u.hip = s.hip
  | .hicmp => u.hicmp = s.hicmp
  | .hudp => u.hudp = s.hudp

theorem State.SameStore.trans {s t u : State} {st : Store} (h : s.SameStore t st) (h' : t.SameStore u st) :
    s.SameStore u st := by
  cases st <;> exact Eq.trans h' h

theorem State.sameStore_storeWrite (s : State) {st st' : Store} (a : Nat) (bs : List Byte) (h : st ≠ st') :
    s.SameStore (s.storeWrite st a bs) st' := by
  cases st' with
  | bank p => exact (State.storeWrite_bank s st a bs p).trans (if_neg h)
  | _ => rcases st with (_ | _) | _ | _ | _ <;> first | rfl | exact absurd rfl h

theorem State.sameStore_putBytes (s : State) {v : View} {st : Store} (i : Nat) (bs : List Byte) (h : v.store ≠ st) :
    s.SameStore (s.putBytes v i bs) st :=
  s.sameStore_storeWrite _ bs h

theorem State.sameStore_reverseAt (s : State) {v : View} {st : Store} (i n : Nat) (h : v.store ≠ st) :
    s.SameStore (s.reverseAt v i n) st :=
  s.sameStore_putBytes i _ h

theorem State.sameStore_ipReverseFields (s : State) {v : View} {st : Store} (h : v.store ≠ st) :
    s.SameStore (s.ipReverseFields v) st :=
  (s.sameStore_reverseAt 2 2 h).trans <| (State.sameStore_reverseAt _ 4 2 h).trans <|
    (State.sameStore_reverseAt _ 6 2 h).trans <| (State.sameStore_reverseAt _ 10 2 h).trans <|
    (State.sameStore_reverseAt _ 12 4 h).trans (State.sameStore_reverseAt _ 16 4 h)

theorem State.sameStore_udpReverseFields (s : State) {v : View} {st : Store} (h : v.store ≠ st) :
    s.SameStore (s.udpReverseFields v) st :=
  (s.sameStore_reverseAt 0 2 h).trans <| (State.sameStore_reverseAt _ 2 2 h).trans <|
    (State.sameStore_reverseAt _ 4 2 h).trans (State.sameStore_reverseAt _ 6 2 h)

/-! ### Stores into a bank: only bytes change, and only below a bound -/

/-- `c` is `b` after stores of bytes below `hi`: only the memory differs, it keeps its canonical form, and it lists no new
address at or above `hi`. -/
structure Bank.StoredBelow (hi : Nat) (b c : Bank) : Prop where
  fields : c = { b with mem := c.mem }
  wf : b.mem.wf → c.mem.wf
  keys : ∀ x ∈ c.mem, x.1 < hi ∨ x ∈ b.mem

theorem Bank.StoredBelow.refl (hi : Nat) (b : Bank) : b.StoredBelow hi b := ⟨rfl, id, fun _ => .inr⟩

theorem Bank.StoredBelow.trans {hi : Nat} {b c d : Bank} (h : b.StoredBelow hi c) (h' : c.StoredBelow hi d) :
    b.StoredBelow hi d where
  fields := by rw [h'.fields, h.fields]
  wf := h'.wf ∘ h.wf
  keys x hx := (h'.keys x hx).elim .inl (h.keys x)

theorem Bank.storedBelow_writeBytes {hi : Nat} (b : Bank) (a : Nat) (bs : List Byte) (h : a + bs.length ≤ hi) :
    b.StoredBelow hi { b with mem := b.mem.writeBytes a bs } where
  fields := rfl
  wf := Memory.wf_writeBytes a bs
  keys _ hx := (Memory.keys_writeBytes hx).imp_left fun hlt => Nat.lt_of_lt_of_le hlt.2 h

theorem State.bank_putBytes (s : State) {v : View} {p : BankId} (hv : v.store = .bank p) (i : Nat) (bs : List Byte) :
    (s.putBytes v i bs).bank p = { s.bank p with mem := (s.bank p).mem.writeBytes (v.off + i) bs } :=
  (State.storeWrite_bank s v.store (v.off + i) bs p).trans (if_pos hv)

section
variable {s : State} {v : View} {p : BankId} {hi : Nat}

theorem State.bank_putBytes_storedBelow (hv : v.store = .bank p) {i : Nat} {bs : List Byte}
    (h : v.off + i + bs.length ≤ hi) : (s.bank p).StoredBelow hi ((s.putBytes v i bs).bank p) := by
  rw [State.bank_putBytes s hv]
  exact Bank.storedBelow_writeBytes _ _ _ h

theorem State.bank_reverseAt_storedBelow (hv : v.store = .bank p) {i n : Nat} (h : v.off + i + n ≤ hi) :
    (s.bank p).StoredBelow hi ((s.reverseAt v i n).bank p) :=
  State.bank_putBytes_storedBelow hv (by simpa using h)

theorem State.bank_ipReverseFields_storedBelow (hv : v.store = .bank p) (h : v.off + 20 ≤ hi) :
    (s.bank p).StoredBelow hi ((s.ipReverseFields v).bank p) :=
  (State.bank_reverseAt_storedBelow hv (by omega)).trans <|
    (State.bank_reverseAt_storedBelow hv (by omega)).trans <|
    (State.bank_reverseAt_storedBelow hv (by omega)).trans <|
    (State.bank_reverseAt_storedBelow hv (by omega)).trans <|
    (State.bank_reverseAt_storedBelow hv (by omega)).trans (State.bank_reverseAt_storedBelow hv (by omega))

theorem State.bank_udpReverseFields_storedBelow (hv : v.store = .bank p) (h : v.off + 8 ≤ hi) :
    (s.bank p).StoredBelow hi ((s.udpReverseFields v).bank p) :=
  (State.bank_reverseAt_storedBelow hv (by omega)).trans <|
    (State.bank_reverseAt_storedBelow hv (by omega)).trans <|
    (State.bank_reverseAt_storedBelow hv (by omega)).trans (State.bank_reverseAt_storedBelow hv (by omega))

end

/-! ### A new order tag: which bank changes -/

@[simp] theorem State.setNetOrder_bank_self (s : State) (p : BankId) (o : Order) :
    (s.setNetOrder (.bank p) o).bank p = { s.bank p with nord := o } := s.setBank_bank_self p _

@[simp] theorem State.setTrnOrder_bank_self (s : State) (p : BankId) (o : Order) :
    (s.setTrnOrder (.bank p) o).bank p = { s.bank p with tord := o } := s.setBank_bank_self p _

theorem State.setNetOrder_bank_other (s : State) {loc : Loc} {p : BankId} (o : Order) (h : loc ≠ .bank p) :
    (s.setNetOrder loc o).bank p = s.bank p := by
  rcases loc with q | _
  · exact s.setBank_bank_other _ fun hq => h (by rw [hq])
  · rfl

theorem State.setTrnOrder_bank_other (s : State) {loc : Loc} {p : BankId} (o : Order) (h : loc ≠ .bank p) :
    (s.setTrnOrder loc o).bank p = s.bank p := by
  rcases loc with q | _
  · exact s.setBank_bank_other _ fun hq => h (by rw [hq])
  · rfl

/-! ### All a command can do to a bank -/

/-- `BankUpdate cfg p b i c`: the command `i`, completing with the parameters `cfg`, turns bank `p` from `b` into `c`. The
guards of rules R121 to R127, R143, R182 and R192 stand beside each shape. -/
inductive BankUpdate (cfg : Config) (p : BankId) (b : Bank) : Instr → Bank → Prop
  | new (rs1 : Reg) (n : Nat) (h : n ≤ cfg.pktCap) : BankUpdate cfg p b (.pktNew rs1 p) (newBank b n)
  | newReply (k : RgnIdx) (bs : List Byte) (h : cfg.headroom + bs.length ≤ cfg.pktCap) :
      BankUpdate cfg p b (.pktNewReply p k) (replyBank b cfg.headroom bs)
  | fillTransport (i : Instr) (a : Nat) (bs : List Byte) (o : Order) (hi : i = .pktFillI p ∨ i = .pktFillU p)
      (h : fillTransportAt b bs.length = .ok a) :
      BankUpdate cfg p b i { b with mem := b.mem.writeBytes a bs, toff := some a, tord := o }
  | fillNetwork (a : Nat) (bs : List Byte) (o : Order) (h : fillNetworkAt b = .ok a) (hb : bs.length = 20) :
      BankUpdate cfg p b (.pktFillN p) { b with mem := b.mem.writeBytes a bs, noff := some a, nord := o }
  | parseNetwork (off : Nat) (h : b.noff = some off) (hlen : off + 20 ≤ b.plen) :
      BankUpdate cfg p b (.ipParse p) { b with toff := some (off + 20), poff := none }
  | parseTransport (i : Instr) (off n : Nat) (hi : i = .icmpParse p ∨ i = .udpParse p) (h : b.toff = some off)
      (hlen : off + n ≤ b.plen) : BankUpdate cfg p b i { b with poff := some (off + n) }
  | store (i : Instr) (c : Bank) (hi : i.bank? = some p) (h : b.StoredBelow b.plen c) : BankUpdate cfg p b i c
  | swapNetwork (c : Bank) (o : Order) (h : b.StoredBelow b.plen c) :
      BankUpdate cfg p b (.ipBswap (.bank p)) { c with nord := o }
  | swapTransport (c : Bank) (o : Order) (h : b.StoredBelow b.plen c) :
      BankUpdate cfg p b (.udpBswap (.bank p)) { c with tord := o }

/-- A replaced bank: the bank `p` is another one and stays, or it is the one updated. -/
theorem State.setBank_bankUpdate {s : State} {i : Instr} {q : BankId} {c : Bank} (p : BankId)
    (h : BankUpdate s.cfg q (s.bank q) i c) :
    (s.setBank q c).bank p = s.bank p ∨ BankUpdate s.cfg p (s.bank p) i ((s.setBank q c).bank p) := by
  by_cases hpq : p = q
  · subst hpq; rw [State.setBank_bank_self]; exact .inr h
  · exact .inl (s.setBank_bank_other c hpq)

/-- Let `u` come from `s` by stores through the view `v`. Then the bank `p` stays, or it holds the view's fixed header below
`PLEN`. -/
theorem State.hv_bank_or_same {s u : State} {kind : Kind} {loc : Loc} {v : View} (hv : s.hv kind loc = .ok v) (p : BankId)
    (hsame : v.store ≠ .bank p → s.SameStore u (.bank p)) :
    (loc ≠ .bank p ∧ u.bank p = s.bank p) ∨
      (loc = .bank p ∧ v.store = .bank p ∧ v.off + kind.minLen ≤ (s.bank p).plen) := by
  by_cases hl : loc = .bank p
  · subst hl; exact .inr ⟨rfl, State.hv_store hv, State.hv_below_plen hv⟩
  · refine .inl ⟨hl, hsame fun hst => hl (Kind.storeAt_eq_bank (kind := kind) ?_)⟩
    rw [← State.hv_store hv, hst]

theorem Effect.bank_cases {s u : State} {i : Instr} (h : Effect s i u) (p : BankId) :
    u.bank p = s.bank p ∨ BankUpdate s.cfg p (s.bank p) i (u.bank p) := by
  cases h with
  | region | ipReply | udpReply | icmpBuild => exact .inl rfl
  | new rs1 q hn => exact State.setBank_bankUpdate p (.new rs1 _ hn)
  | newReply q k hroom _ => exact State.setBank_bankUpdate p (.newReply k _ (by simpa using hroom))
  | writeByte rs1 rs2 q hlt =>
    exact State.setBank_bankUpdate p (.store _ _ rfl (Bank.storedBelow_writeBytes _ _ _ hlt))
  | fillIcmp q a ha => exact State.setBank_bankUpdate p (.fillTransport _ a _ _ (.inl rfl) (by simpa using ha))
  | fillUdp q a ha => exact State.setBank_bankUpdate p (.fillTransport _ a _ _ (.inr rfl) (by simpa using ha))
  | fillIp q a ha => exact State.setBank_bankUpdate p (.fillNetwork a _ _ ha (by simp))
  | ipParse q v hv =>
    obtain ⟨off, hoff, hlen, rfl⟩ := State.hv_bank hv
    exact State.setBank_bankUpdate p (.parseNetwork off hoff (State.hv_below_plen hv))
  | icmpParse q v hv =>
    obtain ⟨off, hoff, hlen, rfl⟩ := State.hv_bank hv
    exact State.setBank_bankUpdate p (.parseTransport _ off 4 (.inl rfl) hoff (State.hv_below_plen hv))
  | udpParse q v hv =>
    obtain ⟨off, hoff, hlen, rfl⟩ := State.hv_bank hv
    exact State.setBank_bankUpdate p (.parseTransport _ off 8 (.inr rfl) hoff (State.hv_below_plen hv))
  | putPair i kind loc v a bs hv hi hb =>
    rcases State.hv_bank_or_same hv p (s.sameStore_putBytes a bs) with ⟨-, hsame⟩ | ⟨rfl, hst, hlen⟩
    · exact .inl hsame
    · refine .inr (.store i _ ?_ (State.bank_putBytes_storedBelow hst ?_))
      · rcases hi with ⟨_, rfl, -⟩ | ⟨rfl, -⟩ | ⟨_, rfl, -⟩ | ⟨_, _, rfl, -⟩ <;> rfl
      · have hpair : a + 2 ≤ kind.minLen := by
          rcases hi with ⟨_, -, rfl, rfl⟩ | ⟨-, rfl, rfl⟩ | ⟨_, -, rfl, rfl⟩ | ⟨_, _, -, rfl, rfl⟩ <;> decide
        omega
  | ipBswap loc v hv =>
    rcases State.hv_bank_or_same hv p s.sameStore_ipReverseFields with ⟨hl, hsame⟩ | ⟨rfl, hst, hlen⟩
    · exact .inl ((State.setNetOrder_bank_other _ _ hl).trans hsame)
    · rw [State.setNetOrder_bank_self]
      exact .inr (.swapNetwork _ _ (State.bank_ipReverseFields_storedBelow hst hlen))
  | udpBswap loc v hv =>
    rcases State.hv_bank_or_same hv p s.sameStore_udpReverseFields with ⟨hl, hsame⟩ | ⟨rfl, hst, hlen⟩
    · exact .inl ((State.setTrnOrder_bank_other _ _ hl).trans hsame)
    · rw [State.setTrnOrder_bank_self]
      exact .inr (.swapTransport _ _ (State.bank_udpReverseFields_storedBelow hst hlen))

theorem exec_bank_cases {i : Instr} {s t : State} (h : exec i s = .next t) (p : BankId) :
    t.bank p = s.bank p ∨ BankUpdate s.cfg p (s.bank p) i (t.bank p) := by
  rcases exec_cases h with hstop | ⟨rd, v, -, rfl⟩ | ⟨-, u, hu, rfl⟩
  · obtain ⟨r, f, c, rfl⟩ := hstop.frame; exact .inl rfl
  · exact .inl (State.setReg_bank s rd v p)
  · exact hu.bank_cases p

/-- All a step can do to a bank. -/
theorem step_bank_cases {s t : State} (h : step s = .next t) (p : BankId) :
    t.bank p = s.bank p ∨ t.bank p = Bank.reset ∨ ∃ i, BankUpdate s.cfg p (s.bank p) i (t.bank p) := by
  rcases step_cases h with ⟨-, rfl⟩ | ⟨w, rest, i, -, -, hx⟩ | ⟨w, rest, e, -, -, rfl⟩ | ⟨rest, -, rfl⟩
  · exact .inl rfl
  · rcases exec_bank_cases hx p with hsame | hupd
    · exact .inl hsame
    · exact .inr (.inr ⟨i, hupd⟩)
  · obtain ⟨r, f, c, hframe⟩ := (s.present w rest).illegalWord_stopped.frame
    rw [hframe]; exact .inl rfl
  · exact .inr (.inl (State.resetBlock_bank _ p))

/-- No step changes the parameters (rule R5). -/
theorem step_cfg {s t : State} (h : step s = .next t) : t.cfg = s.cfg := by
  obtain ⟨u, hu, hcfg, -⟩ := stepIsTotal s
  rw [h] at hu
  cases hu
  exact hcfg

/-- A fact of one bank that every update keeps, and a bank after reset has, is kept of both banks by every step. -/
theorem step_keeps_bank {P : Nat → Bank → Prop} (hreset : ∀ cap, P cap Bank.reset)
    (hupd : ∀ {cfg p b i c}, BankUpdate cfg p b i c → P cfg.pktCap b → P cfg.pktCap c) {s t : State}
    (hs : ∀ p, P s.cfg.pktCap (s.bank p)) (h : step s = .next t) (p : BankId) : P t.cfg.pktCap (t.bank p) := by
  rw [step_cfg h]
  rcases step_bank_cases h p with hsame | hres | ⟨i, hi⟩
  · rw [hsame]; exact hs p
  · rw [hres]; exact hreset _
  · exact hupd hi (hs p)

/-! ### The packet descriptors stay in order (rule R31) -/

theorem State.packetsOk_iff (s : State) : s.PacketsOk ↔ ∀ p, (s.bank p).Ok s.cfg.pktCap :=
  ⟨fun h p => by cases p; exacts [h.1, h.2], fun h => ⟨h .p0, h .p1⟩⟩

theorem within_iff {o : Option Nat} {n : Nat} : within o n = true ↔ ∀ a, o = some a → a ≤ n := by
  cases o <;> simp [within]

theorem inOrder_iff {o o' : Option Nat} : inOrder o o' = true ↔ ∀ a b, o = some a → o' = some b → a ≤ b := by
  cases o <;> cases o' <;> simp [inOrder]

/-- Rule R31 of one bank, as facts about the offsets that are set. -/
theorem Bank.ok_iff {cap : Nat} {b : Bank} : b.Ok cap ↔
    b.plen ≤ cap ∧ (∀ a, b.noff = some a → a ≤ b.plen) ∧ (∀ a, b.toff = some a → a ≤ b.plen) ∧
      (∀ a, b.poff = some a → a ≤ b.plen) ∧ (∀ a c, b.noff = some a → b.toff = some c → a ≤ c) ∧
      (∀ a c, b.toff = some a → b.poff = some c → a ≤ c) ∧ (∀ a c, b.noff = some a → b.poff = some c → a ≤ c) := by
  simp only [Bank.Ok, within_iff, inOrder_iff]

/-- Rule R31 speaks of the length and the offsets only. -/
theorem Bank.StoredBelow.ok {hi cap : Nat} {b c : Bank} (h : b.StoredBelow hi c) (hb : b.Ok cap) : c.Ok cap := by
  rw [h.fields]; exact hb

theorem BankUpdate.ok {cfg : Config} {p : BankId} {b c : Bank} {i : Instr} (h : BankUpdate cfg p b i c)
    (hb : b.Ok cfg.pktCap) : c.Ok cfg.pktCap := by
  obtain ⟨hcap, hn, ht, hp, hnt, htp, hnp⟩ := Bank.ok_iff.mp hb
  cases h with
  | new rs1 n h => exact ⟨h, by simp [newBank, within, inOrder]⟩
  | newReply k bs h => exact ⟨h, by simp [replyBank, within, inOrder]⟩
  | fillTransport _ a bs o _ h =>
    obtain ⟨po, hpo, hle, hno, rfl⟩ := fillTransportAt_eq_ok.mp h
    have hpo' := hp po hpo
    refine Bank.ok_iff.mpr ⟨hcap, hn, ?_, hp, ?_, ?_, hnp⟩
    · rintro _ ⟨⟩
      show po - bs.length ≤ b.plen
      omega
    · rintro a' _ ha ⟨⟩; exact hno a' ha
    · rintro _ c' ⟨⟩ hc
      rw [show b.poff = some c' from hc] at hpo
      cases hpo
      omega
  | fillNetwork a bs o h _ =>
    obtain ⟨off, hoff, hle, rfl⟩ := fillNetworkAt_eq_ok.mp h
    have hoff' := ht off hoff
    refine Bank.ok_iff.mpr ⟨hcap, ?_, ht, hp, ?_, htp, ?_⟩
    · rintro _ ⟨⟩
      show off - 20 ≤ b.plen
      omega
    · rintro _ c' ⟨⟩ hc
      rw [show b.toff = some c' from hc] at hoff
      cases hoff
      omega
    · rintro _ c' ⟨⟩ hc
      have := htp off c' hoff hc
      omega
  | parseNetwork off h hlen =>
    refine Bank.ok_iff.mpr ⟨hcap, hn, ?_, nofun, ?_, nofun, nofun⟩
    · rintro _ ⟨⟩; exact hlen
    · rintro a _ ha ⟨⟩
      rw [show b.noff = some a from ha] at h
      cases h
      omega
  | parseTransport _ off n _ h hlen =>
    refine Bank.ok_iff.mpr ⟨hcap, hn, ht, ?_, hnt, ?_, ?_⟩
    · rintro _ ⟨⟩; exact hlen
    · rintro a _ ha ⟨⟩
      rw [show b.toff = some a from ha] at h
      cases h
      omega
    · rintro a _ ha ⟨⟩
      have := hnt a off ha h
      omega
  | store _ _ _ h => exact h.ok hb
  | swapNetwork c o h => exact h.ok hb
  | swapTransport c o h => exact h.ok hb

/-- Settles O13: rule R31 is a fact of one bank that every update keeps. -/
theorem stepKeepsPacketOffsets : Obligations.StepKeepsPacketOffsets := by
  refine ⟨State.packetsOk_reset, fun s t hs h => (State.packetsOk_iff t).mpr fun p => ?_⟩
  exact step_keeps_bank (P := Bank.Ok) Bank.ok_reset BankUpdate.ok ((State.packetsOk_iff s).mp hs) h p

/-! ### The memories stay canonical and inside `PKT_CAP` (rules R37, R51) -/

/-- One bank meets rule R31, and its memory has the canonical form and lies inside `cap`. The first is what keeps a store
below `PLEN` inside the bank. -/
def Bank.MemoryOk (cap : Nat) (b : Bank) : Prop := b.Ok cap ∧ b.mem.wf ∧ b.mem.inBank cap

theorem State.bankMemoryOk_iff (s : State) :
    (∀ p, (s.bank p).MemoryOk s.cfg.pktCap) ↔ s.PacketsOk ∧ s.MemoryOk := by
  constructor
  · intro h
    obtain ⟨hok0, hwf0, hin0⟩ := h .p0
    obtain ⟨hok1, hwf1, hin1⟩ := h .p1
    exact ⟨⟨hok0, hok1⟩, hwf0, hwf1, hin0, hin1⟩
  · rintro ⟨⟨hok0, hok1⟩, hwf0, hwf1, hin0, hin1⟩ p
    cases p
    · exact ⟨hok0, hwf0, hin0⟩
    · exact ⟨hok1, hwf1, hin1⟩

theorem Bank.memoryOk_reset (cap : Nat) : Bank.reset.MemoryOk cap :=
  ⟨Bank.ok_reset cap, Memory.wf_reset .p0, Memory.inBank_nil cap⟩

theorem Memory.inBank_clear {m : Memory} {cap : Nat} (lo hi : Nat) (h : m.inBank cap) : (m.clear lo hi).inBank cap :=
  fun c hc => h c (Memory.keys_clear hc)

theorem Memory.inBank_writeBytes {m : Memory} {cap a : Nat} {bs : List Byte} (ha : a + bs.length ≤ cap)
    (h : m.inBank cap) : (m.writeBytes a bs).inBank cap := fun c hc => by
  rcases Memory.keys_writeBytes hc with hnew | hold
  · omega
  · exact h c hold

theorem Bank.StoredBelow.memoryForm {hi cap : Nat} {b c : Bank} (h : b.StoredBelow hi c) (hcap : hi ≤ cap)
    (hb : b.mem.wf ∧ b.mem.inBank cap) : c.mem.wf ∧ c.mem.inBank cap :=
  ⟨h.wf hb.1, fun x hx => (h.keys x hx).elim (fun hlt => Nat.lt_of_lt_of_le hlt hcap) (hb.2 x)⟩

theorem BankUpdate.memoryOk {cfg : Config} {p : BankId} {b c : Bank} {i : Instr} (h : BankUpdate cfg p b i c)
    (hb : b.MemoryOk cfg.pktCap) : c.MemoryOk cfg.pktCap := by
  obtain ⟨hok, hwf, hin⟩ := hb
  obtain ⟨hcap, -, ht, hp, -, -, -⟩ := Bank.ok_iff.mp hok
  refine ⟨h.ok hok, ?_⟩
  cases h with
  | new rs1 n h => exact ⟨Memory.wf_clear 0 n hwf, Memory.inBank_clear 0 n hin⟩
  | newReply k bs h =>
    exact ⟨Memory.wf_writeBytes _ bs (Memory.wf_clear 0 _ hwf),
      Memory.inBank_writeBytes h (Memory.inBank_clear 0 _ hin)⟩
  | fillTransport _ a bs o _ h =>
    obtain ⟨po, hpo, hle, -, rfl⟩ := fillTransportAt_eq_ok.mp h
    have hpo' := hp po hpo
    exact ⟨Memory.wf_writeBytes _ bs hwf, Memory.inBank_writeBytes (by omega) hin⟩
  | fillNetwork a bs o h hlen =>
    obtain ⟨off, hoff, hle, rfl⟩ := fillNetworkAt_eq_ok.mp h
    have hoff' := ht off hoff
    exact ⟨Memory.wf_writeBytes _ bs hwf, Memory.inBank_writeBytes (by omega) hin⟩
  | parseNetwork | parseTransport => exact ⟨hwf, hin⟩
  | store _ _ _ h => exact h.memoryForm hcap ⟨hwf, hin⟩
  | swapNetwork c o h => exact h.memoryForm hcap ⟨hwf, hin⟩
  | swapTransport c o h => exact h.memoryForm hcap ⟨hwf, hin⟩

/-- Settles O15: with rule R31, the canonical form is a fact of one bank that every update keeps. -/
theorem stepKeepsMemoryForm : Obligations.StepKeepsMemoryForm := by
  intro s t hpackets hmem h
  have hbanks := (State.bankMemoryOk_iff s).mpr ⟨hpackets, hmem⟩
  exact ((State.bankMemoryOk_iff t).mp
    (step_keeps_bank (P := Bank.MemoryOk) Bank.memoryOk_reset BankUpdate.memoryOk hbanks h)).2

/-! ### The fault registers (rules R26, R27) -/

/-- The values a fault leaves in `FSR` (rule R226). -/
theorem Cause.fsr_eq (c : Cause) : c.fsr = 0x11 ∨ c.fsr = 0x21 ∨ c.fsr = 0x31 := by cases c <;> decide

theorem Cause.fsr_faulted (c : Cause) : c.fsr.getLsbD 0 = true := by cases c <;> decide

/-- A fault records one of the three causes, and the faulted state asks nothing of `FCMD`. -/
theorem State.faultRegsOk_raise (s : State) (c : Cause) : (s.raise c).FaultRegsOk :=
  ⟨.inr c.fsr_eq, fun h => by
    rw [show (s.raise c).faulted = c.fsr.getLsbD 0 from rfl, c.fsr_faulted] at h
    cases h⟩

theorem State.FaultRegsOk.congr {s t : State} (hs : s.FaultRegsOk) (hfsr : t.fsr = s.fsr) (hfcmd : t.fcmd = s.fcmd) :
    t.FaultRegsOk := by
  simpa only [State.FaultRegsOk, State.faulted, hfsr, hfcmd] using hs

theorem State.FaultRegsOk.stopped {s t : State} (hs : s.FaultRegsOk) (h : s.Stopped t) : t.FaultRegsOk := by
  rcases h with ⟨-, rfl⟩ | ⟨-, a, rfl⟩
  · exact hs.congr rfl rfl
  · cases a with
    | none | notRep | noRoom => exact hs.congr rfl rfl
    | raise c => exact s.faultRegsOk_raise c

theorem exec_keeps_faultRegsOk {i : Instr} {s t : State} (hs : s.FaultRegsOk) (h : exec i s = .next t) :
    t.FaultRegsOk := by
  cases hd : i.dest with
  | some rd =>
    rcases exec_dest_cases hd h with hstop | ⟨v, rfl⟩
    · exact hs.stopped hstop
    · exact hs.congr (by simp) (by simp)
  | none =>
    rcases exec_effect_control hd h with hstop | ⟨u, ⟨-, -, hfsr, hfcmd, -⟩, rfl⟩
    · exact hs.stopped hstop
    · exact hs.congr hfsr hfcmd

/-- Settles O14: a command that completes keeps both registers, a fault sets them as rule R226 says, and reset clears
them. -/
theorem stepKeepsFaultRegisters : Obligations.StepKeepsFaultRegisters := by
  intro s t hs h
  have hpresent : ∀ w rest, (s.present w rest).FaultRegsOk := fun _ _ => hs.congr rfl rfl
  rcases step_cases h with ⟨-, rfl⟩ | ⟨w, rest, i, -, -, hx⟩ | ⟨w, rest, e, -, -, rfl⟩ | ⟨rest, -, rfl⟩
  · exact hs
  · exact exec_keeps_faultRegsOk (hpresent w rest) hx
  · exact (hpresent w rest).stopped (State.illegalWord_stopped _)
  · exact State.faultRegsOk_reset.congr rfl rfl

/-! ### What a command leaves alone in the banks (rules R25, R37, R132) -/

theorem BankUpdate.bank? {cfg : Config} {p : BankId} {b c : Bank} {i : Instr} (h : BankUpdate cfg p b i c) :
    i.bank? = some p := by
  cases h with
  | store _ _ hi _ => exact hi
  | fillTransport _ _ _ _ hi _ => rcases hi with rfl | rfl <;> rfl
  | parseTransport _ _ _ hi _ _ => rcases hi with rfl | rfl <;> rfl
  | _ => rfl

/-- Settles O17: a bank changes only by an update, and an update's command names the bank. -/
theorem otherBankUnchanged : Obligations.OtherBankUnchanged := by
  intro i s t p h hp
  rcases exec_bank_cases h p with hsame | hupd
  · exact hsame
  · exact absurd hupd.bank? hp

theorem BankUpdate.descriptors {cfg : Config} {p : BankId} {b c : Bank} {i : Instr} (h : BankUpdate cfg p b i c)
    (hnew : ∀ r, i ≠ .pktNew r p) (hreply : ∀ k, i ≠ .pktNewReply p k) :
    c.plen = b.plen ∧ (i ≠ .pktFillN p → c.noff = b.noff) ∧
      (i ≠ .pktFillI p → i ≠ .pktFillU p → i ≠ .ipParse p → c.toff = b.toff) ∧
      (i ≠ .ipParse p → i ≠ .icmpParse p → i ≠ .udpParse p → c.poff = b.poff) := by
  cases h with
  | new rs1 => exact absurd rfl (hnew rs1)
  | newReply k => exact absurd rfl (hreply k)
  | fillTransport _ _ _ _ hi =>
    exact ⟨rfl, fun _ => rfl, fun hI hU _ => (hi.elim hI hU).elim, fun _ _ _ => rfl⟩
  | fillNetwork => exact ⟨rfl, fun hN => absurd rfl hN, fun _ _ _ => rfl, fun _ _ _ => rfl⟩
  | parseNetwork => exact ⟨rfl, fun _ => rfl, fun _ _ hP => absurd rfl hP, fun hP => absurd rfl hP⟩
  | parseTransport _ _ _ hi =>
    exact ⟨rfl, fun _ => rfl, fun _ _ _ => rfl, fun _ hI hU => (hi.elim hI hU).elim⟩
  | store _ _ _ h | swapNetwork _ _ h | swapTransport _ _ h =>
    rw [h.fields]; exact ⟨rfl, fun _ => rfl, fun _ _ _ => rfl, fun _ _ _ => rfl⟩

/-- Settles O22: a bank that is not updated is the same, and each update writes the descriptors its rule names. -/
theorem packetDescriptorFrame : Obligations.PacketDescriptorFrame := by
  intro i s t p h hnew hreply
  rcases exec_bank_cases h p with hsame | hupd
  · rw [hsame]; exact ⟨rfl, fun _ => rfl, fun _ _ _ => rfl, fun _ _ _ => rfl⟩
  · exact hupd.descriptors hnew hreply

theorem BankUpdate.nord {cfg : Config} {p : BankId} {b c : Bank} {i : Instr} (h : BankUpdate cfg p b i c)
    (hne : c.nord ≠ b.nord) :
    (∃ r, i = .pktNew r p) ∨ (∃ k, i = .pktNewReply p k) ∨ i = .pktFillN p ∨ i = .ipBswap (.bank p) := by
  cases h with
  | new rs1 => exact .inl ⟨rs1, rfl⟩
  | newReply k => exact .inr (.inl ⟨k, rfl⟩)
  | fillNetwork => exact .inr (.inr (.inl rfl))
  | swapNetwork => exact .inr (.inr (.inr rfl))
  | fillTransport | parseNetwork | parseTransport => exact absurd rfl hne
  | store _ _ _ h | swapTransport _ _ h => rw [h.fields] at hne; exact absurd rfl hne

theorem BankUpdate.tord {cfg : Config} {p : BankId} {b c : Bank} {i : Instr} (h : BankUpdate cfg p b i c)
    (hne : c.tord ≠ b.tord) :
    (∃ r, i = .pktNew r p) ∨ (∃ k, i = .pktNewReply p k) ∨ i = .pktFillU p ∨ i = .pktFillI p ∨
      i = .udpBswap (.bank p) := by
  cases h with
  | new rs1 => exact .inl ⟨rs1, rfl⟩
  | newReply k => exact .inr (.inl ⟨k, rfl⟩)
  | fillTransport _ _ _ _ hi => exact .inr (.inr (hi.elim (fun h => .inr (.inl h)) .inl))
  | swapTransport => exact .inr (.inr (.inr (.inr rfl)))
  | fillNetwork | parseNetwork | parseTransport => exact absurd rfl hne
  | store _ _ _ h | swapNetwork _ _ h => rw [h.fields] at hne; exact absurd rfl hne

/-! ### What a command leaves alone outside the banks (rules R21, R25, R32 to R36) -/

section
variable (s : State) (v : View)

@[simp] theorem State.ipReverseFields_rgns : (s.ipReverseFields v).rgns = s.rgns := by
  simp [State.ipReverseFields, State.reverseAt, State.putBytes]

@[simp] theorem State.ipReverseFields_hipOrd : (s.ipReverseFields v).hipOrd = s.hipOrd := by
  simp [State.ipReverseFields, State.reverseAt, State.putBytes]

@[simp] theorem State.ipReverseFields_hudpOrd : (s.ipReverseFields v).hudpOrd = s.hudpOrd := by
  simp [State.ipReverseFields, State.reverseAt, State.putBytes]

@[simp] theorem State.udpReverseFields_rgns : (s.udpReverseFields v).rgns = s.rgns := by
  simp [State.udpReverseFields, State.reverseAt, State.putBytes]

@[simp] theorem State.udpReverseFields_hipOrd : (s.udpReverseFields v).hipOrd = s.hipOrd := by
  simp [State.udpReverseFields, State.reverseAt, State.putBytes]

@[simp] theorem State.udpReverseFields_hudpOrd : (s.udpReverseFields v).hudpOrd = s.hudpOrd := by
  simp [State.udpReverseFields, State.reverseAt, State.putBytes]

end

theorem Effect.hipOrd {s u : State} {i : Instr} (h : Effect s i u) (hne : u.hipOrd ≠ s.hipOrd) :
    (∃ loc, i = .ipReply loc) ∨ i = .ipBswap .stage := by
  cases h with
  | ipReply loc => exact .inl ⟨loc, rfl⟩
  | ipBswap loc v =>
    rcases loc with p | _
    · exact absurd (by simp [State.setNetOrder]) hne
    · exact .inr rfl
  | new | newReply | fillIcmp | fillUdp | fillIp | ipParse | icmpParse | udpParse =>
    exact absurd (State.setBank_hipOrd _ _ _) hne
  | writeByte | putPair => exact absurd (State.storeWrite_hipOrd _ _ _ _) hne
  | udpBswap => exact absurd (by simp) hne
  | region | udpReply | icmpBuild => exact absurd rfl hne

theorem Effect.hudpOrd {s u : State} {i : Instr} (h : Effect s i u) (hne : u.hudpOrd ≠ s.hudpOrd) :
    (∃ loc, i = .udpReply loc) ∨ i = .udpBswap .stage := by
  cases h with
  | udpReply loc => exact .inl ⟨loc, rfl⟩
  | udpBswap loc v =>
    rcases loc with p | _
    · exact absurd (by simp [State.setTrnOrder]) hne
    · exact .inr rfl
  | new | newReply | fillIcmp | fillUdp | fillIp | ipParse | icmpParse | udpParse =>
    exact absurd (State.setBank_hudpOrd _ _ _) hne
  | writeByte | putPair => exact absurd (State.storeWrite_hudpOrd _ _ _ _) hne
  | ipBswap => exact absurd (by simp) hne
  | region | ipReply | icmpBuild => exact absurd rfl hne

/-- Rule R32: a region descriptor changes only by a command that names it. -/
theorem Effect.rgn {s u : State} {i : Instr} {k : RgnIdx} (h : Effect s i u) (hne : u.rgn k ≠ s.rgn k) :
    (∃ rs1 rs2 p, i = .rgnSet rs1 rs2 p k) ∨ (∃ p, i = .pktPayload p k) ∨ (∃ p, i = .pktWhole p k) := by
  have same : u.rgns = s.rgns → u.rgn k = s.rgn k := fun e => by simp only [State.rgn, e]
  cases h with
  | region _ k' r hi =>
    rw [State.setRgn_rgn] at hne
    by_cases hk : k = k'
    · subst hk; exact hi
    · exact absurd (if_neg hk) hne
  | new | newReply | fillIcmp | fillUdp | fillIp | ipParse | icmpParse | udpParse =>
    exact absurd (State.setBank_rgn _ _ _ _) hne
  | writeByte | putPair => exact absurd (State.storeWrite_rgn _ _ _ _ _) hne
  | ipBswap | udpBswap => exact absurd (same (by simp)) hne
  | ipReply | udpReply | icmpBuild => exact absurd rfl hne

/-- The commands that the words "written by" of rules R34, R35 and R36 name for a staging register. -/
def StageWriter (i : Instr) : Store → Prop
  | .hip => (∃ loc, i = .ipReply loc) ∨ (∃ r, i = .ipSetTotLen r .stage) ∨ i = .ipBswap .stage ∨ i = .ipSetCsum .stage
  | .hicmp => (∃ r q, i = .icmpBuild r q) ∨ ∃ r, i = .icmpSetCsum r .stage
  | .hudp => (∃ loc, i = .udpReply loc) ∨ i = .udpBswap .stage ∨ ∃ r q, i = .udpSetCsum r q .stage
  | .bank _ => False

theorem State.sameStore_setBank (s : State) (p : BankId) (b : Bank) {st : Store} (hst : ∀ q, st ≠ .bank q) :
    s.SameStore (s.setBank p b) st := by
  cases st with
  | bank q => exact absurd rfl (hst q)
  | hip => exact State.setBank_hip s p b
  | hicmp => exact State.setBank_hicmp s p b
  | hudp => exact State.setBank_hudp s p b

theorem State.sameStore_setNetOrder (s : State) (loc : Loc) (o : Order) {st : Store} (hst : ∀ q, st ≠ .bank q) :
    s.SameStore (s.setNetOrder loc o) st := by
  rcases loc with p | _
  · exact s.sameStore_setBank p _ hst
  · cases st <;> rfl

theorem State.sameStore_setTrnOrder (s : State) (loc : Loc) (o : Order) {st : Store} (hst : ∀ q, st ≠ .bank q) :
    s.SameStore (s.setTrnOrder loc o) st := by
  rcases loc with p | _
  · exact s.sameStore_setBank p _ hst
  · cases st <;> rfl

/-- A store through a view that changes a staging register works on the staging register of its kind. -/
theorem State.hv_stage_of_changed {s u : State} {kind : Kind} {loc : Loc} {v : View} {st : Store}
    (hv : s.hv kind loc = .ok v) (hst : ∀ p, st ≠ .bank p) (hsame : v.store ≠ st → s.SameStore u st)
    (hne : ¬ s.SameStore u st) : loc = .stage ∧ kind.stageStore = st := by
  have hstore : v.store = st := by_contra fun h => hne (hsame h)
  exact Kind.storeAt_eq_stage ((State.hv_store hv).symm.trans hstore) hst

theorem Effect.stageWriter {s u : State} {i : Instr} {st : Store} (h : Effect s i u) (hst : ∀ p, st ≠ .bank p)
    (hne : ¬ s.SameStore u st) : StageWriter i st := by
  cases h with
  | region => exact absurd (by cases st <;> rfl) hne
  | new | newReply | writeByte | fillIcmp | fillUdp | fillIp | ipParse | icmpParse | udpParse =>
    exact absurd (s.sameStore_setBank _ _ hst) hne
  | putPair i kind loc v a bs hv hi hb =>
    obtain ⟨rfl, rfl⟩ := State.hv_stage_of_changed hv hst (s.sameStore_putBytes a bs) hne
    rcases hi with ⟨r, rfl, rfl, -⟩ | ⟨rfl, rfl, -⟩ | ⟨r, rfl, rfl, -⟩ | ⟨r, q, rfl, rfl, -⟩
    · exact .inr (.inl ⟨r, rfl⟩)
    · exact .inr (.inr (.inr rfl))
    · exact .inr ⟨r, rfl⟩
    · exact .inr (.inr ⟨r, q, rfl⟩)
  | ipBswap loc v hv =>
    obtain ⟨rfl, rfl⟩ := State.hv_stage_of_changed hv hst
      (fun h => (s.sameStore_ipReverseFields h).trans (State.sameStore_setNetOrder _ loc _ hst)) hne
    exact .inr (.inr (.inl rfl))
  | udpBswap loc v hv =>
    obtain ⟨rfl, rfl⟩ := State.hv_stage_of_changed hv hst
      (fun h => (s.sameStore_udpReverseFields h).trans (State.sameStore_setTrnOrder _ loc _ hst)) hne
    exact .inr (.inl rfl)
  | ipReply loc =>
    cases st with
    | hip => exact .inl ⟨loc, rfl⟩
    | _ => exact absurd rfl hne
  | udpReply loc =>
    cases st with
    | hudp => exact .inl ⟨loc, rfl⟩
    | _ => exact absurd rfl hne
  | icmpBuild rs1 rs2 =>
    cases st with
    | hicmp => exact .inl ⟨rs1, rs2, rfl⟩
    | _ => exact absurd rfl hne

/-! ### The frames of a command -/

/-- `t` has the region descriptors, the staging registers and their order tags of `s`. -/
structure State.SameOutsideBanks (s t : State) : Prop where
  rgns : t.rgns = s.rgns
  hip : t.hip = s.hip
  hipOrd : t.hipOrd = s.hipOrd
  hicmp : t.hicmp = s.hicmp
  hudp : t.hudp = s.hudp
  hudpOrd : t.hudpOrd = s.hudpOrd

/-- A command keeps all that is outside the banks, or it has an effect and the response after it. -/
theorem exec_outsideBanks_cases {i : Instr} {s t : State} (h : exec i s = .next t) :
    s.SameOutsideBanks t ∨ ∃ u, Effect s i u ∧ t = u.reply .stOk 0 := by
  rcases exec_cases h with hstop | ⟨rd, v, -, rfl⟩ | ⟨-, heffect⟩
  · obtain ⟨r, f, c, rfl⟩ := hstop.frame
    exact .inl ⟨rfl, rfl, rfl, rfl, rfl, rfl⟩
  · exact .inl ⟨by simp, by simp, by simp, by simp, by simp, by simp⟩
  · exact .inr heffect

/-- Settles O21: the tags of a bank through its updates, those of the staging registers through the effects. -/
theorem orderTagFrame : Obligations.OrderTagFrame := by
  intro i s t h
  refine ⟨fun p => ?_, ?_⟩
  · rcases exec_bank_cases h p with hsame | hupd
    · rw [hsame]; exact ⟨fun hne => absurd rfl hne, fun hne => absurd rfl hne⟩
    · exact ⟨hupd.nord, hupd.tord⟩
  · rcases exec_outsideBanks_cases h with hsame | ⟨u, hu, rfl⟩
    · exact ⟨fun hne => absurd hsame.hipOrd hne, fun hne => absurd hsame.hudpOrd hne⟩
    · exact ⟨hu.hipOrd, hu.hudpOrd⟩

/-- Settles O23: a command that keeps all that is outside the banks changes none of them, and each effect writes what its
rule names. -/
theorem stagingAndRegionFrame : Obligations.StagingAndRegionFrame := by
  intro i s t h
  rcases exec_outsideBanks_cases h with hsame | ⟨u, hu, rfl⟩
  · have hrgn : ∀ k, t.rgn k = s.rgn k := fun k => by simp only [State.rgn, hsame.rgns]
    exact ⟨fun k hne => absurd (hrgn k) hne, fun hne => absurd hsame.hip hne, fun hne => absurd hsame.hicmp hne,
      fun hne => absurd hsame.hudp hne⟩
  · exact ⟨fun k => hu.rgn, hu.stageWriter (st := .hip) nofun, hu.stageWriter (st := .hicmp) nofun,
      hu.stageWriter (st := .hudp) nofun⟩

/-! ### The general registers (rules R21, R22, R58) -/

theorem State.reg_congr {s t : State} (h : t.xs = s.xs) (r : Reg) : t.reg r = s.reg r := by
  simp only [State.reg, h]

theorem State.lastResponse_reply (s : State) (st : Status) (v : Word) :
    (s.reply st v).lastResponse = some { status := st, value := v } := rfl

/-- A register after a command: as it was, or the destination, not `x0`, of a command that completed. -/
theorem exec_reg_cases {i : Instr} {s t : State} (h : exec i s = .next t) (r : Reg) :
    t.reg r = s.reg r ∨ (i.dest = some r ∧ r ≠ 0 ∧ ∃ v, t.lastResponse = some { status := .stOk, value := v }) := by
  cases hd : i.dest with
  | some rd =>
    rcases exec_dest_cases hd h with hstop | ⟨v, rfl⟩
    · obtain ⟨_, f, c, rfl⟩ := hstop.frame; exact .inl rfl
    · rw [State.reply_reg, State.setReg_reg]
      by_cases hr : r = rd ∧ rd ≠ 0
      · obtain ⟨rfl, hr0⟩ := hr
        exact .inr ⟨rfl, hr0, v, State.lastResponse_reply _ _ _⟩
      · exact .inl (if_neg hr)
  | none =>
    rcases exec_effect_control hd h with hstop | ⟨u, ⟨-, hxs, -⟩, rfl⟩
    · obtain ⟨_, f, c, rfl⟩ := hstop.frame; exact .inl rfl
    · exact .inl (State.reg_congr hxs r)

/-- Settles O19: each of the three conditions excludes the one case in which a register changes. -/
theorem registerFrame : Obligations.RegisterFrame := by
  refine ⟨State.reg_zero, fun i s t r h hcond => ?_⟩
  rcases exec_reg_cases h r with hsame | ⟨hdest, hr, v, hv⟩
  · exact hsame
  · rcases hcond with hne | hzero | hnot
    · exact absurd hdest hne
    · exact absurd hzero hr
    · exact absurd hv (hnot v)

/-! ### The state after reset (rule R40) -/

theorem State.reg_reset (r : Reg) : State.reset.reg r = 0 := by
  unfold State.reg
  split
  · rfl
  · next n hn =>
    have hlt : n < 15 := by have := r.isLt; omega
    simp [State.reset, hlt]

theorem State.rgn_reset (k : RgnIdx) : State.reset.rgn k = Region.reset := by
  have hlt : k.toNat < 4 := k.isLt
  simp [State.rgn, State.reset, hlt]

theorem State.bank_reset (p : BankId) : State.reset.bank p = Bank.reset := by cases p <;> rfl

/-- Settles O9: the registers, banks and descriptors by their reset lemmas, the other fields as `State.reset` writes them. -/
theorem resetState : Obligations.ResetState := by
  refine ⟨State.reg_reset, fun p => ?_, State.rgn_reset, rfl, rfl, rfl, rfl, rfl, rfl, rfl, rfl, rfl, rfl, rfl⟩
  rw [State.bank_reset]
  exact ⟨rfl, rfl, rfl, rfl, rfl, rfl⟩

end Sys2Proof.Machine
end

section
/-! PROOFS. Header views (20_memory): how a location resolves to a view, the refusals every view command shares, and a field
written and read back. -/

namespace Sys2Proof.Machine

/-! ### The view of a location and its two refusals (rules R54, R223) -/

/-- Settles O40: a staging register's view is fixed, and each kind reads its own offset, length and tag of the bank. -/
theorem viewResolution : Obligations.ViewResolution := by
  intro s
  refine ⟨rfl, rfl, rfl, fun p kind => ?_⟩
  cases hanchor : kind.anchor (s.bank p) with
  | none =>
    rw [State.hv_bank_none hanchor]
    cases kind <;> simp only [Kind.anchor] at hanchor <;> simp only [hanchor]
  | some off =>
    rw [State.hv_bank_some hanchor]
    cases kind <;> simp only [Kind.anchor] at hanchor <;> simp only [hanchor] <;> rfl

section
variable {i : Instr} {kind : Kind} {p : BankId} {s : State}

/-- Rule R54: the first refusal. -/
theorem exec_header_unset (hi : i.header? = some (kind, .bank p)) (hf : s.faulted = false)
    (hanchor : kind.anchor (s.bank p) = none) :
    ∃ t, exec i s = .next t ∧ s.OnlyResponds t { status := .stNone, value := 0 } :=
  ⟨_, exec_header_error hi (State.hv_bank_none hanchor) hf, rfl⟩

/-- Rule R54: the second refusal. -/
theorem exec_header_short (hi : i.header? = some (kind, .bank p)) (hf : s.faulted = false) {off : Nat}
    (hanchor : kind.anchor (s.bank p) = some off) (hshort : (s.bank p).plen - off < kind.minLen) :
    ∃ t, exec i s = .next t ∧ s.OnlyResponds t { status := .stNotRep, value := 0 } :=
  ⟨_, exec_header_error hi ((State.hv_bank_some hanchor).trans (if_pos hshort)) hf, rfl⟩

end

/-- Settles O41: the two refusals of a view in a bank, for the offset and the length of each kind; a staging register always
has a view. -/
theorem viewRefusals : Obligations.ViewRefusals := by
  intro i kind loc s hi hf
  rcases loc with p | _
  · cases hanchor : kind.anchor (s.bank p) with
    | none =>
      have hunset := exec_header_unset hi hf hanchor
      cases kind <;> simp only [Kind.anchor] at hanchor <;> simp only [hanchor] <;> exact hunset
    | some off =>
      have hshort := exec_header_short hi hf hanchor
      cases kind <;> simp only [Kind.anchor] at hanchor <;> simp only [hanchor] <;> exact hshort
  · exact ⟨_, State.hv_stage s kind⟩

/-! ### A 16-bit field written through a view (rules R50, R52, R53) -/

section
variable {s : State} {kind : Kind} {loc : Loc} {v : View} {i : Nat}

/-- The bytes of every store after a field write. -/
theorem State.storeByte_put16 (hv : s.hv kind loc = .ok v) (hi : i + 2 ≤ kind.minLen) (x : Half) (st : Store) (a : Nat) :
    (s.put16 v i x).storeByte st a =
      if st = v.store ∧ a = v.off + i then (encode16 v.ord x).getD 0 0
      else if st = v.store ∧ a = v.off + i + 1 then (encode16 v.ord x).getD 1 0 else s.storeByte st a :=
  State.storeByte_putPair hv hi _ (length_encode16 _ _) st a

theorem State.byteAt_put16_first (hv : s.hv kind loc = .ok v) (hi : i + 2 ≤ kind.minLen) (x : Half) :
    (s.put16 v i x).byteAt v i = (encode16 v.ord x).getD 0 0 := by
  rw [State.byteAt, State.storeByte_put16 hv hi, if_pos ⟨rfl, rfl⟩]

theorem State.byteAt_put16_second (hv : s.hv kind loc = .ok v) (hi : i + 2 ≤ kind.minLen) (x : Half) :
    (s.put16 v i x).byteAt v (i + 1) = (encode16 v.ord x).getD 1 0 := by
  rw [State.byteAt, State.storeByte_put16 hv hi, if_neg (by omega), if_pos ⟨rfl, rfl⟩]

theorem State.storeByte_put16_other (hv : s.hv kind loc = .ok v) (hi : i + 2 ≤ kind.minLen) (x : Half) {st : Store}
    {a : Nat} (h : st ≠ v.store ∨ a < v.off + i ∨ v.off + i + 2 ≤ a) :
    (s.put16 v i x).storeByte st a = s.storeByte st a := by
  rw [State.storeByte_put16 hv hi, if_neg, if_neg]
  · rintro ⟨hst, ha⟩; have := h.resolve_left (not_not_intro hst); omega
  · rintro ⟨hst, ha⟩; have := h.resolve_left (not_not_intro hst); omega

end

/-- Settles O42: the two bytes written are the encoding in the order of the tag, which decodes to the number. -/
theorem fieldRoundTrip : Obligations.FieldRoundTrip := by
  intro s kind loc v i x hv hi
  have hfirst := State.byteAt_put16_first hv hi x
  have hsecond := State.byteAt_put16_second hv hi x
  refine ⟨?_, ?_, ?_, fun st a h => State.storeByte_put16_other hv hi x h⟩
  · rw [State.fld16, hfirst, hsecond, decode16_encode16]
  · cases ho : v.ord with
    | wire => rw [if_pos rfl, hfirst, ho]; rfl
    | host => rw [if_neg nofun, hsecond, ho]; rfl
  · cases ho : v.ord with
    | wire => rw [if_pos rfl, hsecond, ho]; rfl
    | host => rw [if_neg nofun, hfirst, ho]; rfl

end Sys2Proof.Machine
end

section
/-! PROOFS. Bytes at and above `PLEN` (20_memory, rules R37, R66, R250): two states that differ only there stay so. What an
operation reads is the same in both, what it writes leaves them alike, and each command is made of such operations. -/

namespace Sys2Proof.Machine

/-! ### Two banks, two states -/

/-- `s` with other bytes in its banks. -/
def State.withMem (s : State) (m : BankId → Memory) : State :=
  { s with bank0 := { s.bank0 with mem := m .p0 }, bank1 := { s.bank1 with mem := m .p1 } }

theorem Bank.SameVisible.refl (b : Bank) : b.SameVisible b := ⟨rfl, fun _ _ => rfl⟩

theorem Bank.SameVisible.eq_mem {b c : Bank} (h : b.SameVisible c) : c = { b with mem := c.mem } := by
  cases b; cases c; simpa [eq_comm] using h.1

theorem State.SameVisible.bank {s s' : State} (h : s.SameVisible s') (p : BankId) :
    (s.bank p).SameVisible (s'.bank p) := by
  obtain ⟨-, h0, h1⟩ := h
  cases p
  · exact h0
  · exact h1

theorem State.SameVisible.eq_withMem {s s' : State} (h : s.SameVisible s') : s' = s.withMem fun p => (s'.bank p).mem := by
  have h0 := (h.bank .p0).eq_mem
  have h1 := (h.bank .p1).eq_mem
  obtain ⟨hrest, -, -⟩ := h
  cases s; cases s'
  simp only [State.mk.injEq] at hrest
  simp only [State.bank] at h0 h1
  simp only [State.withMem, State.bank, State.mk.injEq, ← h0, ← h1]
  simp [hrest]

theorem State.sameVisible_withMem {s : State} {m : BankId → Memory}
    (h : ∀ p, ∀ a < (s.bank p).plen, (s.bank p).mem.read a = (m p).read a) : s.SameVisible (s.withMem m) :=
  ⟨rfl, ⟨rfl, h .p0⟩, ⟨rfl, h .p1⟩⟩

/-- An update that neither reads nor writes a bank. -/
theorem State.SameVisible.map {s s' : State} (h : s.SameVisible s') {f : State → State}
    (hf : ∀ m, f (s.withMem m) = (f s).withMem m) (hbank : ∀ p, (f s).bank p = s.bank p) : (f s).SameVisible (f s') := by
  have hread := fun p => (h.bank p).2
  rw [h.eq_withMem, hf]
  refine State.sameVisible_withMem fun p a ha => ?_
  rw [hbank] at ha ⊢
  exact hread p a ha

/-! ### What is written -/

section
variable {b c : Bank}

theorem Bank.SameVisible.writeBytes (h : b.SameVisible c) (a : Nat) (bs : List Byte) :
    Bank.SameVisible { b with mem := b.mem.writeBytes a bs } { c with mem := c.mem.writeBytes a bs } := by
  refine ⟨h.1, fun x hx => ?_⟩
  simp only [Memory.read_writeBytes, h.2 x hx]

/-- An update that changes neither the bytes nor the packet length. -/
theorem Bank.SameVisible.map (h : b.SameVisible c) {f : Bank → Bank}
    (hf : ∀ m, f { b with mem := m } = { f b with mem := m }) (hmem : (f b).mem = b.mem) (hlen : (f b).plen = b.plen) :
    (f b).SameVisible (f c) := by
  rw [(congrArg f h.eq_mem).trans (hf c.mem)]
  refine ⟨rfl, fun a ha => ?_⟩
  show (f b).mem.read a = c.mem.read a
  rw [hmem]
  exact h.2 a (hlen ▸ ha)

/-- Rule R121: every byte below the new length is cleared. -/
theorem Bank.sameVisible_newBank (b c : Bank) (n : Nat) : (newBank b n).SameVisible (newBank c n) := by
  refine ⟨rfl, fun a (ha : a < n) => ?_⟩
  simp only [newBank, Memory.read_clear, if_pos (And.intro (Nat.zero_le a) ha)]

/-- Rule R122: every byte below the new length is cleared or written. -/
theorem Bank.sameVisible_replyBank (b c : Bank) (headroom : Nat) (bs : List Byte) :
    (replyBank b headroom bs).SameVisible (replyBank c headroom bs) := by
  refine ⟨rfl, fun a (ha : a < headroom + bs.length) => ?_⟩
  simp only [replyBank, Memory.read_writeBytes, Memory.read_clear]
  by_cases h : headroom ≤ a
  · rw [if_pos ⟨h, ha⟩, if_pos ⟨h, ha⟩]
  · have hclear : 0 ≤ a ∧ a < headroom := by omega
    simp only [h, false_and, if_false, if_pos hclear]

end

section
variable {s s' : State} (h : s.SameVisible s')
include h

theorem State.SameVisible.reply (st : Status) (v : Word) : (s.reply st v).SameVisible (s'.reply st v) :=
  h.map (f := fun u => u.reply st v) (fun _ => rfl) (fun _ => rfl)

theorem State.SameVisible.abort (a : Abort) : (s.abort a).SameVisible (s'.abort a) :=
  h.map (f := fun u => u.abort a) (fun _ => by cases a <;> rfl) (fun _ => by cases a <;> rfl)

theorem State.SameVisible.present (w : Word) (rest : List HostAction) :
    (s.present w rest).SameVisible (s'.present w rest) :=
  h.map (f := fun u => u.present w rest) (fun _ => rfl) (fun _ => rfl)

theorem State.SameVisible.setReg (i : Reg) (v : Word) : (s.setReg i v).SameVisible (s'.setReg i v) :=
  h.map (f := fun u => u.setReg i v) (fun _ => by unfold State.setReg; split <;> rfl) (fun p => s.setReg_bank i v p)

theorem State.SameVisible.setRgn (k : RgnIdx) (r : Region) : (s.setRgn k r).SameVisible (s'.setRgn k r) :=
  h.map (f := fun u => u.setRgn k r) (fun _ => rfl) (fun _ => rfl)

theorem State.SameVisible.resetBlock : s.resetBlock.SameVisible s'.resetBlock := by
  rw [h.eq_withMem]; exact ⟨rfl, Bank.SameVisible.refl _, Bank.SameVisible.refl _⟩

theorem State.SameVisible.setBank (p : BankId) {b c : Bank} (hb : b.SameVisible c) :
    (s.setBank p b).SameVisible (s'.setBank p c) := by
  obtain ⟨hrest, h0, h1⟩ := h
  cases p
  · exact ⟨hrest, hb, h1⟩
  · exact ⟨hrest, h0, hb⟩

theorem State.SameVisible.storeWrite (st : Store) (a : Nat) (bs : List Byte) :
    (s.storeWrite st a bs).SameVisible (s'.storeWrite st a bs) := by
  cases st with
  | bank p => exact h.setBank p ((h.bank p).writeBytes a bs)
  | hip => exact h.map (f := fun u => u.storeWrite .hip a bs) (fun _ => rfl) (fun _ => rfl)
  | hicmp => exact h.map (f := fun u => u.storeWrite .hicmp a bs) (fun _ => rfl) (fun _ => rfl)
  | hudp => exact h.map (f := fun u => u.storeWrite .hudp a bs) (fun _ => rfl) (fun _ => rfl)

theorem State.SameVisible.putBytes (v : View) (i : Nat) (bs : List Byte) :
    (s.putBytes v i bs).SameVisible (s'.putBytes v i bs) := h.storeWrite _ _ _

theorem State.SameVisible.setNetOrder (loc : Loc) (o : Order) :
    (s.setNetOrder loc o).SameVisible (s'.setNetOrder loc o) := by
  cases loc with
  | bank p => exact h.setBank p ((h.bank p).map (f := fun b => { b with nord := o }) (fun _ => rfl) rfl rfl)
  | stage => exact h.map (f := fun u => u.setNetOrder .stage o) (fun _ => rfl) (fun _ => rfl)

theorem State.SameVisible.setTrnOrder (loc : Loc) (o : Order) :
    (s.setTrnOrder loc o).SameVisible (s'.setTrnOrder loc o) := by
  cases loc with
  | bank p => exact h.setBank p ((h.bank p).map (f := fun b => { b with tord := o }) (fun _ => rfl) rfl rfl)
  | stage => exact h.map (f := fun u => u.setTrnOrder .stage o) (fun _ => rfl) (fun _ => rfl)

theorem State.SameVisible.fillTransport (p : BankId) (a : Nat) (bs : List Byte) (o : Order) :
    (s.fillTransport p a bs o).SameVisible (s'.fillTransport p a bs o) :=
  h.setBank p <| ((h.bank p).writeBytes a bs).map (f := fun b => { b with toff := some a, tord := o })
    (fun _ => rfl) rfl rfl

theorem State.SameVisible.fillNetwork (p : BankId) (a : Nat) (bs : List Byte) (o : Order) :
    (s.fillNetwork p a bs o).SameVisible (s'.fillNetwork p a bs o) :=
  h.setBank p <| ((h.bank p).writeBytes a bs).map (f := fun b => { b with noff := some a, nord := o })
    (fun _ => rfl) rfl rfl

end

/-! ### What is read -/

/-- The first `n` bytes of an image are the same in both states. -/
def State.SameImage (s s' : State) (v : View) (n : Nat) : Prop := ∀ i < n, s.byteAt v i = s'.byteAt v i

section
variable {s s' : State} {v : View} {n : Nat} (h : s.SameImage s' v n)
include h

theorem State.SameImage.mono {k : Nat} (hk : k ≤ n) : s.SameImage s' v k :=
  fun i hi => h i (Nat.lt_of_lt_of_le hi hk)

theorem State.SameImage.bytesAt {i k : Nat} (hi : i + k ≤ n) : s.bytesAt v i k = s'.bytesAt v i k :=
  List.map_congr_left fun j hj => by
    have hj := List.mem_range.mp hj
    simpa only [State.byteAt, Nat.add_assoc] using h (i + j) (by omega)

theorem State.SameImage.be16At {i : Nat} (hi : i + 2 ≤ n) : s.be16At v i = s'.be16At v i := by
  rw [State.be16At, State.be16At, h i (by omega), h (i + 1) (by omega)]

theorem State.SameImage.fld16 {i : Nat} (hi : i + 2 ≤ n) : s.fld16 v i = s'.fld16 v i := by
  rw [State.fld16, State.fld16, h i (by omega), h (i + 1) (by omega)]

theorem State.SameImage.fld32 {i : Nat} (hi : i + 4 ≤ n) : s.fld32 v i = s'.fld32 v i := by
  rw [State.fld32, State.fld32, h i (by omega), h (i + 1) (by omega), h (i + 2) (by omega), h (i + 3) (by omega)]

/-- Rule R164: the reply header is made of the image's first 20 bytes. -/
theorem State.SameImage.ipReplyHeader (hn : 20 ≤ n) : ipReplyHeader (s.byteAt v) = ipReplyHeader (s'.byteAt v) := by
  have hbyte : ∀ {i}, i < 20 → s.byteAt v i = s'.byteAt v i := fun hi => h _ (Nat.lt_of_lt_of_le hi hn)
  simp [Machine.ipReplyHeader, hbyte]

/-- Rule R198: the reply header is made of the image's first 8 bytes. -/
theorem State.SameImage.udpReplyHeader (hn : 8 ≤ n) : udpReplyHeader (s.byteAt v) = udpReplyHeader (s'.byteAt v) := by
  have hbyte : ∀ {i}, i < 8 → s.byteAt v i = s'.byteAt v i := fun hi => h _ (Nat.lt_of_lt_of_le hi hn)
  simp [Machine.udpReplyHeader, hbyte]

theorem State.SameImage.ipVersionAt (hn : 0 < n) : s.ipVersionAt v = s'.ipVersionAt v := by
  rw [State.ipVersionAt, State.ipVersionAt, h 0 hn]

theorem State.SameImage.ipIhlAt (hn : 0 < n) : s.ipIhlAt v = s'.ipIhlAt v := by
  rw [State.ipIhlAt, State.ipIhlAt, h 0 hn]

end

section
variable {s s' : State} (h : s.SameVisible s')
include h

theorem State.SameVisible.cfg : s.cfg = s'.cfg := by rw [h.eq_withMem]; rfl

theorem State.SameVisible.host : s.host = s'.host := by rw [h.eq_withMem]; rfl

theorem State.SameVisible.faulted : s.faulted = s'.faulted := by rw [h.eq_withMem]; rfl

theorem State.SameVisible.fsr : s.fsr = s'.fsr := by rw [h.eq_withMem]; rfl

theorem State.SameVisible.reg (i : Reg) : s.reg i = s'.reg i := by rw [h.eq_withMem]; rfl

theorem State.SameVisible.regByte (i : Reg) : s.regByte i = s'.regByte i := by rw [h.eq_withMem]; rfl

theorem State.SameVisible.regHalf (i : Reg) : s.regHalf i = s'.regHalf i := by rw [h.eq_withMem]; rfl

theorem State.SameVisible.hip : s.hip = s'.hip := by rw [h.eq_withMem]; rfl

theorem State.SameVisible.hipOrd : s.hipOrd = s'.hipOrd := by rw [h.eq_withMem]; rfl

theorem State.SameVisible.hicmp : s.hicmp = s'.hicmp := by rw [h.eq_withMem]; rfl

theorem State.SameVisible.hudp : s.hudp = s'.hudp := by rw [h.eq_withMem]; rfl

theorem State.SameVisible.hudpOrd : s.hudpOrd = s'.hudpOrd := by rw [h.eq_withMem]; rfl

theorem State.SameVisible.rgn (k : RgnIdx) : s.rgn k = s'.rgn k := by rw [h.eq_withMem]; rfl

theorem State.SameVisible.csr (n : BitVec 4) : s.csr n = s'.csr n := by rw [h.eq_withMem]; rfl

/-- What is read from a bank without its bytes. -/
theorem State.SameVisible.descriptor {α : Type} (p : BankId) (f : Bank → α) (hf : ∀ b m, f { b with mem := m } = f b) :
    f (s.bank p) = f (s'.bank p) :=
  ((congrArg f (h.bank p).eq_mem).trans (hf _ _)).symm

theorem State.SameVisible.plen (p : BankId) : (s.bank p).plen = (s'.bank p).plen := h.descriptor p _ fun _ _ => rfl

theorem State.SameVisible.hv (kind : Kind) (loc : Loc) : s.hv kind loc = s'.hv kind loc := by
  rw [h.eq_withMem]
  rcases loc with (_ | _) | _ <;> cases kind <;> rfl

/-- Rule R54: the bytes of a view all lie below `PLEN`. -/
theorem State.SameVisible.image {kind : Kind} {loc : Loc} {v : View} (hv : s.hv kind loc = .ok v) :
    s.SameImage s' v v.avail := by
  intro i hi
  rcases loc with p | _
  · obtain ⟨off, -, -, rfl⟩ := State.hv_bank hv
    replace hi : i < (s.bank p).plen - off := hi
    exact (h.bank p).2 (off + i) (by omega)
  · rw [h.eq_withMem]
    cases hv; cases kind <;> rfl

theorem State.SameVisible.header {kind : Kind} {loc : Loc} {v : View} (hv : s.hv kind loc = .ok v) :
    s.SameImage s' v kind.minLen :=
  (h.image hv).mono (State.hv_avail hv)

/-- Rule R109: the bytes of a region that fits all lie below `PLEN`. -/
theorem State.SameVisible.rgnBytes (k : RgnIdx) : s.rgnBytes k = s'.rgnBytes k := by
  have hfits : s'.RegionFits k ↔ s.RegionFits k := by rw [State.RegionFits, State.RegionFits, h.rgn k, h.plen]
  rw [State.rgnBytes_eq, State.rgnBytes_eq]
  by_cases hk : s.RegionFits k
  · rw [if_pos hk, if_pos (hfits.mpr hk), State.regionBytes, State.regionBytes, ← h.rgn k]
    refine congrArg Except.ok (List.map_congr_left fun i hi => (h.bank _).2 _ ?_)
    have hi := List.mem_range.mp hi
    omega
  · rw [if_neg hk, if_neg (hfits.not.mpr hk)]

theorem State.SameVisible.udpSegmentCsum {loc : Loc} {v : View} (rs1 rs2 : Reg) (hv : s.hv .udp loc = .ok v) (len : Half)
    (seg : List Byte) : s.udpSegmentCsum rs1 rs2 v len seg = s'.udpSegmentCsum rs1 rs2 v len seg := by
  rw [State.udpSegmentCsum, State.udpSegmentCsum, h.cfg, h.reg, h.reg, (h.header hv).be16At (by decide)]

theorem State.SameVisible.reverseAt {kind : Kind} {loc : Loc} {v : View} (hv : s.hv kind loc = .ok v) {i n : Nat}
    (hi : i + n ≤ kind.minLen) : (s.reverseAt v i n).SameVisible (s'.reverseAt v i n) := by
  rw [State.reverseAt, State.reverseAt, (h.header hv).bytesAt hi]
  exact h.putBytes _ _ _

end

/-- Runs of bytes inside the fixed header, reversed one after the other. -/
theorem State.SameVisible.reverseAll {kind : Kind} {loc : Loc} {v : View} (runs : List (Nat × Nat))
    (hruns : ∀ r ∈ runs, r.1 + r.2 ≤ kind.minLen) {s s' : State} (h : s.SameVisible s') (hv : s.hv kind loc = .ok v) :
    (runs.foldl (fun u r => u.reverseAt v r.1 r.2) s).SameVisible
      (runs.foldl (fun u r => u.reverseAt v r.1 r.2) s') := by
  induction runs generalizing s s' with
  | nil => exact h
  | cons r runs ih =>
    exact ih (fun q hq => hruns q (List.mem_cons_of_mem _ hq)) (h.reverseAt hv (hruns r List.mem_cons_self))
      ((State.hv_reverseAt ..).trans hv)

theorem State.SameVisible.ipReverseFields {s s' : State} (h : s.SameVisible s') {loc : Loc} {v : View}
    (hv : s.hv .ip loc = .ok v) : (s.ipReverseFields v).SameVisible (s'.ipReverseFields v) :=
  State.SameVisible.reverseAll [(2, 2), (4, 2), (6, 2), (10, 2), (12, 4), (16, 4)] (by decide) h hv

theorem State.SameVisible.udpReverseFields {s s' : State} (h : s.SameVisible s') {loc : Loc} {v : View}
    (hv : s.hv .udp loc = .ok v) : (s.udpReverseFields v).SameVisible (s'.udpReverseFields v) :=
  State.SameVisible.reverseAll [(0, 2), (2, 2), (4, 2), (6, 2)] (by decide) h hv

/-! ### Pseudocode that runs alike -/

/-- Two runs of a rule's pseudocode end in the same way: with the same refusal or fault, or with results in the relation. -/
inductive SameEnd {α : Type} (R : α → α → Prop) : Except Abort α → Except Abort α → Prop
  | error (a : Abort) : SameEnd R (.error a) (.error a)
  | ok {x y : α} (h : R x y) : SameEnd R (.ok x) (.ok y)

theorem SameEnd.eq {α : Type} {x y : Except Abort α} (h : SameEnd Eq x y) : x = y := by
  cases h with
  | error => rfl
  | ok hxy => rw [hxy]

theorem SameEnd.bind {α β : Type} {R : β → β → Prop} {x y : Except Abort α} {f g : α → Except Abort β} (h : x = y)
    (hfg : ∀ a, x = .ok a → SameEnd R (f a) (g a)) : SameEnd R (x >>= f) (y >>= g) := by
  subst h
  cases x with
  | error a => exact .error a
  | ok a => exact hfg a rfl

/-- A test whose condition is the same in both. -/
theorem SameEnd.test {β : Type} {R : β → β → Prop} {c d : Prop} [Decidable c] [Decidable d] {a : Abort}
    {f g : Unit → Except Abort β} (h : c ↔ d) (hfg : ¬c → SameEnd R (f ()) (g ())) :
    SameEnd R (stopIf c a >>= f) (stopIf d a >>= g) :=
  .bind (by by_cases hc : c <;> simp [hc, ← h]) fun _ hc => hfg (stopIf_eq_ok.mp hc)

section
variable {s s' : State} (h : s.SameVisible s')
include h

theorem State.SameVisible.ipSummed (loc : Loc) : s.ipSummed loc = s'.ipSummed loc := by
  refine SameEnd.eq (.bind (h.hv .ip loc) fun v hv => ?_)
  have himg := h.image hv
  have hihl := (h.header hv).ipIhlAt (by decide)
  refine .test (by rw [hihl]) fun _ => .test Iff.rfl fun _ => .test (by rw [hihl]) fun hfit => .ok ?_
  rw [← hihl, himg.bytesAt (by omega)]

theorem State.SameVisible.icmpSummed (loc : Loc) (rs1 : Reg) : s.icmpSummed loc rs1 = s'.icmpSummed loc rs1 := by
  refine SameEnd.eq (.bind (h.hv .icmp loc) fun v hv => ?_)
  have himg := h.image hv
  have hreg := h.reg rs1
  refine .test (by rw [hreg]) fun hfit => .ok ?_
  rw [← hreg, himg.bytesAt (by omega)]

theorem State.SameVisible.udpSummed (loc : Loc) : s.udpSummed loc = s'.udpSummed loc := by
  refine SameEnd.eq (.bind (h.hv .udp loc) fun v hv => ?_)
  have himg := h.image hv
  have hlen := (h.header hv).fld16 (i := 4) (by decide)
  refine .test (by rw [hlen]) fun _ => .test Iff.rfl fun _ => .test (by rw [hlen]) fun hfit => .ok ?_
  rw [← hlen, himg.bytesAt (by omega)]

end

/-! ### The outcome of a command -/

/-- The next states of two outcomes differ only where it cannot be seen. -/
def SameOutcome (o o' : Host.Outcome State Fault Refusal) : Prop :=
  ∀ t t', o = .next t → o' = .next t' → t.SameVisible t'

theorem SameOutcome.next {t t' : State} (h : t.SameVisible t') : SameOutcome (.next t) (.next t') := by
  rintro _ _ ⟨⟩ ⟨⟩; exact h

section
variable {s s' : State} (h : s.SameVisible s')
include h

theorem State.SameVisible.illegalWord : s.illegalWord.SameVisible s'.illegalWord := by
  unfold State.illegalWord
  rw [← h.faulted, ← h.fsr]
  split
  · exact h.reply _ _
  · exact h.abort (.raise .illegal)

theorem State.SameVisible.commandValue {rd : Reg} {body body' : Except Abort Word} (hbody : SameEnd Eq body body') :
    SameOutcome (s.commandValue rd body) (s'.commandValue rd body') := by
  cases hf : s.faulted with
  | true =>
    rw [State.commandValue_faulted hf, State.commandValue_faulted (h.faulted ▸ hf), h.fsr]
    exact .next (h.reply _ _)
  | false =>
    have hf' : s'.faulted = false := h.faulted ▸ hf
    cases hbody with
    | error a => rw [State.commandValue_error hf, State.commandValue_error hf']; exact .next (h.abort a)
    | ok hxy =>
      subst hxy
      rw [State.commandValue_ok hf, State.commandValue_ok hf']
      exact .next ((h.setReg _ _).reply _ _)

theorem State.SameVisible.commandEffect {body body' : Except Abort State} (hbody : SameEnd State.SameVisible body body') :
    SameOutcome (s.commandEffect body) (s'.commandEffect body') := by
  cases hf : s.faulted with
  | true =>
    rw [State.commandEffect_faulted hf, State.commandEffect_faulted (h.faulted ▸ hf), h.fsr]
    exact .next (h.reply _ _)
  | false =>
    have hf' : s'.faulted = false := h.faulted ▸ hf
    cases hbody with
    | error a => rw [State.commandEffect_error hf, State.commandEffect_error hf']; exact .next (h.abort a)
    | ok hxy => rw [State.commandEffect_ok hf, State.commandEffect_ok hf']; exact .next (hxy.reply _ _)

/-- A read of a header image that goes no further than the fixed header. -/
theorem State.SameVisible.headerValue {kind : Kind} {loc : Loc} {rd : Reg} {f g : View → Word}
    (hfg : ∀ v, s.SameImage s' v kind.minLen → f v = g v) :
    SameOutcome (s.commandValue rd (s.hv kind loc >>= fun v => pure (f v)))
      (s'.commandValue rd (s'.hv kind loc >>= fun v => pure (g v))) :=
  h.commandValue <| .bind (h.hv kind loc) fun v hv => .ok (hfg v (h.header hv))

theorem State.SameVisible.ipFlagWord (rd : Reg) (loc : Loc) (value : Half → Word) :
    SameOutcome (s.ipFlagWord rd loc value) (s'.ipFlagWord rd loc value) :=
  h.commandValue <| .bind (h.hv .ip loc) fun v hv => .test Iff.rfl fun _ =>
    .ok (congrArg value ((h.header hv).fld16 (by decide)))

/-- A store through a view. -/
theorem State.SameVisible.headerEffect {kind : Kind} {loc : Loc} {f g : View → State}
    (hfg : ∀ v, s.hv kind loc = .ok v → (f v).SameVisible (g v)) :
    SameOutcome (s.commandEffect (s.hv kind loc >>= fun v => pure (f v)))
      (s'.commandEffect (s'.hv kind loc >>= fun v => pure (g v))) :=
  h.commandEffect <| .bind (h.hv kind loc) fun v hv => .ok (hfg v hv)

/-- An offset that a command needs: unset in both states, or the same number. -/
theorem State.SameVisible.needOffset (p : BankId) {f : Bank → Option Nat} (hf : ∀ b m, f { b with mem := m } = f b) :
    needOffset (f (s.bank p)) = needOffset (f (s'.bank p)) := congrArg _ (h.descriptor p f hf)

/-- Every command, completing, refused or taking a fault, goes alike in both states. -/
theorem State.SameVisible.exec (i : Instr) : SameOutcome (exec i s) (exec i s') := by
  cases i with
  -- Registers and regions: the operands are the same.
  | li rd imm16 => exact h.commandValue (.ok rfl)
  | lih rd imm16 => exact h.commandValue (.ok (by rw [h.regHalf]))
  | add rd rs1 rs2 => exact h.commandValue (.ok (by rw [h.reg, h.reg]))
  | sub rd rs1 rs2 => exact h.commandValue (.ok (by rw [h.reg, h.reg]))
  | csfold rd rs1 rs2 => exact h.commandValue (.ok (by rw [h.regHalf, h.regHalf]))
  | csum rd rs3 k => exact h.commandValue (.bind (h.rgnBytes k) fun bs _ => .ok (by rw [h.regHalf]))
  | csum2 rd rs3 k j =>
    exact h.commandValue (.bind (h.rgnBytes k) fun as _ => .bind (h.rgnBytes j) fun bs _ => .ok (by rw [h.regHalf]))
  | rgnSet rs1 rs2 p k =>
    refine h.commandEffect (.ok ?_)
    rw [← h.reg, ← h.reg]
    exact h.setRgn k _
  -- The packet buffer: guards on lengths and offsets, then bytes that are the same in both.
  | pktNew rs1 p =>
    refine h.commandEffect (.test (by rw [h.reg, h.cfg]) fun _ => .ok ?_)
    rw [h.reg]
    exact h.setBank p (Bank.sameVisible_newBank _ _ _)
  | pktNewReply p k =>
    refine h.commandEffect (.test (by rw [h.rgn, h.cfg]) fun _ => .bind (h.rgnBytes k) fun bs _ => .ok ?_)
    rw [h.cfg]
    exact h.setBank p (Bank.sameVisible_replyBank _ _ _ _)
  | pktWr8 rs1 rs2 p =>
    refine h.commandEffect (.test (by rw [h.reg, h.plen]) fun _ => .ok ?_)
    rw [h.reg, h.regByte]
    exact h.storeWrite (.bank p) _ _
  | pktRd8 rd rs1 p =>
    refine h.commandValue (.test (by rw [h.reg, h.plen]) fun hlt => .ok ?_)
    rw [← h.reg, (h.bank p).2 _ (Nat.lt_of_not_le hlt)]
  | pktFillI p =>
    refine h.commandEffect (.bind (h.descriptor p (fillTransportAt · Config.icmpHdr) fun _ _ => rfl) fun a _ => .ok ?_)
    rw [h.hicmp]
    exact h.fillTransport p a _ _
  | pktFillU p =>
    refine h.commandEffect (.bind (h.descriptor p (fillTransportAt · Config.udpHdr) fun _ _ => rfl) fun a _ => .ok ?_)
    rw [h.hudp, h.hudpOrd]
    exact h.fillTransport p a _ _
  | pktFillN p =>
    refine h.commandEffect (.bind (h.descriptor p fillNetworkAt fun _ _ => rfl) fun a _ => .ok ?_)
    rw [h.hip, h.hipOrd]
    exact h.fillNetwork p a _ _
  | pktGetOff rd p j =>
    exact h.commandValue (.bind (h.needOffset p (f := OffSel.offset j) fun _ _ => by cases j <;> rfl) fun _ _ => .ok rfl)
  | pktTlen rd p =>
    exact h.commandValue (.bind (h.needOffset p (f := Bank.noff) fun _ _ => rfl) fun _ _ => .ok (by rw [h.plen]))
  | pktPayload p k =>
    refine h.commandEffect (.bind (h.needOffset p (f := Bank.poff) fun _ _ => rfl) fun o _ => .ok ?_)
    rw [h.descriptor p (sliceFrom p · o) fun _ _ => rfl]
    exact h.setRgn k _
  | pktWhole p k =>
    refine h.commandEffect (.bind (h.needOffset p (f := Bank.noff) fun _ _ => rfl) fun o _ => .ok ?_)
    rw [h.descriptor p (sliceFrom p · o) fun _ _ => rfl]
    exact h.setRgn k _
  -- The IPv4 header parser.
  | ipParse p =>
    refine h.commandEffect (.bind (h.hv .ip (.bank p)) fun v hv => ?_)
    have himg := h.header hv
    have hlen := himg.fld16 (i := 2) (by decide)
    refine .test (by rw [himg.ipVersionAt (by decide)]) fun _ => .test (by rw [himg.ipIhlAt (by decide)]) fun _ =>
      .test (by rw [hlen]) fun _ => .ok ?_
    exact h.setBank p ((h.bank p).map (f := fun b => { b with toff := _, poff := _ }) (fun _ => rfl) rfl rfl)
  | ipVersion rd loc => exact h.headerValue (kind := .ip) fun v himg => by rw [himg.ipVersionAt (by decide)]
  | ipHlen rd loc => exact h.headerValue (kind := .ip) fun v himg => by rw [himg.ipIhlAt (by decide)]
  | ipDscp rd loc => exact h.headerValue (kind := .ip) fun v himg => by rw [himg 1 (by decide)]
  | ipTotLen rd loc => exact h.headerValue (kind := .ip) fun v himg => by rw [himg.fld16 (by decide)]
  | ipId rd loc => exact h.headerValue (kind := .ip) fun v himg => by rw [himg.fld16 (by decide)]
  | ipTtl rd loc => exact h.headerValue (kind := .ip) fun v himg => by rw [himg 8 (by decide)]
  | ipProto rd loc => exact h.headerValue (kind := .ip) fun v himg => by rw [himg 9 (by decide)]
  | ipCkFld rd loc => exact h.headerValue (kind := .ip) fun v himg => by rw [himg.fld16 (by decide)]
  | ipSrc rd loc => exact h.headerValue (kind := .ip) fun v himg => himg.fld32 (by decide)
  | ipDst rd loc => exact h.headerValue (kind := .ip) fun v himg => himg.fld32 (by decide)
  | ipFlags rd loc => exact h.ipFlagWord rd loc fun ff => (ffFlags ff).setWidth 32
  | ipFragOff rd loc => exact h.ipFlagWord rd loc fun ff => (ffFragOff ff).setWidth 32
  | ipRsv rd loc => exact h.ipFlagWord rd loc fun ff => (ffReserved ff).setWidth 32
  | ipDf rd loc => exact h.ipFlagWord rd loc fun ff => (ffDf ff).setWidth 32
  | ipMf rd loc => exact h.ipFlagWord rd loc fun ff => (ffMf ff).setWidth 32
  | ipSetTotLen rs1 loc =>
    exact h.headerEffect (kind := .ip) fun v hv => by rw [h.regHalf]; exact h.putBytes v _ _
  | ipBswap loc => exact h.headerEffect (kind := .ip) fun v hv => (h.ipReverseFields hv).setNetOrder loc _
  | ipCsum rd loc =>
    refine h.commandValue (.bind (h.ipSummed loc) fun r hr => .ok ?_)
    rw [(h.header (State.ipSummed_eq_ok hr).1).be16At (by decide)]
  | ipSetCsum loc =>
    refine h.commandEffect (.bind (h.ipSummed loc) fun r hr => .ok ?_)
    rw [(h.header (State.ipSummed_eq_ok hr).1).be16At (by decide)]
    exact h.putBytes _ _ _
  | ipVerify rd loc => exact h.commandValue (.bind (h.ipSummed loc) fun r _ => .ok rfl)
  | ipReply loc =>
    refine h.commandEffect (.bind (h.hv .ip loc) fun v hv => ?_)
    have himg := h.header hv
    refine .test (by rw [State.ttlRefused, State.ttlRefused, h.cfg, himg 8 (by decide)]) fun _ => .ok ?_
    rw [himg.ipReplyHeader (by decide)]
    exact h.map (f := fun u => { u with hip := _, hipOrd := _ }) (fun _ => rfl) (fun _ => rfl)
  -- The ICMP header parser.
  | icmpParse p =>
    exact h.headerEffect (kind := .icmp) fun v hv =>
      h.setBank p ((h.bank p).map (f := fun b => { b with poff := _ }) (fun _ => rfl) rfl rfl)
  | icmpType rd loc => exact h.headerValue (kind := .icmp) fun v himg => by rw [himg 0 (by decide)]
  | icmpCode rd loc => exact h.headerValue (kind := .icmp) fun v himg => by rw [himg 1 (by decide)]
  | icmpCkFld rd loc => exact h.headerValue (kind := .icmp) fun v himg => by rw [himg.be16At (by decide)]
  | icmpBuild rs1 rs2 =>
    refine h.commandEffect (.ok ?_)
    rw [h.regByte, h.regByte]
    exact h.map (f := fun u => { u with hicmp := _ }) (fun _ => rfl) (fun _ => rfl)
  | icmpCsum rd rs1 loc =>
    refine h.commandValue (.bind (h.icmpSummed loc rs1) fun r hr => .ok ?_)
    rw [(h.header (State.icmpSummed_eq_ok hr).1).be16At (by decide)]
  | icmpSetCsum rs1 loc =>
    refine h.commandEffect (.bind (h.icmpSummed loc rs1) fun r hr => .ok ?_)
    rw [(h.header (State.icmpSummed_eq_ok hr).1).be16At (by decide)]
    exact h.putBytes _ _ _
  -- The UDP header parser.
  | udpParse p =>
    refine h.commandEffect (.bind (h.hv .udp (.bank p)) fun v hv => ?_)
    have hlen := (h.header hv).fld16 (i := 4) (by decide)
    refine .test (by rw [hlen]) fun _ => .ok ?_
    exact h.setBank p ((h.bank p).map (f := fun b => { b with poff := _ }) (fun _ => rfl) rfl rfl)
  | udpSport rd loc | udpDport rd loc | udpLen rd loc | udpCkFld rd loc =>
    exact h.headerValue (kind := .udp) fun v himg => by rw [himg.fld16 (by decide)]
  | udpBswap loc => exact h.headerEffect (kind := .udp) fun v hv => (h.udpReverseFields hv).setTrnOrder loc _
  | udpReply loc =>
    refine h.headerEffect (kind := .udp) fun v hv => ?_
    rw [(h.header hv).udpReplyHeader (by decide)]
    exact h.map (f := fun u => { u with hudp := _, hudpOrd := _ }) (fun _ => rfl) (fun _ => rfl)
  | udpCsum rd rs1 rs2 loc =>
    refine h.commandValue (.bind (h.udpSummed loc) fun r hr => .ok ?_)
    rw [h.udpSegmentCsum rs1 rs2 (State.udpSummed_eq_ok hr).1]
  | udpSetCsum rs1 rs2 loc =>
    refine h.commandEffect (.bind (h.udpSummed loc) fun r hr => .ok ?_)
    rw [h.udpSegmentCsum rs1 rs2 (State.udpSummed_eq_ok hr).1]
    exact h.putBytes _ _ _
  -- The system command.
  | sysRdcsr rd csr =>
    show SameOutcome (execSysRdcsr rd csr s) (execSysRdcsr rd csr s')
    unfold execSysRdcsr
    rw [← h.csr]
    cases s.csr csr with
    | some v => exact .next ((h.setReg rd v).reply _ _)
    | none => exact .next h.illegalWord

theorem State.SameVisible.runWord (w : Word) : SameOutcome (runWord w s) (runWord w s') := by
  cases hw : decode w with
  | ok i => rw [runWord_of_decode_ok hw, runWord_of_decode_ok hw]; exact h.exec i
  | error e => rw [runWord_of_decode_error hw, runWord_of_decode_error hw]; exact .next h.illegalWord

/-- The host's next action, whatever it is. -/
theorem State.SameVisible.step : SameOutcome (step s) (step s') := by
  cases hs : s.host with
  | nil =>
    rw [step_of_idle hs, step_of_idle (h.host ▸ hs)]
    exact .next h
  | cons a rest =>
    have hs' : s'.host = a :: rest := h.host ▸ hs
    cases a with
    | issue w =>
      rw [step_of_issue hs, step_of_issue hs']
      exact (h.present w rest).runWord w
    | reset =>
      rw [step_of_reset hs, step_of_reset hs']
      have hrest := h.map (f := fun u => { u with host := rest }) (fun _ => rfl) (fun _ => rfl)
      exact .next hrest.resetBlock

end

/-- Settles O18: the step of both states goes through the same action, and each action through the same operations. -/
theorem hiddenBytesUnobservable : Obligations.HiddenBytesUnobservable :=
  fun _ _ t t' h hs hs' => h.step t t' hs hs'

end Sys2Proof.Machine
end

section
/-! PROOFS. The command encoding (30_encoding): a word decodes to a command exactly when it is the command's word
(`decode_eq_ok_iff`), and exactly when the command's row of the opcode table admits it (`admits_iff_decode`). The illegal words
are then those that no row admits, so each clause of rule R80 is a fact about the table. -/

namespace Sys2Proof

/-! ### The operand fields and the formats, read back (rules R71 to R77) -/

@[simp] theorem DecodeError.ok_bind {α β : Type} (a : α) (f : α → Except DecodeError β) :
    ((.ok a : Except DecodeError α) >>= f) = f a := rfl

@[simp] theorem DecodeError.pure_eq {α : Type} (a : α) : (pure a : Except DecodeError α) = .ok a := rfl

theorem bankOfLoc_eq_ok {b : BitVec 2} {p : BankId} : bankOfLoc b = .ok p ↔ b = p.bits :=
  ⟨fun h => (bits_of_bankOfLoc h).symm, fun h => h ▸ bankOfLoc_bits p⟩

theorem locOfLoc_eq_ok {b : BitVec 2} {l : Loc} : locOfLoc b = .ok l ↔ b = l.bits :=
  ⟨fun h => (bits_of_locOfLoc h).symm, fun h => h ▸ locOfLoc_bits l⟩

theorem selOfJ_eq_ok {b : BitVec 2} {j : OffSel} : selOfJ b = .ok j ↔ b = j.bits :=
  ⟨fun h => (bits_of_selOfJ h).symm, fun h => h ▸ selOfJ_bits j⟩

theorem formatI_eq_iff {op : BitVec 8} {rd : Reg} {imm16 : Half} {w : Word} :
    formatI op rd imm16 = w ↔ fieldOp w = op ∧ fieldRd w = rd ∧ fieldRs1 w = 0 ∧ fieldImm16 w = imm16 := by
  constructor
  · rintro rfl; simp
  · rintro ⟨rfl, rfl, h, rfl⟩; exact formatI_fields w h

theorem formatR_eq_iff {op : BitVec 8} {rd rs1 rs2 rs3 : Reg} {w : Word} :
    formatR op rd rs1 rs2 rs3 = w ↔ fieldOp w = op ∧ fieldRd w = rd ∧ fieldRs1 w = rs1 ∧ fieldRs2 w = rs2 ∧
      fieldRs3 w = rs3 ∧ fieldLow8 w = 0 := by
  constructor
  · rintro rfl; simp
  · rintro ⟨rfl, rfl, rfl, rfl, rfl, h⟩; exact formatR_fields w h

theorem formatS_eq_iff {op : BitVec 8} {rd rs1 rs2 rs3 : Reg} {loc k j : BitVec 2} {w : Word} :
    formatS op rd rs1 rs2 rs3 loc k j = w ↔ fieldOp w = op ∧ fieldRd w = rd ∧ fieldRs1 w = rs1 ∧ fieldRs2 w = rs2 ∧
      fieldRs3 w = rs3 ∧ fieldLoc w = loc ∧ fieldK w = k ∧ fieldJ w = j ∧ fieldLow2 w = 0 := by
  constructor
  · rintro rfl; simp
  · rintro ⟨rfl, rfl, rfl, rfl, rfl, rfl, rfl, rfl, h⟩; exact formatS_fields w h

theorem formatF_eq_iff {op : BitVec 8} {rd : Reg} {loc : BitVec 2} {fld : BitVec 4} {w : Word} :
    formatF op rd loc fld = w ↔ fieldOp w = op ∧ fieldRd w = rd ∧ fieldRs1 w = 0 ∧ fieldRs2 w = 0 ∧ fieldRs3 w = 0 ∧
      fieldLoc w = loc ∧ fieldK w = 0 ∧ fieldFld w = fld := by
  constructor
  · rintro rfl; simp
  · rintro ⟨rfl, rfl, h1, h2, h3, rfl, hk, rfl⟩; exact formatF_fields w h1 h2 h3 hk

/-! ### What an arm of the decoder accepts

The arms have four shapes: the must-be-zero test of rule R75, then no operand that can be illegal, a bank, a location, or a
location and a field number. -/

theorem mustBeZero_bind_eq_ok {c : Prop} [Decidable c] {α : Type} {x : Except DecodeError α} {a : α} :
    (mustBeZero c >>= fun _ => x) = .ok a ↔ c ∧ x = .ok a := by
  rw [DecodeError.bind_eq_ok]
  constructor
  · rintro ⟨_, hc, hx⟩; exact ⟨mustBeZero_eq_ok.1 hc, hx⟩
  · rintro ⟨hc, hx⟩; exact ⟨(), mustBeZero_eq_ok.2 hc, hx⟩

/-- The arms of the decoder that read no `loc`. -/
theorem arm_eq_ok {c : Prop} [Decidable c] {i j : Instr} :
    (do mustBeZero c; return j) = Except.ok i ↔ c ∧ j = i := by
  rw [mustBeZero_bind_eq_ok]
  simp

/-- The arms of the packet and parse commands. -/
theorem bankArm_eq_ok {c : Prop} [Decidable c] {b : BitVec 2} {f : BankId → Instr} {i : Instr} :
    (do mustBeZero c; return f (← bankOfLoc b)) = Except.ok i ↔ c ∧ ∃ p : BankId, b = p.bits ∧ f p = i := by
  rw [mustBeZero_bind_eq_ok]
  simp [DecodeError.bind_eq_ok, bankOfLoc_eq_ok]

/-- The arms of the header commands. -/
theorem locArm_eq_ok {c : Prop} [Decidable c] {b : BitVec 2} {f : Loc → Instr} {i : Instr} :
    (do mustBeZero c; return f (← locOfLoc b)) = Except.ok i ↔ c ∧ ∃ l : Loc, b = l.bits ∧ f l = i := by
  rw [mustBeZero_bind_eq_ok]
  simp [DecodeError.bind_eq_ok, locOfLoc_eq_ok]

/-- The arms of the field reads. -/
theorem fieldArm_eq_ok {w : Word} {f : Loc → Except DecodeError Instr} {i : Instr} :
    (do formatFZeros w; f (← locOfLoc (fieldLoc w))) = Except.ok i ↔
      (fieldRs1 w = 0 ∧ fieldRs2 w = 0 ∧ fieldRs3 w = 0 ∧ fieldK w = 0) ∧ ∃ l : Loc, fieldLoc w = l.bits ∧ f l = .ok i := by
  rw [formatFZeros, mustBeZero_bind_eq_ok]
  simp [DecodeError.bind_eq_ok, locOfLoc_eq_ok]

/-! ### Decoding the word of a command -/

/-- Rules R70 to R78. The cases are grouped by the decoder that reads the word. -/
theorem decode_encode {i : Instr} (h : i.wellFormed = true) : decode (encode i) = .ok i := by
  cases i with
  | li | lih | add | sub => simp [encode, decode, decodeRegister]
  | csfold | csum | csum2 => simp [encode, decode, decodeChecksum]
  | rgnSet | pktNew | pktNewReply | pktWr8 | pktRd8 | pktFillI | pktFillU | pktFillN | pktGetOff | pktTlen | pktPayload
  | pktWhole => simp [encode, decode, decodePacket]
  | ipParse | ipSetTotLen | ipBswap | ipCsum | ipSetCsum | ipVerify | ipReply => simp [encode, decode, decodeIp]
  | ipVersion | ipHlen | ipDscp | ipTotLen | ipId | ipFlags | ipFragOff | ipRsv | ipDf | ipMf | ipTtl | ipProto | ipCkFld
  | ipSrc | ipDst => simp [encode, decode, decodeIp, formatFZeros, decodeIpField]
  | icmpParse | icmpBuild | icmpCsum | icmpSetCsum => simp [encode, decode, decodeIcmp]
  | icmpType | icmpCode | icmpCkFld => simp [encode, decode, decodeIcmp, formatFZeros, decodeIcmpField]
  | udpParse | udpBswap | udpReply | udpCsum | udpSetCsum => simp [encode, decode, decodeUdp]
  | udpSport | udpDport | udpLen | udpCkFld => simp [encode, decode, decodeUdp, formatFZeros, decodeUdpField]
  | sysRdcsr rd csr =>
    rw [Instr.wellFormed] at h
    simp [encode, decode, decodeSystem, h]

/-- A reserved CSR number is the only way to be ill-formed (rule R33). -/
theorem decode_encode_reservedCsr {i : Instr} (h : i.wellFormed = false) : decode (encode i) = .error .reservedCsr := by
  cases i with
  | sysRdcsr rd csr =>
    rw [Instr.wellFormed] at h
    simp [encode, decode, decodeSystem, h]
    rfl
  | _ => cases h

/-! ### A word that decodes is the command's word (rule R75) -/

theorem encode_of_decodeIpField {fld : BitVec 4} {rd : Reg} {l : Loc} {i : Instr} (h : decodeIpField fld rd l = .ok i) :
    i.wellFormed = true ∧ encode i = formatF 0x41 rd l.bits fld := by
  unfold decodeIpField at h
  split at h
  case h_16 => cases h
  all_goals
    rename_i hfld
    cases h
    exact ⟨rfl, congrArg (formatF 0x41 rd l.bits) (BitVec.eq_of_toNat_eq hfld.symm)⟩

theorem encode_of_decodeIcmpField {fld : BitVec 4} {rd : Reg} {l : Loc} {i : Instr}
    (h : decodeIcmpField fld rd l = .ok i) : i.wellFormed = true ∧ encode i = formatF 0x51 rd l.bits fld := by
  unfold decodeIcmpField at h
  split at h
  case h_4 => cases h
  all_goals
    rename_i hfld
    cases h
    exact ⟨rfl, congrArg (formatF 0x51 rd l.bits) (BitVec.eq_of_toNat_eq hfld.symm)⟩

theorem encode_of_decodeUdpField {fld : BitVec 4} {rd : Reg} {l : Loc} {i : Instr}
    (h : decodeUdpField fld rd l = .ok i) : i.wellFormed = true ∧ encode i = formatF 0x61 rd l.bits fld := by
  unfold decodeUdpField at h
  split at h
  case h_5 => cases h
  all_goals
    rename_i hfld
    cases h
    exact ⟨rfl, congrArg (formatF 0x61 rd l.bits) (BitVec.eq_of_toNat_eq hfld.symm)⟩

/-- An arm of format F, from what its field numbers stand for. -/
theorem encode_of_fieldArm {w : Word} {op : BitVec 8} {f : Loc → Except DecodeError Instr} {i : Instr}
    (hop : fieldOp w = op)
    (hf : ∀ l j, f l = .ok j → j.wellFormed = true ∧ encode j = formatF op (fieldRd w) l.bits (fieldFld w))
    (h : (do formatFZeros w; f (← locOfLoc (fieldLoc w))) = Except.ok i) : i.wellFormed = true ∧ encode i = w := by
  obtain ⟨hz, l, hl, hfield⟩ := fieldArm_eq_ok.1 h
  obtain ⟨hwf, henc⟩ := hf l i hfield
  exact ⟨hwf, henc.trans (formatF_eq_iff.2 (by simp [hop, hz, hl]))⟩

theorem encode_of_decodeRegister {w : Word} {i : Instr} (hhi : ((fieldOp w).extractLsb' 4 4).toNat = 1)
    (h : decodeRegister ((fieldOp w).extractLsb' 0 4) w = .ok i) : i.wellFormed = true ∧ encode i = w := by
  unfold decodeRegister at h
  split at h
  case h_5 => cases h
  all_goals
    rename_i hlo
    have hop := fieldOp_of_nibbles hhi hlo
    obtain ⟨hz, rfl⟩ := arm_eq_ok.1 h
    simp [Instr.wellFormed, encode, formatI_eq_iff, formatR_eq_iff, hop, hz]

theorem encode_of_decodeChecksum {w : Word} {i : Instr} (hhi : ((fieldOp w).extractLsb' 4 4).toNat = 2)
    (h : decodeChecksum ((fieldOp w).extractLsb' 0 4) w = .ok i) : i.wellFormed = true ∧ encode i = w := by
  unfold decodeChecksum at h
  split at h
  case h_4 => cases h
  all_goals
    rename_i hlo
    have hop := fieldOp_of_nibbles hhi hlo
    obtain ⟨hz, rfl⟩ := arm_eq_ok.1 h
    simp [Instr.wellFormed, encode, formatR_eq_iff, formatS_eq_iff, hop, hz]

theorem encode_of_decodePacket {w : Word} {i : Instr} (hhi : ((fieldOp w).extractLsb' 4 4).toNat = 3)
    (h : decodePacket ((fieldOp w).extractLsb' 0 4) w = .ok i) : i.wellFormed = true ∧ encode i = w := by
  unfold decodePacket at h
  split at h
  case h_13 => cases h
  case h_9 hlo =>
    have hop := fieldOp_of_nibbles hhi hlo
    obtain ⟨hz, h⟩ := mustBeZero_bind_eq_ok.1 h
    obtain ⟨p, hp, h⟩ := DecodeError.bind_eq_ok.1 h
    obtain ⟨j, hj, h⟩ := DecodeError.bind_eq_ok.1 h
    cases h
    simp [Instr.wellFormed, encode, formatS_eq_iff, hop, hz, bankOfLoc_eq_ok.1 hp, selOfJ_eq_ok.1 hj]
  all_goals
    rename_i hlo
    have hop := fieldOp_of_nibbles hhi hlo
    obtain ⟨hz, p, hp, rfl⟩ := bankArm_eq_ok.1 h
    simp [Instr.wellFormed, encode, formatS_eq_iff, hop, hz, hp]

theorem encode_of_decodeIp {w : Word} {i : Instr} (hhi : ((fieldOp w).extractLsb' 4 4).toNat = 4)
    (h : decodeIp ((fieldOp w).extractLsb' 0 4) w = .ok i) : i.wellFormed = true ∧ encode i = w := by
  unfold decodeIp at h
  split at h
  case h_9 => cases h
  case h_1 hlo =>
    have hop := fieldOp_of_nibbles hhi hlo
    obtain ⟨hz, p, hp, rfl⟩ := bankArm_eq_ok.1 h
    simp [Instr.wellFormed, encode, formatS_eq_iff, hop, hz, hp]
  case h_2 hlo => exact encode_of_fieldArm (fieldOp_of_nibbles hhi hlo) (fun _ _ => encode_of_decodeIpField) h
  all_goals
    rename_i hlo
    have hop := fieldOp_of_nibbles hhi hlo
    obtain ⟨hz, l, hl, rfl⟩ := locArm_eq_ok.1 h
    simp [Instr.wellFormed, encode, formatS_eq_iff, hop, hz, hl]

theorem encode_of_decodeIcmp {w : Word} {i : Instr} (hhi : ((fieldOp w).extractLsb' 4 4).toNat = 5)
    (h : decodeIcmp ((fieldOp w).extractLsb' 0 4) w = .ok i) : i.wellFormed = true ∧ encode i = w := by
  unfold decodeIcmp at h
  split at h
  case h_6 => cases h
  case h_1 hlo =>
    have hop := fieldOp_of_nibbles hhi hlo
    obtain ⟨hz, p, hp, rfl⟩ := bankArm_eq_ok.1 h
    simp [Instr.wellFormed, encode, formatS_eq_iff, hop, hz, hp]
  case h_2 hlo => exact encode_of_fieldArm (fieldOp_of_nibbles hhi hlo) (fun _ _ => encode_of_decodeIcmpField) h
  case h_3 hlo =>
    have hop := fieldOp_of_nibbles hhi hlo
    obtain ⟨hz, rfl⟩ := arm_eq_ok.1 h
    simp [Instr.wellFormed, encode, formatR_eq_iff, hop, hz]
  all_goals
    rename_i hlo
    have hop := fieldOp_of_nibbles hhi hlo
    obtain ⟨hz, l, hl, rfl⟩ := locArm_eq_ok.1 h
    simp [Instr.wellFormed, encode, formatS_eq_iff, hop, hz, hl]

theorem encode_of_decodeUdp {w : Word} {i : Instr} (hhi : ((fieldOp w).extractLsb' 4 4).toNat = 6)
    (h : decodeUdp ((fieldOp w).extractLsb' 0 4) w = .ok i) : i.wellFormed = true ∧ encode i = w := by
  unfold decodeUdp at h
  split at h
  case h_7 => cases h
  case h_1 hlo =>
    have hop := fieldOp_of_nibbles hhi hlo
    obtain ⟨hz, p, hp, rfl⟩ := bankArm_eq_ok.1 h
    simp [Instr.wellFormed, encode, formatS_eq_iff, hop, hz, hp]
  case h_2 hlo => exact encode_of_fieldArm (fieldOp_of_nibbles hhi hlo) (fun _ _ => encode_of_decodeUdpField) h
  all_goals
    rename_i hlo
    have hop := fieldOp_of_nibbles hhi hlo
    obtain ⟨hz, l, hl, rfl⟩ := locArm_eq_ok.1 h
    simp [Instr.wellFormed, encode, formatS_eq_iff, hop, hz, hl]

theorem encode_of_decodeSystem {w : Word} {i : Instr} (hhi : ((fieldOp w).extractLsb' 4 4).toNat = 7)
    (h : decodeSystem ((fieldOp w).extractLsb' 0 4) w = .ok i) : i.wellFormed = true ∧ encode i = w := by
  unfold decodeSystem at h
  split at h
  case h_2 => cases h
  case h_1 hlo =>
    have hop := fieldOp_of_nibbles hhi hlo
    obtain ⟨hz, h⟩ := mustBeZero_bind_eq_ok.1 h
    split at h
    · next hcsr =>
      cases h
      exact ⟨hcsr, formatF_eq_iff.2 (by simp [hop, hz])⟩
    · cases h

theorem encode_of_decode {w : Word} {i : Instr} (h : decode w = .ok i) : i.wellFormed = true ∧ encode i = w := by
  simp only [decode] at h
  split at h
  case h_1 hhi => exact encode_of_decodeRegister hhi h
  case h_2 hhi => exact encode_of_decodeChecksum hhi h
  case h_3 hhi => exact encode_of_decodePacket hhi h
  case h_4 hhi => exact encode_of_decodeIp hhi h
  case h_5 hhi => exact encode_of_decodeIcmp hhi h
  case h_6 hhi => exact encode_of_decodeUdp hhi h
  case h_7 hhi => exact encode_of_decodeSystem hhi h
  case h_8 => cases h

/-- Decoding and encoding are inverse to each other on the well-formed commands (rules R70, R75). -/
theorem decode_eq_ok_iff {w : Word} {i : Instr} : decode w = .ok i ↔ i.wellFormed = true ∧ encode i = w := by
  constructor
  · exact encode_of_decode
  · rintro ⟨hwf, rfl⟩; exact decode_encode hwf

/-- Settles O1: `decode_encode`, and the one ill-formed term. -/
theorem decodeOfEncode : Obligations.DecodeOfEncode :=
  fun _ => ⟨decode_encode, decode_encode_reservedCsr⟩

/-- Settles O2, decoder by decoder. -/
theorem encodeOfDecode : Obligations.EncodeOfDecode :=
  fun _ _ => encode_of_decode

/-- Settles O4: by `decode_eq_ok_iff` it is enough to encode the commands. -/
theorem decodeReadsWrittenWords : Obligations.DecodeReadsWrittenWords := by
  simp only [Obligations.DecodeReadsWrittenWords, decode_eq_ok_iff]
  decide

/-! ### A mask and a pattern, field by field (rule R78) -/

theorem extractLsb'_ofNat {n s l m : Nat} (h : s + l ≤ m) :
    (BitVec.ofNat m n).extractLsb' s l = BitVec.ofNat l (n >>> s) := by
  apply BitVec.eq_of_getLsbD_eq
  intro i hi
  have hlt : s + i < m := by omega
  rw [BitVec.getLsbD_extractLsb', BitVec.getLsbD_ofNat, BitVec.getLsbD_ofNat, Nat.testBit_shiftRight]
  simp [hi, hlt]

@[simp] theorem fieldOp_ofNat (n : Nat) : fieldOp (BitVec.ofNat 32 n) = BitVec.ofNat 8 (n >>> 24) :=
  extractLsb'_ofNat (by decide)
@[simp] theorem fieldRd_ofNat (n : Nat) : fieldRd (BitVec.ofNat 32 n) = BitVec.ofNat 4 (n >>> 20) :=
  extractLsb'_ofNat (by decide)
@[simp] theorem fieldRs1_ofNat (n : Nat) : fieldRs1 (BitVec.ofNat 32 n) = BitVec.ofNat 4 (n >>> 16) :=
  extractLsb'_ofNat (by decide)
@[simp] theorem fieldRs2_ofNat (n : Nat) : fieldRs2 (BitVec.ofNat 32 n) = BitVec.ofNat 4 (n >>> 12) :=
  extractLsb'_ofNat (by decide)
@[simp] theorem fieldRs3_ofNat (n : Nat) : fieldRs3 (BitVec.ofNat 32 n) = BitVec.ofNat 4 (n >>> 8) :=
  extractLsb'_ofNat (by decide)
@[simp] theorem fieldLoc_ofNat (n : Nat) : fieldLoc (BitVec.ofNat 32 n) = BitVec.ofNat 2 (n >>> 6) :=
  extractLsb'_ofNat (by decide)
@[simp] theorem fieldK_ofNat (n : Nat) : fieldK (BitVec.ofNat 32 n) = BitVec.ofNat 2 (n >>> 4) :=
  extractLsb'_ofNat (by decide)
@[simp] theorem fieldJ_ofNat (n : Nat) : fieldJ (BitVec.ofNat 32 n) = BitVec.ofNat 2 (n >>> 2) :=
  extractLsb'_ofNat (by decide)
@[simp] theorem fieldLow2_ofNat (n : Nat) : fieldLow2 (BitVec.ofNat 32 n) = BitVec.ofNat 2 n :=
  extractLsb'_ofNat (by decide)
@[simp] theorem fieldFld_ofNat (n : Nat) : fieldFld (BitVec.ofNat 32 n) = BitVec.ofNat 4 n :=
  extractLsb'_ofNat (by decide)
@[simp] theorem fieldLow8_ofNat (n : Nat) : fieldLow8 (BitVec.ofNat 32 n) = BitVec.ofNat 8 n :=
  extractLsb'_ofNat (by decide)

@[simp] theorem and_allOnes_4 (x : BitVec 4) : x &&& 15#4 = x := BitVec.and_allOnes
@[simp] theorem and_allOnes_8 (x : BitVec 8) : x &&& 255#8 = x := BitVec.and_allOnes
@[simp] theorem and_allOnes_2 (x : BitVec 2) : x &&& 3#2 = x := BitVec.and_allOnes

theorem fieldFld_and (a b : Word) : fieldFld (a &&& b) = fieldFld a &&& fieldFld b := BitVec.extractLsb'_and

theorem fieldLow8_and (a b : Word) : fieldLow8 (a &&& b) = fieldLow8 a &&& fieldLow8 b := BitVec.extractLsb'_and

/-- `w & mask = match`, read in every field of the formats R, S and F. -/
theorem fields_of_and {w m q : Word} (h : w &&& m = q) :
    fieldOp w &&& fieldOp m = fieldOp q ∧ fieldRd w &&& fieldRd m = fieldRd q ∧
    fieldRs1 w &&& fieldRs1 m = fieldRs1 q ∧ fieldRs2 w &&& fieldRs2 m = fieldRs2 q ∧
    fieldRs3 w &&& fieldRs3 m = fieldRs3 q ∧ fieldLoc w &&& fieldLoc m = fieldLoc q ∧
    fieldK w &&& fieldK m = fieldK q ∧ fieldJ w &&& fieldJ m = fieldJ q ∧
    fieldLow2 w &&& fieldLow2 m = fieldLow2 q ∧ fieldFld w &&& fieldFld m = fieldFld q ∧
    fieldLow8 w &&& fieldLow8 m = fieldLow8 q := by
  subst h
  simp [fieldFld_and, fieldLow8_and]

/-- A mask of packet commands covers bit 7, which leaves the two banks (rule R78). -/
theorem exists_bankOfLoc {b : BitVec 2} (h : b &&& 2#2 = 0#2) : ∃ p : BankId, bankOfLoc b = .ok p := by
  have : b = BankId.p0.bits ∨ b = BankId.p1.bits := by revert b; decide
  rcases this with rfl | rfl <;> exact ⟨_, bankOfLoc_bits _⟩

theorem exists_locOfLoc {b : BitVec 2} (h : (b != 3) = true) : ∃ l : Loc, locOfLoc b = .ok l := by
  have : b = (Loc.bank .p0).bits ∨ b = (Loc.bank .p1).bits ∨ b = Loc.stage.bits := by revert b; decide
  rcases this with rfl | rfl | rfl <;> exact ⟨_, locOfLoc_bits _⟩

theorem exists_selOfJ {b : BitVec 2} (h : (b != 3) = true) : ∃ j : OffSel, selOfJ b = .ok j := by
  have : b = OffSel.net.bits ∨ b = OffSel.trn.bits ∨ b = OffSel.pay.bits := by revert b; decide
  rcases this with rfl | rfl | rfl <;> exact ⟨_, selOfJ_bits _⟩

/-! ### A row admits the words of its commands, and no others (rule R78) -/

theorem admits_iff {r : OpcodeRow} {w : Word} : r.admits w = true ↔ w &&& r.mask = r.pattern ∧ r.constr.holds w = true := by
  simp [OpcodeRow.admits]

/-- A word that a row admits passes the tests of the decoder's arm, which gives a command of that row: a row
does not depend on the operands, which is each case's last step. The cases are grouped by the operands whose fields have
illegal values. -/
theorem decode_of_admits {i : Instr} {w : Word} (h : i.row.admits w = true) :
    ∃ j, decode w = .ok j ∧ j.row = i.row := by
  obtain ⟨hm, hc⟩ := admits_iff.1 h
  have hf := fields_of_and hm
  cases i with
  | li | lih | add | sub | csfold | csum | csum2 | icmpBuild =>
    simp [Instr.row] at hf
    simp [decode, decodeRegister, decodeChecksum, decodeIcmp, hf]
    rfl
  | rgnSet | pktNew | pktNewReply | pktWr8 | pktRd8 | pktFillI | pktFillU | pktFillN | pktTlen | pktPayload | pktWhole
  | ipParse | icmpParse | udpParse =>
    simp [Instr.row] at hf
    obtain ⟨p, hp⟩ := exists_bankOfLoc (b := fieldLoc w) (by simp [hf])
    simp [decode, decodePacket, decodeIp, decodeIcmp, decodeUdp, hf, hp]
    rfl
  | pktGetOff =>
    simp [Instr.row] at hf
    obtain ⟨p, hp⟩ := exists_bankOfLoc (b := fieldLoc w) (by simp [hf])
    obtain ⟨j, hj⟩ := exists_selOfJ hc
    simp [decode, decodePacket, hf, hp, hj]
    rfl
  | ipSetTotLen | ipBswap | ipCsum | ipSetCsum | ipVerify | ipReply | icmpCsum | icmpSetCsum | udpBswap | udpReply | udpCsum
  | udpSetCsum =>
    simp [Instr.row] at hf
    obtain ⟨l, hl⟩ := exists_locOfLoc hc
    simp [decode, decodeIp, decodeIcmp, decodeUdp, hf, hl]
    rfl
  | ipVersion | ipHlen | ipDscp | ipTotLen | ipId | ipFlags | ipFragOff | ipRsv | ipDf | ipMf | ipTtl | ipProto | ipCkFld
  | ipSrc | ipDst | icmpType | icmpCode | icmpCkFld | udpSport | udpDport | udpLen | udpCkFld =>
    simp [Instr.row] at hf
    obtain ⟨l, hl⟩ := exists_locOfLoc hc
    simp [decode, decodeIp, decodeIcmp, decodeUdp, formatFZeros, decodeIpField, decodeIcmpField, decodeUdpField, hf, hl]
    rfl
  | sysRdcsr =>
    simp [Instr.row] at hf
    have hcsr : csrNumberLegal (fieldFld w) = true := hc
    simp [decode, decodeSystem, hf, hcsr]
    rfl

/-- The 58 lemmas of the family `EncodeMatchesRow` as one. -/
theorem Laws.EncodeMatchesRow.all : ∀ i : Instr, Statement i
  | .li _ _ => li _ _
  | .lih _ _ => lih _ _
  | .add _ _ _ => add _ _ _
  | .sub _ _ _ => sub _ _ _
  | .csfold _ _ _ => csfold _ _ _
  | .csum _ _ _ => csum _ _ _
  | .csum2 _ _ _ _ => csum2 _ _ _ _
  | .rgnSet _ _ _ _ => rgnSet _ _ _ _
  | .pktNew _ _ => pktNew _ _
  | .pktNewReply _ _ => pktNewReply _ _
  | .pktWr8 _ _ _ => pktWr8 _ _ _
  | .pktRd8 _ _ _ => pktRd8 _ _ _
  | .pktFillI _ => pktFillI _
  | .pktFillU _ => pktFillU _
  | .pktFillN _ => pktFillN _
  | .pktGetOff _ _ _ => pktGetOff _ _ _
  | .pktTlen _ _ => pktTlen _ _
  | .pktPayload _ _ => pktPayload _ _
  | .pktWhole _ _ => pktWhole _ _
  | .ipParse _ => ipParse _
  | .ipVersion _ _ => ipVersion _ _
  | .ipHlen _ _ => ipHlen _ _
  | .ipDscp _ _ => ipDscp _ _
  | .ipTotLen _ _ => ipTotLen _ _
  | .ipId _ _ => ipId _ _
  | .ipFlags _ _ => ipFlags _ _
  | .ipFragOff _ _ => ipFragOff _ _
  | .ipRsv _ _ => ipRsv _ _
  | .ipDf _ _ => ipDf _ _
  | .ipMf _ _ => ipMf _ _
  | .ipTtl _ _ => ipTtl _ _
  | .ipProto _ _ => ipProto _ _
  | .ipCkFld _ _ => ipCkFld _ _
  | .ipSrc _ _ => ipSrc _ _
  | .ipDst _ _ => ipDst _ _
  | .ipSetTotLen _ _ => ipSetTotLen _ _
  | .ipBswap _ => ipBswap _
  | .ipCsum _ _ => ipCsum _ _
  | .ipSetCsum _ => ipSetCsum _
  | .ipVerify _ _ => ipVerify _ _
  | .ipReply _ => ipReply _
  | .icmpParse _ => icmpParse _
  | .icmpType _ _ => icmpType _ _
  | .icmpCode _ _ => icmpCode _ _
  | .icmpCkFld _ _ => icmpCkFld _ _
  | .icmpBuild _ _ => icmpBuild _ _
  | .icmpCsum _ _ _ => icmpCsum _ _ _
  | .icmpSetCsum _ _ => icmpSetCsum _ _
  | .udpParse _ => udpParse _
  | .udpSport _ _ => udpSport _ _
  | .udpDport _ _ => udpDport _ _
  | .udpLen _ _ => udpLen _ _
  | .udpCkFld _ _ => udpCkFld _ _
  | .udpBswap _ => udpBswap _
  | .udpReply _ => udpReply _
  | .udpCsum _ _ _ _ => udpCsum _ _ _ _
  | .udpSetCsum _ _ _ => udpSetCsum _ _ _
  | .sysRdcsr _ _ => sysRdcsr _ _

theorem row_admits_of_decode {w : Word} {i : Instr} (h : decode w = .ok i) : i.row.admits w = true := by
  obtain ⟨hwf, rfl⟩ := encode_of_decode h
  exact Laws.EncodeMatchesRow.all i hwf

/-! ### The table (rule R78) -/

/-- The table lists the rows in the order of the commands. -/
theorem opcodeTable_ctorIdx (i : Instr) : opcodeTable[i.ctorIdx]? = some i.row := by cases i <;> rfl

theorem row_mem_opcodeTable (i : Instr) : i.row ∈ opcodeTable := List.mem_of_getElem? (opcodeTable_ctorIdx i)

theorem exists_row_of_mem {r : OpcodeRow} (h : r ∈ opcodeTable) : ∃ i : Instr, i.row = r := by
  obtain ⟨i, -, hi⟩ := List.mem_map.1 h
  exact ⟨i, hi⟩

theorem admits_iff_decode {r : OpcodeRow} (hr : r ∈ opcodeTable) {w : Word} :
    r.admits w = true ↔ ∃ i, decode w = .ok i ∧ i.row = r := by
  constructor
  · intro h
    obtain ⟨i, rfl⟩ := exists_row_of_mem hr
    exact decode_of_admits h
  · rintro ⟨i, hi, rfl⟩
    exact row_admits_of_decode hi

/-- The rows are disjoint: a word decodes to one command, and a command has one row. -/
theorem eq_of_admits {r q : OpcodeRow} (hr : r ∈ opcodeTable) (hq : q ∈ opcodeTable) {w : Word} (hrw : r.admits w = true)
    (hqw : q.admits w = true) : r = q := by
  obtain ⟨i, hi, rfl⟩ := (admits_iff_decode hr).1 hrw
  obtain ⟨j, hj, rfl⟩ := (admits_iff_decode hq).1 hqw
  cases hi.symm.trans hj
  rfl

theorem legal_iff_decode {w : Word} : legal w = true ↔ ∃ i, decode w = .ok i := by
  unfold legal
  cases decode w <;> simp

theorem legal_iff_admits {w : Word} : legal w = true ↔ ∃ r ∈ opcodeTable, r.admits w = true := by
  rw [legal_iff_decode]
  constructor
  · rintro ⟨i, hi⟩
    exact ⟨i.row, row_mem_opcodeTable i, row_admits_of_decode hi⟩
  · rintro ⟨r, hr, h⟩
    obtain ⟨i, hi, -⟩ := (admits_iff_decode hr).1 h
    exact ⟨i, hi⟩

theorem illegal_iff_admits {w : Word} : legal w = false ↔ ∀ r ∈ opcodeTable, r.admits w = false := by
  rw [← Bool.not_eq_true, legal_iff_admits]
  simp

/-- Settles O3: the length and the mnemonics by evaluation, the rest from `admits_iff_decode`. -/
theorem decodeAgreesWithOpcodeTable : Obligations.DecodeAgreesWithOpcodeTable :=
  ⟨rfl, by decide, fun _ =>
    ⟨fun _ hr => admits_iff_decode hr, fun _ hr _ hq => eq_of_admits hr hq, illegal_iff_admits.symm⟩⟩

/-! ### The words rule R80 lists -/

/-- A word is illegal when every row fails it, by the mask or by the constraint. -/
theorem illegal_of_rows {w : Word}
    (h : ∀ r ∈ opcodeTable, w &&& r.mask = r.pattern → fieldOp r.pattern = fieldOp w → r.constr.holds w = false) :
    legal w = false := by
  have hop : ∀ r ∈ opcodeTable, fieldOp r.mask = 255#8 := by decide
  refine illegal_iff_admits.2 fun r hr => Bool.eq_false_iff.2 fun hw => ?_
  obtain ⟨hm, hc⟩ := admits_iff.1 hw
  have hrow : fieldOp r.pattern = fieldOp w := by rw [← hm, fieldOp_and, hop r hr, and_allOnes_8]
  simp [h r hr hm hrow] at hc

/-- A field number that no row of the word's opcode has. -/
theorem illegal_of_fld {w : Word}
    (h : ∀ r ∈ opcodeTable, fieldOp r.pattern = fieldOp w → fieldFld w &&& fieldFld r.mask ≠ fieldFld r.pattern) :
    legal w = false :=
  illegal_of_rows fun r hr hm hop => absurd ((fieldFld_and w r.mask).symm.trans (congrArg fieldFld hm)) (h r hr hop)

/-- A location that the masks of the word's opcode exclude, or that their constraints do. -/
theorem illegal_of_loc {w : Word}
    (h : ∀ r ∈ opcodeTable, fieldOp r.pattern = fieldOp w →
      fieldLoc w &&& fieldLoc r.mask ≠ fieldLoc r.pattern ∨ fieldLoc w = 3 ∧ r.constr = .locNot3) :
    legal w = false := by
  refine illegal_of_rows fun r hr hm hop => ?_
  rcases h r hr hop with hloc | ⟨hloc, hconstr⟩
  · exact absurd ((fieldLoc_and w r.mask).symm.trans (congrArg fieldLoc hm)) hloc
  · rw [hconstr, RowConstraint.holds, hloc]; rfl

theorem ipRow_rejects_fld : ∀ r ∈ opcodeTable, fieldOp r.pattern = 0x41 → 15 &&& fieldFld r.mask ≠ fieldFld r.pattern := by
  decide

theorem icmpRow_rejects_fld : ∀ r ∈ opcodeTable, fieldOp r.pattern = 0x51 →
    ∀ f : BitVec 4, 3 ≤ f.toNat → f &&& fieldFld r.mask ≠ fieldFld r.pattern := by
  decide

theorem udpRow_rejects_fld : ∀ r ∈ opcodeTable, fieldOp r.pattern = 0x61 →
    ∀ f : BitVec 4, 4 ≤ f.toNat → f &&& fieldFld r.mask ≠ fieldFld r.pattern := by
  decide

theorem rdcsrRow_constr : ∀ r ∈ opcodeTable, fieldOp r.pattern = 0x70 → r.constr = .csrAssigned := by decide

theorem getOffRow_constr : ∀ r ∈ opcodeTable, fieldOp r.pattern = 0x38 → r.constr = .jNot3 := by decide

/-- `ICMP.BUILD` (opcode 0x52) has no `loc` field. -/
theorem row_rejects_reservedLoc : ∀ r ∈ opcodeTable,
    0x30 ≤ (fieldOp r.pattern).toNat ∧ (fieldOp r.pattern).toNat ≠ 0x52 →
    3 &&& fieldLoc r.mask ≠ fieldLoc r.pattern ∨ r.constr = .locNot3 := by
  decide

theorem packetRow_rejects_stage : ∀ r ∈ opcodeTable,
    ((fieldOp r.pattern).extractLsb' 4 4 = 3 ∨ fieldOp r.pattern = 0x40 ∨ fieldOp r.pattern = 0x50 ∨
      fieldOp r.pattern = 0x60) →
    2 &&& fieldLoc r.mask ≠ fieldLoc r.pattern := by
  decide

theorem illegal_of_unassigned_op {w : Word} (h : ∀ r ∈ opcodeTable, fieldOp w ≠ fieldOp r.pattern) : legal w = false :=
  illegal_of_rows fun r hr _ hop => absurd hop.symm (h r hr)

theorem illegal_of_unmatched {w : Word}
    (h : ∀ r ∈ opcodeTable, fieldOp r.pattern = fieldOp w → w &&& r.mask ≠ r.pattern) : legal w = false :=
  illegal_of_rows fun r hr hm hop => absurd hm (h r hr hop)

theorem illegal_of_reserved_csr {w : Word} (hop : fieldOp w = 0x70)
    (hcsr : fieldFld w = 5 ∨ fieldFld w = 6 ∨ fieldFld w = 7) : legal w = false := by
  refine illegal_of_rows fun r hr _ hrow => ?_
  rw [rdcsrRow_constr r hr (hrow.trans hop), RowConstraint.holds]
  rcases hcsr with h | h | h <;> rw [h] <;> rfl

theorem illegal_of_reserved_sel {w : Word} (hop : fieldOp w = 0x38) (hj : fieldJ w = 3) : legal w = false := by
  refine illegal_of_rows fun r hr _ hrow => ?_
  rw [getOffRow_constr r hr (hrow.trans hop), RowConstraint.holds, hj]
  rfl

theorem illegal_of_reserved_loc {w : Word} (hop : 0x30 ≤ (fieldOp w).toNat ∧ (fieldOp w).toNat ≠ 0x52)
    (hloc : fieldLoc w = 3) : legal w = false :=
  illegal_of_loc fun r hr hrow => by
    have h := row_rejects_reservedLoc r hr (hrow.symm ▸ hop)
    rw [hloc]
    exact h.imp_right fun hconstr => ⟨rfl, hconstr⟩

theorem illegal_of_stage {w : Word}
    (hop : (fieldOp w).extractLsb' 4 4 = 3 ∨ fieldOp w = 0x40 ∨ fieldOp w = 0x50 ∨ fieldOp w = 0x60)
    (hloc : fieldLoc w = 2) : legal w = false :=
  illegal_of_loc fun r hr hrow => .inl (hloc.symm ▸ packetRow_rejects_stage r hr (hrow.symm ▸ hop))

end Sys2Proof

namespace Sys2Proof.Machine

/-! ### Executing an illegal word (rules R80, R227) -/

theorem step_of_illegal {s : State} {w : Word} {rest : List HostAction} (hw : legal w = false)
    (hs : s.host = .issue w :: rest) : step s = .next (s.present w rest).illegalWord := by
  cases hd : decode w with
  | ok i => simp [legal, hd] at hw
  | error e => exact (step_of_issue hs).trans (runWord_of_decode_error hd _)

theorem State.illegalWord_onlyFaults {s : State} (h : s.faulted = false) : s.OnlyFaults s.illegalWord .illegal := by
  rw [State.illegalWord, if_neg (by simp [h])]
  rfl

theorem State.illegalWord_onlyResponds {s : State} (h : s.faulted = true) :
    s.OnlyResponds s.illegalWord { status := .stFaulted, value := s.fsr } := by
  rw [State.illegalWord, if_pos h]
  rfl

/-- Settles O5, one lemma for each clause of rule R80, then the step. -/
theorem illegalWords : Obligations.IllegalWords := by
  refine ⟨fun w => ⟨illegal_iff_admits.symm, illegal_of_unassigned_op, fun _ _ _ => illegal_of_unmatched, ?_, ?_, ?_,
    fun ⟨hop, hcsr⟩ => illegal_of_reserved_csr hop hcsr, fun ⟨hop, hj⟩ => illegal_of_reserved_sel hop hj,
    fun ⟨hlow, hbuild, hloc⟩ => illegal_of_reserved_loc ⟨hlow, hbuild⟩ hloc, illegal_of_stage⟩, by decide, by decide, ?_⟩
  · rintro ⟨hop, hfld⟩
    exact illegal_of_fld fun r hr hrow => hfld.symm ▸ ipRow_rejects_fld r hr (hrow.trans hop)
  · rintro ⟨hop, hfld⟩
    exact illegal_of_fld fun r hr hrow => icmpRow_rejects_fld r hr (hrow.trans hop) _ hfld
  · rintro ⟨hop, hfld⟩
    exact illegal_of_fld fun r hr hrow => udpRow_rejects_fld r hr (hrow.trans hop) _ hfld
  · intro s w rest hw hs
    exact ⟨_, step_of_illegal hw hs, fun h => State.illegalWord_onlyFaults (s := s.present w rest) h,
      fun h => State.illegalWord_onlyResponds (s := s.present w rest) h⟩

end Sys2Proof.Machine
end

section
/-! PROOFS. Register set-up and address arithmetic (40_register_ops): the four commands complete in every state that is not
faulted, so each result is the arithmetic of the value they answer. -/

namespace Sys2Proof.Machine

/-- A command whose body cannot refuse answers its value, outside the faulted state. -/
theorem State.commandValue_answers {s : State} (h : s.faulted = false) (rd : Reg) (v : Word) :
    ∃ t, s.commandValue rd (.ok v) = .next t ∧ s.Answered t rd v :=
  ⟨_, State.commandValue_ok h rd v, s.answered rd v⟩

theorem State.regHalf_toNat (s : State) (r : Reg) : (s.regHalf r).toNat = (s.reg r).toNat % 2 ^ 16 := by
  simp [State.regHalf]

/-- Rule R91: the immediate in bits 31:16, above the half of a register that is kept. -/
theorem append_regHalf_eq_ofNat (imm16 : Half) (s : State) (r : Reg) :
    imm16 ++ s.regHalf r = BitVec.ofNat 32 (imm16.toNat * 2 ^ 16 + (s.reg r).toNat % 2 ^ 16) := by
  have happ : (imm16 ++ s.regHalf r).toNat = imm16.toNat * 2 ^ 16 + (s.reg r).toNat % 2 ^ 16 := by
    rw [BitVec.toNat_append, ← Nat.shiftLeft_add_eq_or_of_lt (s.regHalf r).isLt, Nat.shiftLeft_eq,
      State.regHalf_toNat]
  rw [← happ, BitVec.ofNat_toNat, BitVec.setWidth_eq]

/-- Rule R93: the difference of two words, without the borrow. -/
theorem sub_toNat (a b : Word) : (a - b).toNat = (a.toNat + 2 ^ 32 - b.toNat) % 2 ^ 32 := by
  have hb := b.isLt
  rw [BitVec.toNat_sub]
  omega

/-- Settles O24: all four complete, and their values as natural numbers. -/
theorem registerOperationResults : Obligations.RegisterOperationResults := by
  intro s rd rs1 rs2 imm16 hf
  refine ⟨?_, ?_, ?_, ?_⟩
  · rw [BitVec.ofNat_toNat]
    exact State.commandValue_answers hf rd (imm16.setWidth 32)
  · rw [← append_regHalf_eq_ofNat]
    exact State.commandValue_answers hf rd (imm16 ++ s.regHalf rd)
  · obtain ⟨t, ht, hans⟩ := State.commandValue_answers hf rd (s.reg rs1 + s.reg rs2)
    exact ⟨t, _, ht, hans, BitVec.toNat_add _ _⟩
  · obtain ⟨t, ht, hans⟩ := State.commandValue_answers hf rd (s.reg rs1 - s.reg rs2)
    exact ⟨t, _, ht, hans, sub_toNat _ _⟩

end Sys2Proof.Machine
end

section
/-! PROOFS. The checksum engine (41_checksum). The fold adds modulo 0xFFFF and keeps the two representatives of 0 apart: the
residue of an accumulator, and whether it is zero, determine it. Each law of rule R107 is shown on these two facts alone. -/

namespace Sys2Proof.Machine

/-! ### One step of the fold (rules R100, R107) -/

theorem half_eq_zero_iff (a : Half) : a = 0 ↔ a.toNat = 0 := BitVec.toNat_eq

theorem half_eq_ones_iff (a : Half) : a = 0xFFFF ↔ a.toNat = 0xFFFF := BitVec.toNat_eq

/-- Two halves are equal when they have the same residue modulo 0xFFFF and agree on being zero. -/
theorem half_eq_of_mod {a b : Half} (hz : a = 0 ↔ b = 0) (hmod : a.toNat % 0xFFFF = b.toNat % 0xFFFF) : a = b := by
  rw [half_eq_zero_iff, half_eq_zero_iff] at hz
  apply BitVec.eq_of_toNat_eq
  have ha := a.isLt
  have hb := b.isLt
  omega

theorem fold_eq_zero_iff (a v : Half) : fold a v = 0 ↔ a = 0 ∧ v = 0 := by
  simp only [half_eq_zero_iff, fold_toNat]
  split <;> omega

theorem fold_mod (a v : Half) : (fold a v).toNat % 0xFFFF = (a.toNat + v.toNat) % 0xFFFF := by
  rw [fold_toNat]
  split <;> omega

theorem fold_comm (a v : Half) : fold a v = fold v a :=
  half_eq_of_mod (by rw [fold_eq_zero_iff, fold_eq_zero_iff, and_comm]) (by rw [fold_mod, fold_mod, Nat.add_comm])

theorem fold_assoc (a v c : Half) : fold (fold a v) c = fold a (fold v c) := by
  apply half_eq_of_mod
  · simp only [fold_eq_zero_iff, and_assoc]
  · have hav := fold_mod a v
    have hvc := fold_mod v c
    rw [fold_mod, fold_mod]
    omega

theorem fold_zero (a : Half) : fold a 0 = a :=
  half_eq_of_mod ((fold_eq_zero_iff a 0).trans (and_iff_left rfl)) (fold_mod a 0)

/-- 0xFFFF is congruent to 0, so it changes no half but 0. -/
theorem fold_ones {v : Half} (h : 1 ≤ v.toNat) : fold 0xFFFF v = v := by
  apply half_eq_of_mod
  · rw [fold_eq_zero_iff, half_eq_zero_iff v]
    omega
  · rw [fold_mod]
    exact Nat.add_mod_left 0xFFFF v.toNat

/-- Settles O25. -/
theorem foldLaws : Obligations.FoldLaws := fun a v c =>
  ⟨fold_eq_zero_iff a v, fold_comm a v, fold_zero a, fold_ones, fold_zero 0xFFFF, fold_mod a v, fold_assoc a v c⟩

/-! ### The accumulator of a byte sequence (rules R101, R102, R107) -/

theorem foldl_fold_eq_zero_iff (ws : List Half) (acc : Half) :
    ws.foldl fold acc = 0 ↔ acc = 0 ∧ ∀ w ∈ ws, w = 0 := by
  induction ws generalizing acc with
  | nil => simp
  | cons w ws ih => simp only [List.foldl_cons, ih, fold_eq_zero_iff, and_assoc, List.forall_mem_cons]

theorem foldl_fold_mod (ws : List Half) (acc : Half) :
    (ws.foldl fold acc).toNat % 0xFFFF = (acc.toNat + (ws.map BitVec.toNat).sum) % 0xFFFF := by
  induction ws generalizing acc with
  | nil => simp
  | cons w ws ih =>
    have hstep := fold_mod acc w
    have hrest := ih (fold acc w)
    simp only [List.foldl_cons, List.map_cons, List.sum_cons]
    omega

theorem foldl_words_mod (bs : List Byte) (acc : Half) :
    ((words bs).foldl fold acc).toNat % 0xFFFF = (acc.toNat + wordSum bs) % 0xFFFF :=
  foldl_fold_mod (words bs) acc

theorem wordSum_eq_zero_iff (bs : List Byte) : wordSum bs = 0 ↔ ∀ w ∈ words bs, w = 0 := by
  simp [wordSum, List.sum_eq_zero_iff, BitVec.toNat_eq]

theorem foldl_words_eq_zero_iff (bs : List Byte) (acc : Half) :
    (words bs).foldl fold acc = 0 ↔ acc = 0 ∧ wordSum bs = 0 := by
  rw [foldl_fold_eq_zero_iff, wordSum_eq_zero_iff]

/-- A last odd byte is padded with a zero byte (rule R101), so writing the padding out changes no word. -/
theorem words_append_zero_of_odd (bs : List Byte) (h : bs.length % 2 = 1) : words (bs ++ [0]) = words bs := by
  match bs with
  | [] => simp at h
  | [b] => rfl
  | a :: b :: bs =>
    simp only [List.cons_append, words]
    rw [words_append_zero_of_odd bs (by simpa [Nat.add_assoc] using h)]

/-! ### The checksum (rules R102, R107) -/

theorem csum_nil (seed : Half) : csum [] seed = seed := BitVec.not_not

/-- What the accumulator starts at with seed 0. -/
theorem compl_zero_toNat : (~~~(0 : Half)).toNat = 0xFFFF := rfl

/-- With seed 0 the accumulator starts, and stays, above 0. -/
theorem csum_zero_ne_ones (bs : List Byte) : csum bs 0 ≠ 0xFFFF := by
  intro h
  have hacc : (words bs).foldl fold (~~~0) = 0 := BitVec.not_inj.mp h
  exact absurd ((foldl_words_eq_zero_iff bs _).mp hacc).1 (by decide)

/-- The checksum with seed 0 is the negative of the sum of the words. -/
theorem csum_zero_mod (bs : List Byte) : ((csum bs 0).toNat + wordSum bs) % 0xFFFF = 0 := by
  have hmod := foldl_words_mod bs (~~~0)
  have hlt := ((words bs).foldl fold (~~~0)).isLt
  rw [compl_zero_toNat] at hmod
  rw [csum_toNat]
  omega

theorem csum_zero_eq_zero_iff (bs : List Byte) : csum bs 0 = 0 ↔ wordSum bs % 0xFFFF = 0 := by
  have hmod := csum_zero_mod bs
  have hlt := (csum bs 0).isLt
  have hne := csum_zero_ne_ones bs
  rw [Ne, half_eq_ones_iff] at hne
  rw [half_eq_zero_iff]
  omega

/-- Settles O26, the laws in the order of the statement. -/
theorem checksumLaws : Obligations.ChecksumLaws := by
  refine ⟨?_, ?_, csum_nil, fun bs => ⟨csum_zero_ne_ones bs, csum_zero_eq_zero_iff bs⟩, ?_⟩
  · intro bs acc hacc
    exact ⟨fun h => hacc ((foldl_words_eq_zero_iff bs acc).mp h).1, foldl_words_mod bs acc⟩
  · intro bs
    exact (foldl_fold_eq_zero_iff (words bs) 0).trans (and_iff_right rfl)
  · intro bs seed hodd
    rw [csum, csum, words_append_zero_of_odd bs hodd]

/-! ### The stored checksum (rule R107, laws 8 and 9) -/

/-- Starting at the complement of a word of the sequence takes that word out of the sum. Neither accumulator is zero: the
first could only start there with the word 0xFFFF, which its own sum contains. -/
theorem csum_stored_eq_csum_zeroWordAt (bs : List Byte) (i : Nat) (h : 2 * i + 1 < bs.length) :
    csum bs (be16 (bs.getD (2 * i) 0) (bs.getD (2 * i + 1) 0)) = csum (zeroWordAt bs (2 * i)) 0 := by
  generalize hw : be16 (bs.getD (2 * i) 0) (bs.getD (2 * i + 1) 0) = w
  have hsum : wordSum (zeroWordAt bs (2 * i)) + w.toNat = wordSum bs := hw ▸ wordSum_zeroWordAt bs i h
  have hstart : (~~~w).toNat = 0xFFFF - w.toNat := BitVec.toNat_not
  have hlt := w.isLt
  refine congrArg (~~~·) (half_eq_of_mod ?_ ?_)
  · rw [foldl_words_eq_zero_iff, foldl_words_eq_zero_iff, half_eq_zero_iff, half_eq_zero_iff, hstart, compl_zero_toNat]
    omega
  · rw [foldl_words_mod, foldl_words_mod, hstart, compl_zero_toNat]
    omega

theorem csum_storeWordAt_eq_zero (bs : List Byte) (i : Nat) (h : 2 * i + 1 < bs.length) :
    csum (storeWordAt bs (2 * i) (csum (zeroWordAt bs (2 * i)) 0)) 0 = 0 := by
  rw [csum_zero_eq_zero_iff, wordSum_storeWordAt bs i _ h, Nat.add_comm]
  exact csum_zero_mod (zeroWordAt bs (2 * i))

/-- Settles O27. -/
theorem seedCancellation : Obligations.SeedCancellation := fun bs i h =>
  ⟨csum_stored_eq_csum_zeroWordAt bs i h, csum_storeWordAt_eq_zero bs i h⟩

/-! ### One changed byte (rule R107, law 10) -/

/-- One byte moves the sum of the words by at most 255 * 256, which is below 0xFFFF: never by a multiple of it. -/
theorem wordSum_set_mod_ne (bs : List Byte) (i : Nat) (b : Byte) (hi : i < bs.length) (hb : b ≠ bs.getD i 0) :
    wordSum (bs.set i b) % 0xFFFF ≠ wordSum bs % 0xFFFF := by
  have hset := wordSum_set bs i b hi
  have hnew := b.isLt
  have hold := (bs.getD i 0).isLt
  rw [Ne, BitVec.toNat_eq] at hb
  split at hset <;> omega

/-- Settles O28. -/
theorem singleByteCorruptionDetected : Obligations.SingleByteCorruptionDetected := by
  intro bs i b hi hb hok hbad
  rw [csum_zero_eq_zero_iff] at hok hbad
  exact wordSum_set_mod_ne bs i b hi hb (hbad.trans hok.symm)

/-! ### The commands (rules R104 to R106, R109) -/

theorem exec_csfold (s : State) (rd rs1 rs2 : Reg) :
    exec (.csfold rd rs1 rs2) s = s.commandValue rd (.ok ((fold (s.regHalf rs1) (s.regHalf rs2)).setWidth 32)) := rfl

theorem exec_csum (s : State) (rd rs3 : Reg) (k : RgnIdx) :
    exec (.csum rd rs3 k) s =
      s.commandValue rd (s.rgnBytes k >>= fun bs => .ok ((csum bs (s.regHalf rs3)).setWidth 32)) := rfl

theorem exec_csum2 (s : State) (rd rs3 : Reg) (k j : RgnIdx) :
    exec (.csum2 rd rs3 k j) s =
      s.commandValue rd (s.rgnBytes k >>= fun as => s.rgnBytes j >>= fun bs =>
        .ok ((csum (as ++ bs) (s.regHalf rs3)).setWidth 32)) := rfl

theorem exec_pktNewReply (s : State) (p : BankId) (k : RgnIdx) :
    exec (.pktNewReply p k) s =
      s.commandEffect (stopIf (s.cfg.headroom + (s.rgn k).len.toNat > s.cfg.pktCap) .noRoom >>= fun _ =>
        s.rgnBytes k >>= fun bs => .ok (s.setBank p (replyBank (s.bank p) s.cfg.headroom bs))) := rfl

theorem State.rgnBytes_of_fits {s : State} {k : RgnIdx} (h : s.RegionFits k) : s.rgnBytes k = .ok (s.regionBytes k) := by
  rw [State.rgnBytes_eq, if_pos h]

theorem State.rgnBytes_of_not_fits {s : State} {k : RgnIdx} (h : ¬s.RegionFits k) :
    s.rgnBytes k = .error (.raise .bounds) := by
  rw [State.rgnBytes_eq, if_neg h]

theorem State.commandValue_raise {s : State} (h : s.faulted = false) (rd : Reg) (c : Cause) :
    ∃ t, s.commandValue rd (.error (.raise c)) = .next t ∧ s.OnlyFaults t c :=
  ⟨_, State.commandValue_error h rd (.raise c), rfl⟩

theorem State.commandEffect_raise {s : State} (h : s.faulted = false) (c : Cause) :
    ∃ t, s.commandEffect (.error (.raise c)) = .next t ∧ s.OnlyFaults t c :=
  ⟨_, State.commandEffect_error h (.raise c), rfl⟩

/-- Rule R106: the pair of regions is read only when both fit; whichever fails first, the fault is the same. -/
theorem State.rgnBytes_pair_of_not_fits {s : State} {k j : RgnIdx} (h : ¬s.RegionFits k ∨ ¬s.RegionFits j)
    (f : List Byte → List Byte → Except Abort Word) :
    (s.rgnBytes k >>= fun as => s.rgnBytes j >>= f as) = .error (.raise .bounds) := by
  by_cases hk : s.RegionFits k
  · have hj : ¬s.RegionFits j := h.resolve_left (not_not_intro hk)
    rw [State.rgnBytes_of_fits hk, State.rgnBytes_of_not_fits hj, Abort.ok_bind, Abort.error_bind]
  · rw [State.rgnBytes_of_not_fits hk, Abort.error_bind]

/-! ### The obligations about the commands -/

/-- Settles O29. -/
theorem csfoldResult : Obligations.CsfoldResult := by
  intro s rd rs1 rs2 hf
  obtain ⟨t, ht, hans⟩ := State.commandValue_answers hf rd ((fold (s.regHalf rs1) (s.regHalf rs2)).setWidth 32)
  refine ⟨t, _, ht, hans, ?_⟩
  rw [BitVec.toNat_setWidth_of_le (by decide), fold_toNat, State.regHalf_toNat, State.regHalf_toNat]

/-- Settles O30. -/
theorem regionChecksums : Obligations.RegionChecksums := by
  intro s rd rs3 k j hf hk
  refine ⟨?_, fun hj => ?_⟩
  · rw [exec_csum, State.rgnBytes_of_fits hk]
    exact State.commandValue_answers hf rd ((csum (s.regionBytes k) (s.regHalf rs3)).setWidth 32)
  · rw [exec_csum2, State.rgnBytes_of_fits hk, State.rgnBytes_of_fits hj]
    exact State.commandValue_answers hf rd ((csum (s.regionBytes k ++ s.regionBytes j) (s.regHalf rs3)).setWidth 32)

/-- Settles O31: whatever the command goes on to do, reading the region ends it. -/
theorem regionBoundsFaults : Obligations.RegionBoundsFaults := by
  intro s rd rs3 k j p hf
  refine ⟨fun hk => ?_, fun hkj => ?_, fun hk hroom => ?_⟩
  · rw [exec_csum, State.rgnBytes_of_not_fits hk]
    exact State.commandValue_raise hf rd .bounds
  · rw [exec_csum2, State.rgnBytes_pair_of_not_fits hkj]
    exact State.commandValue_raise hf rd .bounds
  · rw [exec_pktNewReply, stopIf_neg _ (Nat.not_lt.mpr hroom), State.rgnBytes_of_not_fits hk]
    exact State.commandEffect_raise hf .bounds

end Sys2Proof.Machine
end

section
/-! PROOFS. Regions and the packet buffer (42_packet_buffer). Each command's meaning is written once as an ending of its rule's
pseudocode, each operation on a bank has one account of the bytes it leaves, and the results are put together from the two.
The memory frame is read off the same accounts, one shape of effect at a time. -/

namespace Sys2Proof.Machine

/-! ### How a packet command ends (rules R86, R222) -/

section
variable {s t : State} (hf : s.faulted = false)
include hf

theorem State.commandEffect_stNoRoom :
    ∃ t, s.commandEffect (.error .noRoom) = .next t ∧ s.OnlyResponds t { status := .stNoRoom, value := 0 } :=
  ⟨_, State.commandEffect_error hf .noRoom, rfl⟩

theorem State.commandEffect_setBank (p : BankId) (b : Bank) :
    ∃ t, s.commandEffect (.ok (s.setBank p b)) = .next t ∧ s.OnlyBank t p ∧ t.bank p = b :=
  ⟨_, State.commandEffect_ok hf _, s.onlyBank_setBank p b, s.setBank_bank_self p b⟩

theorem State.commandEffect_setRgn (k : RgnIdx) (r : Region) :
    ∃ t, s.commandEffect (.ok (s.setRgn k r)) = .next t ∧ s.OnlyRegion t k r :=
  ⟨_, State.commandEffect_ok hf _, rfl, fun j => s.setRgn_rgn k j r⟩

/-- The one state after a refusal or a fault. -/
theorem State.eq_of_commandEffect_error {a : Abort} (h : s.commandEffect (.error a) = .next t) : t = s.abort a :=
  (Host.Outcome.next.inj ((State.commandEffect_error hf a).symm.trans h)).symm

theorem State.eq_of_commandValue_error {rd : Reg} {a : Abort} (h : s.commandValue rd (.error a) = .next t) :
    t = s.abort a :=
  (Host.Outcome.next.inj ((State.commandValue_error hf rd a).symm.trans h)).symm

/-- The one state after an effect. -/
theorem State.eq_of_commandEffect_ok {u : State} (h : s.commandEffect (.ok u) = .next t) : t = u.reply .stOk 0 :=
  (Host.Outcome.next.inj ((State.commandEffect_ok hf u).symm.trans h)).symm

theorem State.answered_of_commandValue_ok {rd : Reg} {v : Word} (h : s.commandValue rd (.ok v) = .next t) :
    s.Answered t rd v := by
  rw [State.commandValue_ok hf] at h
  cases h
  exact s.answered rd v

end

/-! ### The meaning of each command, as pseudocode that ends it (rules R120 to R131) -/

theorem exec_rgnSet (s : State) (rs1 rs2 : Reg) (p : BankId) (k : RgnIdx) :
    exec (.rgnSet rs1 rs2 p k) s =
      s.commandEffect (.ok (s.setRgn k { bank := p, base := s.reg rs1, len := s.reg rs2 })) := rfl

theorem exec_pktNew (s : State) (rs1 : Reg) (p : BankId) :
    exec (.pktNew rs1 p) s =
      s.commandEffect (stopIf ((s.reg rs1).toNat > s.cfg.pktCap) .noRoom >>= fun _ =>
        .ok (s.setBank p (newBank (s.bank p) (s.reg rs1).toNat))) := rfl

theorem exec_pktWr8 (s : State) (rs1 rs2 : Reg) (p : BankId) :
    exec (.pktWr8 rs1 rs2 p) s =
      s.commandEffect (stopIf ((s.reg rs1).toNat ≥ (s.bank p).plen) (.raise .bounds) >>= fun _ =>
        .ok (s.storeWrite (.bank p) (s.reg rs1).toNat [s.regByte rs2])) := rfl

theorem exec_pktRd8 (s : State) (rd rs1 : Reg) (p : BankId) :
    exec (.pktRd8 rd rs1 p) s =
      s.commandValue rd (stopIf ((s.reg rs1).toNat ≥ (s.bank p).plen) (.raise .bounds) >>= fun _ =>
        .ok (((s.bank p).mem.read (s.reg rs1).toNat).setWidth 32)) := rfl

/-- Rules R125, R126: the two transport fills differ only in the staging register and the tag they take. -/
theorem exec_transportFill {s : State} {p : BankId} {i : Instr} {image : List Byte} {tag : Order}
    (h : (i = .pktFillI p ∧ image = s.hicmp.toList ∧ tag = .wire) ∨
      (i = .pktFillU p ∧ image = s.hudp.toList ∧ tag = s.hudpOrd)) :
    exec i s = s.commandEffect (fillTransportAt (s.bank p) image.length >>= fun t =>
      .ok (s.fillTransport p t image tag)) := by
  rcases h with ⟨rfl, rfl, rfl⟩ | ⟨rfl, rfl, rfl⟩
  · rw [Vector.length_toList]; rfl
  · rw [Vector.length_toList]; rfl

theorem exec_pktFillN (s : State) (p : BankId) :
    exec (.pktFillN p) s =
      s.commandEffect (fillNetworkAt (s.bank p) >>= fun t => .ok (s.fillNetwork p t s.hip.toList s.hipOrd)) := rfl

theorem exec_pktGetOff (s : State) (rd : Reg) (p : BankId) (j : OffSel) :
    exec (.pktGetOff rd p j) s =
      s.commandValue rd (needOffset (OffSel.offset j (s.bank p)) >>= fun o => .ok (BitVec.ofNat 32 o)) := rfl

theorem exec_pktTlen (s : State) (rd : Reg) (p : BankId) :
    exec (.pktTlen rd p) s =
      s.commandValue rd (needOffset (s.bank p).noff >>= fun no => .ok (BitVec.ofNat 32 ((s.bank p).plen - no))) := rfl

/-- Rules R130, R131: the two slices differ only in the offset they start from. -/
theorem exec_packetSlice {s : State} {p : BankId} {k : RgnIdx} {i : Instr} {off : Option Nat}
    (h : (i = .pktPayload p k ∧ off = (s.bank p).poff) ∨ (i = .pktWhole p k ∧ off = (s.bank p).noff)) :
    exec i s = s.commandEffect (needOffset off >>= fun o => .ok (s.setRgn k (sliceFrom p (s.bank p) o))) := by
  rcases h with ⟨rfl, rfl⟩ | ⟨rfl, rfl⟩ <;> rfl

/-! ### The bytes a packet operation leaves (rules R121, R122, R123) -/

/-- Rule R121: zeros below the new length. -/
theorem read_newBank (b : Bank) (n a : Nat) : (newBank b n).mem.read a = if a < n then 0 else b.mem.read a := by
  rw [newBank, Memory.read_clear]
  simp only [Nat.zero_le, true_and, Memory.unlisted]

/-- Rule R122: zeros in the headroom, then the payload. -/
theorem read_replyBank (b : Bank) (headroom : Nat) (bs : List Byte) (a : Nat) :
    (replyBank b headroom bs).mem.read a =
      if a < headroom then 0
      else if a < headroom + bs.length then bs.getD (a - headroom) 0 else b.mem.read a := by
  rw [replyBank, Memory.read_writeBytes, Memory.read_clear]
  by_cases h : a < headroom
  · rw [if_neg (by omega), if_pos ⟨Nat.zero_le a, h⟩, if_pos h]; rfl
  · simp only [h, Nat.le_of_not_lt h, Nat.zero_le, true_and, if_false]

theorem State.getD_regionBytes (s : State) (k : RgnIdx) {i : Nat} (h : i < (s.rgn k).len.toNat) :
    (s.regionBytes k).getD i 0 = (s.bank (s.rgn k).bank).mem.read ((s.rgn k).base.toNat + i) := by
  simp [State.regionBytes, h]

/-- Rule R123: one byte stored in a bank, at every index of every store. -/
theorem State.storeByte_writeByte (s : State) (p : BankId) (a : Nat) (b : Byte) (st : Store) (x : Nat) :
    (s.storeWrite (.bank p) a [b]).storeByte st x = if st = .bank p ∧ x = a then b else s.storeByte st x := by
  have hholds : (Store.bank p).Holds (a + [b].length) := trivial
  rw [State.storeByte_storeWrite s _ st a [b] x hholds, List.length_singleton]
  by_cases hx : x = a
  · subst hx; simp
  · rw [if_neg (by omega), if_neg fun h => hx h.2]

/-! ### Where a fill goes and when it is refused (rules R125 to R127) -/

theorem fillTransportAt_unset {b : Bank} (h : b.poff = none) (n : Nat) : fillTransportAt b n = .error .none := by
  simp only [fillTransportAt, h]

theorem fillTransportAt_noRoom {b : Bank} {n po : Nat} (h : b.poff = some po)
    (hroom : po < n ∨ ∃ no, b.noff = some no ∧ po - n < no) : fillTransportAt b n = .error .noRoom := by
  simp only [fillTransportAt, h]
  by_cases hlt : po < n
  · rw [stopIf_pos _ hlt, Abort.error_bind]
  · obtain ⟨no, hno, hover⟩ := hroom.resolve_left hlt
    rw [stopIf_neg _ hlt, Abort.ok_bind, stopIf_pos _ (by simpa [hno] using hover), Abort.error_bind]

theorem fillTransportAt_room {b : Bank} {n po : Nat} (h : b.poff = some po)
    (hroom : ¬(po < n ∨ ∃ no, b.noff = some no ∧ po - n < no)) : fillTransportAt b n = .ok (po - n) := by
  obtain ⟨hle, hno⟩ := not_or.mp hroom
  exact fillTransportAt_eq_ok.mpr
    ⟨po, h, Nat.le_of_not_lt hle, fun no hn => Nat.le_of_not_lt fun hlt => hno ⟨no, hn, hlt⟩, rfl⟩

theorem fillNetworkAt_unset {b : Bank} (h : b.toff = none) : fillNetworkAt b = .error .none := by
  simp only [fillNetworkAt, h]

theorem fillNetworkAt_noRoom {b : Bank} {off : Nat} (h : b.toff = some off) (hlt : off < 20) :
    fillNetworkAt b = .error .noRoom := by
  simp only [fillNetworkAt, h]
  rw [stopIf_pos _ (show off < Config.ipHdr from hlt), Abort.error_bind]

theorem fillNetworkAt_room {b : Bank} {off : Nat} (h : b.toff = some off) (hle : ¬off < 20) :
    fillNetworkAt b = .ok (off - 20) :=
  fillNetworkAt_eq_ok.mpr ⟨off, h, Nat.le_of_not_lt hle, rfl⟩

/-! ### The region from an offset to the packet's end (rules R130, R131) -/

theorem Bank.Ok.offsets_le {cap : Nat} {b : Bank} (h : b.Ok cap) {o : Nat} (ho : b.poff = some o ∨ b.noff = some o) :
    o ≤ b.plen := by
  obtain ⟨-, hn, -, hp, -⟩ := Bank.ok_iff.mp h
  exact ho.elim (hp o) (hn o)

/-- Below 2^32 neither number of the region wraps. -/
theorem sliceFrom_end (p : BankId) {b : Bank} {o : Nat} (ho : o ≤ b.plen) (hlen : b.plen < 2 ^ 32) :
    (sliceFrom p b o).base.toNat + (sliceFrom p b o).len.toNat = b.plen := by
  simp only [sliceFrom, BitVec.toNat_ofNat]
  rw [Nat.mod_eq_of_lt (by omega), Nat.mod_eq_of_lt (by omega)]
  omega

/-- Rule R109 of a region that ends at its packet's end, in a state with the same banks. -/
theorem State.OnlyRegion.fits {s t : State} {k : RgnIdx} {r : Region} (h : s.OnlyRegion t k r)
    (hend : r.base.toNat + r.len.toNat = (s.bank r.bank).plen) :
    t.RegionFits k ∧ (t.rgn k).base.toNat + (t.rgn k).len.toNat = (s.bank r.bank).plen := by
  obtain ⟨hsame, hrgn⟩ := h
  have hk : t.rgn k = r := (hrgn k).trans (if_pos rfl)
  have hbank : t.bank r.bank = s.bank r.bank := by rw [hsame]; cases r.bank <;> rfl
  rw [State.RegionFits, hk, hbank]
  exact ⟨Nat.le_of_eq hend, hend⟩

/-! ### The results of the commands -/

/-- Settles O32. -/
theorem regionSetResult : Obligations.RegionSetResult := by
  intro s rs1 rs2 p k hf
  rw [exec_rgnSet]
  exact State.commandEffect_setRgn hf k _

/-- Settles O33. -/
theorem packetNewResult : Obligations.PacketNewResult := by
  intro s rs1 p hf
  rw [exec_pktNew]
  refine ⟨fun hle => ?_, fun hgt => ?_⟩
  · rw [stopIf_neg _ (Nat.not_lt.mpr hle), Abort.ok_bind]
    obtain ⟨t, ht, hbank, hp⟩ := State.commandEffect_setBank hf p (newBank (s.bank p) (s.reg rs1).toNat)
    refine ⟨t, ht, hbank, ?_⟩
    rw [hp]
    exact ⟨rfl, read_newBank _ _⟩
  · rw [stopIf_pos _ hgt, Abort.error_bind]
    exact State.commandEffect_stNoRoom hf

/-- Settles O34: the payload is the list of the source's bytes before the command, whatever bank they come from. -/
theorem packetNewReplyResult : Obligations.PacketNewReplyResult := by
  intro s p k hf
  rw [exec_pktNewReply]
  refine ⟨fun hle hfits => ?_, fun hgt => ?_⟩
  · rw [stopIf_neg _ (Nat.not_lt.mpr hle), Abort.ok_bind, State.rgnBytes_of_fits hfits, Abort.ok_bind]
    obtain ⟨t, ht, hbank, hp⟩ :=
      State.commandEffect_setBank hf p (replyBank (s.bank p) s.cfg.headroom (s.regionBytes k))
    refine ⟨t, ht, hbank, ?_, fun a => ?_⟩
    · rw [hp, replyBank, State.length_regionBytes]
    · rw [hp, read_replyBank, State.length_regionBytes]
      by_cases hlow : a < s.cfg.headroom
      · rw [if_pos hlow, if_pos hlow]
      · by_cases hpay : a < s.cfg.headroom + (s.rgn k).len.toNat
        · rw [State.getD_regionBytes s k (by omega)]
        · simp only [hpay, if_false]
  · rw [stopIf_pos _ hgt, Abort.error_bind]
    exact State.commandEffect_stNoRoom hf

/-- Settles O35. -/
theorem packetByteAccess : Obligations.PacketByteAccess := by
  intro s rd rs1 rs2 p hf a
  rw [exec_pktWr8, exec_pktRd8]
  refine ⟨fun hlt => ?_, fun hge => ?_⟩
  · rw [stopIf_neg _ (Nat.not_le.mpr hlt), Abort.ok_bind, Abort.ok_bind]
    refine ⟨⟨_, State.commandEffect_ok hf _, s.onlyStores_storeWrite _ _ _, fun st x => ?_⟩, ?_⟩
    · rw [State.reply_storeByte, State.storeByte_writeByte]; rfl
    · rw [BitVec.ofNat_toNat]
      exact State.commandValue_answers hf rd _
  · rw [stopIf_pos _ hge, Abort.error_bind, Abort.error_bind]
    exact ⟨State.commandEffect_raise hf .bounds, State.commandValue_raise hf rd .bounds⟩

section
variable {s t : State} (hf : s.faulted = false)
include hf

/-- Rules R125 to R127, once there is room: the bank with an image of `n` bytes stored just before `hi`. -/
theorem State.filled_before {p : BankId} {b : Bank} {hi n : Nat} {image : List Byte} (hlen : image.length = n)
    (hle : n ≤ hi) (hb : b.mem = (s.bank p).mem.writeBytes (hi - n) image)
    (h : s.commandEffect (.ok (s.setBank p b)) = .next t) :
    s.OnlyBank t p ∧ t.bank p = b ∧
      ∀ a, (t.bank p).mem.read a =
        if hi - n ≤ a ∧ a < hi then image.getD (a - (hi - n)) 0 else (s.bank p).mem.read a := by
  have hbank : ((s.setBank p b).reply .stOk 0).bank p = b := s.setBank_bank_self p b
  rw [State.eq_of_commandEffect_ok hf h, hbank, hb]
  refine ⟨s.onlyBank_setBank p b, rfl, fun a => ?_⟩
  rw [Memory.read_writeBytes, hlen, Nat.sub_add_cancel hle]

/-- Rules R128, R129 on an unset offset. -/
theorem State.onlyResponds_of_unset {rd : Reg} {o : Option Nat} {f : Nat → Except Abort Word} (ho : o = none)
    (h : s.commandValue rd (needOffset o >>= f) = .next t) : s.OnlyResponds t { status := .stNone, value := 0 } := by
  rw [ho] at h
  exact State.eq_of_commandValue_error hf h

/-- Rules R128, R129 on an offset that is set. -/
theorem State.answered_of_set {rd : Reg} {o : Option Nat} {a : Nat} {f : Nat → Word} (ho : o = some a)
    (h : s.commandValue rd (needOffset o >>= fun a => .ok (f a)) = .next t) : s.Answered t rd (f a) := by
  rw [ho] at h
  exact State.answered_of_commandValue_ok hf h

end

/-- Settles O36: both fills are one fill of their image, and where it goes depends on the image's length only. -/
theorem transportFills : Obligations.TransportFills := by
  intro s p i image tag hf hi
  obtain ⟨t, ht⟩ := exec_next i s
  refine ⟨t, ht, ?_⟩
  rw [exec_transportFill hi] at ht
  split
  · next hpo =>
    rw [fillTransportAt_unset hpo] at ht
    exact State.eq_of_commandEffect_error hf ht
  · next po hpo =>
    split
    · next hroom =>
      rw [fillTransportAt_noRoom hpo hroom] at ht
      exact State.eq_of_commandEffect_error hf ht
    · next hroom =>
      rw [fillTransportAt_room hpo hroom] at ht
      have hle : image.length ≤ po := Nat.le_of_not_lt (not_or.mp hroom).1
      obtain ⟨hbank, hfields, hread⟩ := State.filled_before hf rfl hle rfl ht
      exact ⟨hbank, by rw [hfields], hread⟩

/-- Settles O37. -/
theorem networkFill : Obligations.NetworkFill := by
  intro s p hf
  obtain ⟨t, ht⟩ := exec_next (.pktFillN p) s
  refine ⟨t, ht, ?_⟩
  rw [exec_pktFillN] at ht
  split
  · next htoff =>
    rw [fillNetworkAt_unset htoff] at ht
    exact State.eq_of_commandEffect_error hf ht
  · next off htoff =>
    split
    · next hlt =>
      rw [fillNetworkAt_noRoom htoff hlt] at ht
      exact State.eq_of_commandEffect_error hf ht
    · next hle =>
      rw [fillNetworkAt_room htoff hle] at ht
      obtain ⟨hbank, hfields, hread⟩ :=
        State.filled_before hf (image := s.hip.toList) Vector.length_toList (Nat.le_of_not_lt hle) rfl ht
      exact ⟨hbank, by rw [hfields], hread⟩

/-- Settles O38: both reads need an offset, and answer a number computed from it. -/
theorem offsetReads : Obligations.OffsetReads := by
  intro s rd p j hf
  refine ⟨?_, ?_⟩
  · obtain ⟨t, ht⟩ := exec_next (.pktGetOff rd p j) s
    refine ⟨t, ht, ?_⟩
    rw [exec_pktGetOff] at ht
    split
    · next hunset => exact State.onlyResponds_of_unset hf (by cases j <;> exact hunset) ht
    · next o hset => exact State.answered_of_set hf (by cases j <;> exact hset) ht
  · obtain ⟨t, ht⟩ := exec_next (.pktTlen rd p) s
    refine ⟨t, ht, ?_⟩
    rw [exec_pktTlen] at ht
    split
    · next hunset => exact State.onlyResponds_of_unset hf hunset ht
    · next no hset => exact State.answered_of_set (f := fun no => BitVec.ofNat 32 ((s.bank p).plen - no)) hf hset ht

/-- Settles O39: both slices are the region from an offset, which rule R31 keeps at most `PLEN`, below 2^32. -/
theorem packetSlices : Obligations.PacketSlices := by
  intro s p k i off hf hi
  rw [exec_packetSlice hi]
  cases off with
  | none => exact ⟨_, State.commandEffect_error hf .none, rfl⟩
  | some o =>
    obtain ⟨t, ht, hregion⟩ := State.commandEffect_setRgn hf k (sliceFrom p (s.bank p) o)
    refine ⟨t, ht, hregion, fun hcfg hpackets => hregion.fits ?_⟩
    have hok := (State.packetsOk_iff s).mp hpackets p
    have ho : o ≤ (s.bank p).plen :=
      hok.offsets_le (hi.imp (fun h => h.2.symm) (fun h => h.2.symm))
    have hcap : (s.bank p).plen ≤ s.cfg.pktCap := hok.1
    have hbound : s.cfg.pktCap < 2 ^ 31 := hcfg.2.2
    exact sliceFrom_end p ho (by omega)

/-! ### The memory frame: what lies outside a span (rules R37, R66) -/

theorem Span.outside {q p : BankId} {lo n a : Nat} (h : Span.covers { bank := q, lo := lo, n := n } p a = false)
    (hp : p = q) : ¬(lo ≤ a ∧ a < lo + n) := by
  subst hp
  simpa only [Span.covers, true_and, decide_eq_false_iff_not] using h

/-- A byte of the banks after one bank is replaced by another that holds the byte there. -/
theorem State.read_setBank {s : State} {p q : BankId} {b : Bank} {a : Nat}
    (h : p = q → b.mem.read a = (s.bank q).mem.read a) :
    ((s.setBank q b).bank p).mem.read a = (s.bank p).mem.read a := by
  by_cases hpq : p = q
  · subst hpq; rw [State.setBank_bank_self]; exact h rfl
  · rw [State.setBank_bank_other _ _ hpq]

theorem Memory.read_writeBytes_other (m : Memory) {lo a : Nat} {bs : List Byte} (h : ¬(lo ≤ a ∧ a < lo + bs.length)) :
    (m.writeBytes lo bs).read a = m.read a := by
  rw [Memory.read_writeBytes, if_neg h]

theorem read_newBank_other (b : Bank) {n a : Nat} (h : ¬(0 ≤ a ∧ a < 0 + n)) :
    (newBank b n).mem.read a = b.mem.read a := by
  rw [read_newBank, if_neg (by omega)]

theorem read_replyBank_other (b : Bank) {headroom a : Nat} {bs : List Byte}
    (h : ¬(0 ≤ a ∧ a < 0 + (headroom + bs.length))) : (replyBank b headroom bs).mem.read a = b.mem.read a := by
  rw [read_replyBank, if_neg (by omega), if_neg (by omega)]

theorem mem_fillSpans (p : BankId) {target : Except Abort Nat} {t : Nat} (n : Nat) (h : target = .ok t) :
    { bank := p, lo := t, n := n } ∈ fillSpans p target n := by
  rw [h]; exact List.mem_singleton_self _

/-- Rules R125 to R127: a fill leaves every byte outside its span. -/
theorem State.read_fill_other {s : State} {p q : BankId} {b : Bank} {target : Except Abort Nat} {lo n a : Nat}
    {bs : List Byte} (hlo : target = .ok lo) (hb : b.mem = (s.bank q).mem.writeBytes lo bs) (hlen : bs.length = n)
    (hout : ∀ sp ∈ fillSpans q target n, sp.covers p a = false) :
    ((s.setBank q b).bank p).mem.read a = (s.bank p).mem.read a := by
  have hspan := hout _ (mem_fillSpans q n hlo)
  rw [← hlen] at hspan
  refine State.read_setBank fun hp => ?_
  rw [hb]
  exact Memory.read_writeBytes_other _ (Span.outside hspan hp)

section
variable {s : State} {kind : Kind} {loc : Loc} {v : View}

/-- A bank byte outside the spans of a header command is in none of the runs of its image. -/
theorem headerSpans_outside (hv : s.hv kind loc = .ok v) {spans : List (Nat × Nat)} {p : BankId} {a : Nat}
    (h : ∀ sp ∈ headerSpans s kind loc spans, sp.covers p a = false) {r : Nat × Nat} (hr : r ∈ spans) :
    ¬(Store.bank p = v.store ∧ v.off + r.1 ≤ a ∧ a < v.off + r.1 + r.2) := by
  rintro ⟨hst, hin⟩
  obtain rfl : loc = .bank p := Kind.storeAt_eq_bank ((State.hv_store hv).symm.trans hst.symm)
  have hmem : { bank := p, lo := v.off + r.1, n := r.2 } ∈ headerSpans s kind (.bank p) spans := by
    simp only [headerSpans, hv]
    exact List.mem_map.mpr ⟨r, hr, rfl⟩
  exact Span.outside (h _ hmem) rfl hin

/-- A store inside the fixed header leaves every byte outside it. -/
theorem State.storeByte_putBytes_other (hv : s.hv kind loc = .ok v) {i : Nat} {bs : List Byte}
    (hi : i + bs.length ≤ kind.minLen) {st : Store} {a : Nat}
    (h : ¬(st = v.store ∧ v.off + i ≤ a ∧ a < v.off + i + bs.length)) :
    (s.putBytes v i bs).storeByte st a = s.storeByte st a := by
  have hholds : v.store.Holds (v.off + i + bs.length) := by
    rw [Nat.add_assoc]; exact State.hv_holds hv hi
  rw [State.putBytes, State.storeByte_storeWrite _ _ _ _ _ _ hholds, if_neg h]

end

/-- Runs of the fixed header reversed one after the other leave every byte outside them. -/
theorem State.storeByte_reverseAll_other {kind : Kind} {loc : Loc} {v : View} {st : Store} {a : Nat}
    (runs : List (Nat × Nat)) (hruns : ∀ r ∈ runs, r.1 + r.2 ≤ kind.minLen)
    (h : ∀ r ∈ runs, ¬(st = v.store ∧ v.off + r.1 ≤ a ∧ a < v.off + r.1 + r.2)) {s : State}
    (hv : s.hv kind loc = .ok v) :
    (runs.foldl (fun u r => u.reverseAt v r.1 r.2) s).storeByte st a = s.storeByte st a := by
  induction runs generalizing s with
  | nil => rfl
  | cons r runs ih =>
    rw [List.forall_mem_cons] at hruns h
    rw [List.foldl_cons, ih hruns.2 h.2 ((State.hv_reverseAt ..).trans hv),
      State.storeByte_reverseAt hv r.1 r.2 hruns.1, if_neg h.1]

section
variable {s : State} {loc : Loc} {v : View} {p : BankId} {a : Nat}

/-- Rule R160: the six fields lie in two spans. -/
theorem State.read_ipReverseFields_other (hv : s.hv .ip loc = .ok v)
    (h : ∀ sp ∈ headerSpans s .ip loc [(2, 6), (10, 10)], sp.covers p a = false) :
    ((s.ipReverseFields v).bank p).mem.read a = (s.bank p).mem.read a := by
  have hlow := headerSpans_outside hv h (r := (2, 6)) (by decide)
  have hhigh := headerSpans_outside hv h (r := (10, 10)) (by decide)
  refine State.storeByte_reverseAll_other (st := .bank p) [(2, 2), (4, 2), (6, 2), (10, 2), (12, 4), (16, 4)]
    (by decide) ?_ hv
  rintro r hr ⟨hst, hin⟩
  simp only [hst, true_and] at hlow hhigh
  fin_cases hr <;> omega

/-- Rule R197: the four fields fill the header. -/
theorem State.read_udpReverseFields_other (hv : s.hv .udp loc = .ok v)
    (h : ∀ sp ∈ headerSpans s .udp loc [(0, 8)], sp.covers p a = false) :
    ((s.udpReverseFields v).bank p).mem.read a = (s.bank p).mem.read a := by
  have hall := headerSpans_outside hv h (r := (0, 8)) (by decide)
  refine State.storeByte_reverseAll_other (st := .bank p) [(0, 2), (2, 2), (4, 2), (6, 2)] (by decide) ?_ hv
  rintro r hr ⟨hst, hin⟩
  simp only [hst, true_and] at hall
  fin_cases hr <;> omega

end

/-- The memory frame of an effect: each shape's bytes change in its own span, and a parse or a region changes none. -/
theorem Effect.read_other {s u : State} {i : Instr} (h : Effect s i u) {p : BankId} {a : Nat}
    (hout : ∀ sp ∈ storeSpans i s, sp.covers p a = false) : (u.bank p).mem.read a = (s.bank p).mem.read a := by
  cases h with
  | region | ipReply | udpReply | icmpBuild => rfl
  | ipParse | icmpParse | udpParse => exact State.read_setBank fun _ => rfl
  | new rs1 q hn =>
    have hspan := hout _ List.mem_cons_self
    exact State.read_setBank fun hp => read_newBank_other _ (Span.outside hspan hp)
  | newReply q k hroom hfits =>
    have hspan := hout _ List.mem_cons_self
    refine State.read_setBank fun hp => read_replyBank_other _ ?_
    rw [State.length_regionBytes]
    exact Span.outside hspan hp
  | writeByte rs1 rs2 q hlt =>
    have hspan := hout _ List.mem_cons_self
    exact State.read_setBank fun hp => Memory.read_writeBytes_other _ (Span.outside hspan hp)
  | fillIcmp q lo hlo | fillUdp q lo hlo | fillIp q lo hlo =>
    exact State.read_fill_other hlo rfl Vector.length_toList hout
  | putPair _ kind loc v idx bs hv hi hb =>
    have hpair : storeSpans i s = headerSpans s kind loc [(idx, 2)] ∧ idx + 2 ≤ kind.minLen := by
      rcases hi with ⟨_, rfl, rfl, rfl⟩ | ⟨rfl, rfl, rfl⟩ | ⟨_, rfl, rfl, rfl⟩ | ⟨_, _, rfl, rfl, rfl⟩ <;>
        exact ⟨rfl, by decide⟩
    obtain ⟨hspans, hfits⟩ := hpair
    rw [hspans] at hout
    rw [← hb] at hfits hout
    exact State.storeByte_putBytes_other hv hfits (headerSpans_outside hv hout List.mem_cons_self)
  | ipBswap loc v hv =>
    exact (State.setNetOrder_storeByte _ loc _ (.bank p) a).trans (State.read_ipReverseFields_other hv hout)
  | udpBswap loc v hv =>
    exact (State.setTrnOrder_storeByte _ loc _ (.bank p) a).trans (State.read_udpReverseFields_other hv hout)

/-- Settles O20: a command that does not complete, or that answers a value, stores nothing; the others have an effect. -/
theorem memoryFrame : Obligations.MemoryFrame := by
  intro i s t h p a hout
  rcases exec_cases h with hstop | ⟨rd, v, -, rfl⟩ | ⟨-, u, hu, rfl⟩
  · obtain ⟨r, f, c, rfl⟩ := hstop.frame; rfl
  · rw [State.reply_bank, State.setReg_bank]
  · exact hu.read_other hout

end Sys2Proof.Machine
end

section
/-! PROOFS. The two byte swaps (43_ipv4, 45_udp, rules R160, R197). Both reverse a list of runs of their header and toggle its
tag, so both are one operation on a header of a kind, with one account of the bytes, the view and the tags it leaves. -/

namespace Sys2Proof.Machine

/-! ### A state with other bytes in its stores -/

/-- `u` is `s` with, at most, other bytes in the banks and the staging registers: `State.OnlyStores` before the response. -/
def State.BytesOnly (s u : State) : Prop :=
  ∃ m0 m1 hip hicmp hudp,
    u = { s with bank0 := { s.bank0 with mem := m0 }, bank1 := { s.bank1 with mem := m1 },
                 hip := hip, hicmp := hicmp, hudp := hudp }

theorem State.BytesOnly.refl (s : State) : s.BytesOnly s := ⟨_, _, _, _, _, rfl⟩

theorem State.BytesOnly.trans {s t u : State} (h : s.BytesOnly t) (h' : t.BytesOnly u) : s.BytesOnly u := by
  obtain ⟨_, _, _, _, _, rfl⟩ := h
  obtain ⟨_, _, _, _, _, rfl⟩ := h'
  exact ⟨_, _, _, _, _, rfl⟩

theorem State.BytesOnly.onlyStores {s u : State} (h : s.BytesOnly u) : s.OnlyStores (u.reply .stOk 0) := by
  obtain ⟨_, _, _, _, _, rfl⟩ := h
  rfl

theorem State.BytesOnly.tags {s u : State} (h : s.BytesOnly u) : u.tags = s.tags := by
  obtain ⟨_, _, _, _, _, rfl⟩ := h
  rfl

theorem State.BytesOnly.faulted {s u : State} (h : s.BytesOnly u) : u.faulted = s.faulted := by
  obtain ⟨_, _, _, _, _, rfl⟩ := h
  rfl

theorem State.bytesOnly_putBytes (s : State) (v : View) (i : Nat) (bs : List Byte) : s.BytesOnly (s.putBytes v i bs) := by
  rcases v with ⟨(_ | _) | _ | _ | _, _⟩ <;> exact ⟨_, _, _, _, _, rfl⟩

@[simp] theorem State.reply_hv (s : State) (st : Status) (x : Word) (kind : Kind) (loc : Loc) :
    (s.reply st x).hv kind loc = s.hv kind loc := by
  rcases loc with _ | _
  · rfl
  · cases kind <;> rfl

@[simp] theorem State.reply_byteAt (s : State) (st : Status) (x : Word) (v : View) (i : Nat) :
    (s.reply st x).byteAt v i = s.byteAt v i := rfl

/-! ### The order tag of a header (rules R160, R197) -/

/-- Set the tag of a header image that a byte swap toggles. No command swaps an ICMP header. -/
def State.setOrder (s : State) (kind : Kind) (loc : Loc) (o : Order) : State :=
  match kind with
  | .ip => s.setNetOrder loc o
  | .udp => s.setTrnOrder loc o
  | .icmp => s

@[simp] theorem State.setOrder_storeByte (s : State) (kind : Kind) (loc : Loc) (o : Order) (st : Store) (a : Nat) :
    (s.setOrder kind loc o).storeByte st a = s.storeByte st a := by
  cases kind with
  | ip => exact s.setNetOrder_storeByte loc o st a
  | udp => exact s.setTrnOrder_storeByte loc o st a
  | icmp => rfl

@[simp] theorem State.setOrder_faulted (s : State) (kind : Kind) (loc : Loc) (o : Order) :
    (s.setOrder kind loc o).faulted = s.faulted := by
  cases kind with
  | ip => exact s.setNetOrder_faulted loc o
  | udp => exact s.setTrnOrder_faulted loc o
  | icmp => rfl

theorem State.setOrder_reply (s : State) (kind : Kind) (loc : Loc) (o : Order) (st : Status) (x : Word) :
    (s.reply st x).setOrder kind loc o = (s.setOrder kind loc o).reply st x := by
  rcases loc with (_ | _) | _ <;> cases kind <;> rfl

theorem State.setOrder_setOrder (s : State) (kind : Kind) (loc : Loc) (o o' : Order) :
    (s.setOrder kind loc o).setOrder kind loc o' = s.setOrder kind loc o' := by
  rcases loc with (_ | _) | _ <;> cases kind <;> rfl

/-- Setting the tag that a view already has changes nothing. -/
theorem State.setOrder_self {s : State} {kind : Kind} {loc : Loc} {v : View} (hv : s.hv kind loc = .ok v) :
    s.setOrder kind loc v.ord = s := by
  rcases loc with p | _
  · obtain ⟨off, -, -, rfl⟩ := State.hv_bank hv
    cases p <;> cases kind <;> rfl
  · cases hv
    cases kind <;> rfl

theorem State.hv_setOrder {s : State} {kind : Kind} {loc : Loc} {v : View} (hk : kind ≠ .icmp) (o : Order)
    (hv : s.hv kind loc = .ok v) : (s.setOrder kind loc o).hv kind loc = .ok { v with ord := o } := by
  cases kind with
  | ip => exact State.hv_setNetOrder o hv
  | udp => exact State.hv_setTrnOrder o hv
  | icmp => exact absurd rfl hk

theorem State.BytesOnly.setOrder {s u : State} (h : s.BytesOnly u) (kind : Kind) (loc : Loc) (o : Order) :
    (s.setOrder kind loc o).BytesOnly (u.setOrder kind loc o) := by
  obtain ⟨_, _, _, _, _, rfl⟩ := h
  rcases loc with (_ | _) | _ <;> cases kind <;> exact ⟨_, _, _, _, _, rfl⟩

@[simp] theorem Order.toggle_toggle (o : Order) : o.toggle.toggle = o := by cases o <;> rfl

theorem decode16_toggle (o : Order) (b0 b1 : Byte) : decode16 o.toggle b0 b1 = decode16 o b1 b0 := by cases o <;> rfl

theorem decode32_toggle (o : Order) (b0 b1 b2 b3 : Byte) : decode32 o.toggle b0 b1 b2 b3 = decode32 o b3 b2 b1 b0 := by
  cases o <;> rfl

/-! ### Runs of a header reversed one after the other -/

/-- Where the byte at index `j` of an image comes from when the run `r` (index, count) is reversed. -/
def reversedIndex (r : Nat × Nat) (j : Nat) : Nat :=
  if r.1 ≤ j ∧ j < r.1 + r.2 then r.1 + (r.2 - 1 - (j - r.1)) else j

/-- Each run reversed in place, the first run first. -/
def State.reverseAll (s : State) (v : View) (runs : List (Nat × Nat)) : State :=
  runs.foldl (fun u r => u.reverseAt v r.1 r.2) s

theorem State.reverseAll_cons (s : State) (v : View) (r : Nat × Nat) (runs : List (Nat × Nat)) :
    s.reverseAll v (r :: runs) = (s.reverseAt v r.1 r.2).reverseAll v runs := rfl

theorem State.bytesOnly_reverseAll (s : State) (v : View) (runs : List (Nat × Nat)) : s.BytesOnly (s.reverseAll v runs) := by
  induction runs generalizing s with
  | nil => exact .refl s
  | cons r runs ih => exact (s.bytesOnly_putBytes v r.1 _).trans (ih _)

theorem State.hv_reverseAll (s : State) (v : View) (runs : List (Nat × Nat)) (kind : Kind) (loc : Loc) :
    (s.reverseAll v runs).hv kind loc = s.hv kind loc := by
  induction runs generalizing s with
  | nil => rfl
  | cons r runs ih => exact (ih _).trans (s.hv_reverseAt v r.1 r.2 kind loc)

section
variable {s : State} {kind : Kind} {loc : Loc} {v : View}

theorem State.byteAt_reverseAt (hv : s.hv kind loc = .ok v) (r : Nat × Nat) (hr : r.1 + r.2 ≤ kind.minLen) (j : Nat) :
    (s.reverseAt v r.1 r.2).byteAt v j = s.byteAt v (reversedIndex r j) := by
  rw [State.byteAt, State.storeByte_reverseAt hv r.1 r.2 hr, reversedIndex]
  by_cases h : r.1 ≤ j ∧ j < r.1 + r.2
  · rw [if_pos h, if_pos ⟨rfl, by omega⟩, Nat.add_sub_add_left]
  · rw [if_neg h, if_neg (by omega)]; rfl

/-- The last run reversed is the first one to look a byte up through. -/
theorem State.byteAt_reverseAll (runs : List (Nat × Nat)) (hruns : ∀ r ∈ runs, r.1 + r.2 ≤ kind.minLen)
    (hv : s.hv kind loc = .ok v) (j : Nat) :
    (s.reverseAll v runs).byteAt v j = s.byteAt v (runs.foldr reversedIndex j) := by
  induction runs generalizing s with
  | nil => rfl
  | cons r runs ih =>
    rw [List.forall_mem_cons] at hruns
    rw [State.reverseAll_cons, ih hruns.2 ((State.hv_reverseAt ..).trans hv), State.byteAt_reverseAt hv r hruns.1]
    rfl

/-- Every byte of every store after runs of the fixed header are reversed. -/
theorem State.storeByte_reverseAll (runs : List (Nat × Nat)) (hruns : ∀ r ∈ runs, r.1 + r.2 ≤ kind.minLen)
    (hv : s.hv kind loc = .ok v) (st : Store) (a : Nat) :
    (s.reverseAll v runs).storeByte st a =
      if st = v.store ∧ v.off ≤ a ∧ a < v.off + kind.minLen then s.byteAt v (runs.foldr reversedIndex (a - v.off))
      else s.storeByte st a := by
  by_cases h : st = v.store ∧ v.off ≤ a ∧ a < v.off + kind.minLen
  · rw [if_pos h, ← State.byteAt_reverseAll runs hruns hv, State.byteAt, Nat.add_sub_cancel' h.2.1, h.1]
  · rw [if_neg h]
    refine State.storeByte_reverseAll_other runs hruns (fun r hr hin => h ⟨hin.1, ?_⟩) hv
    have := hruns r hr
    omega

end

/-! ### A header swapped (rules R160, R197) -/

/-- The multi-byte fields of a header that a byte swap reverses, as (index, count) runs. No command swaps an ICMP header. -/
def Kind.swapRuns : Kind → List (Nat × Nat)
  | .ip => [(2, 2), (4, 2), (6, 2), (10, 2), (12, 4), (16, 4)]
  | .udp => [(0, 2), (2, 2), (4, 2), (6, 2)]
  | .icmp => []

/-- Where each byte of a swapped header comes from. -/
def Kind.swapIndex (kind : Kind) (j : Nat) : Nat := kind.swapRuns.foldr reversedIndex j

theorem Kind.swapRuns_fit (kind : Kind) : ∀ r ∈ kind.swapRuns, r.1 + r.2 ≤ kind.minLen := by cases kind <;> decide

/-- A run reversed twice is the run. -/
theorem Kind.swapIndex_swapIndex (kind : Kind) : ∀ j < kind.minLen, kind.swapIndex (kind.swapIndex j) = j := by
  cases kind <;> decide

theorem Kind.swapIndex_ip : ∀ j < 20, Kind.ip.swapIndex j = ipSwapIndex j := by decide

theorem Kind.swapIndex_udp : ∀ j < 8, Kind.udp.swapIndex j = udpSwapIndex j := by decide

/-- What a byte swap does to the header `v` of its kind: the fields reversed and the tag toggled. -/
def State.swapHeader (s : State) (kind : Kind) (loc : Loc) (v : View) : State :=
  (s.reverseAll v kind.swapRuns).setOrder kind loc v.ord.toggle

section
variable {s : State} {kind : Kind} {loc : Loc} {v : View}

theorem State.bytesOnly_swapHeader (s : State) (kind : Kind) (loc : Loc) (v : View) :
    (s.setOrder kind loc v.ord.toggle).BytesOnly (s.swapHeader kind loc v) :=
  (s.bytesOnly_reverseAll v kind.swapRuns).setOrder kind loc v.ord.toggle

@[simp] theorem State.swapHeader_faulted (s : State) (kind : Kind) (loc : Loc) (v : View) :
    (s.swapHeader kind loc v).faulted = s.faulted := by
  rw [(s.bytesOnly_swapHeader kind loc v).faulted, State.setOrder_faulted]

theorem State.hv_swapHeader (hk : kind ≠ .icmp) (hv : s.hv kind loc = .ok v) :
    (s.swapHeader kind loc v).hv kind loc = .ok { v with ord := v.ord.toggle } :=
  State.hv_setOrder hk _ ((State.hv_reverseAll ..).trans hv)

theorem State.storeByte_swapHeader (hv : s.hv kind loc = .ok v) (st : Store) (a : Nat) :
    (s.swapHeader kind loc v).storeByte st a =
      if st = v.store ∧ v.off ≤ a ∧ a < v.off + kind.minLen then s.byteAt v (kind.swapIndex (a - v.off))
      else s.storeByte st a :=
  (State.setOrder_storeByte ..).trans (State.storeByte_reverseAll _ kind.swapRuns_fit hv st a)

/-- A byte of the image is read alike whatever the tag of the view. -/
theorem State.byteAt_swapHeader (hv : s.hv kind loc = .ok v) (o : Order) (j : Nat) :
    (s.swapHeader kind loc v).byteAt { v with ord := o } j = s.byteAt v (kind.swapIndex j) :=
  (State.setOrder_storeByte ..).trans (State.byteAt_reverseAll _ kind.swapRuns_fit hv j)

/-- A reversed 16-bit field under the other tag is the same number. -/
theorem State.fld16_swapHeader (hv : s.hv kind loc = .ok v) {n : Nat}
    (h : kind.swapIndex n = n + 1 ∧ kind.swapIndex (n + 1) = n) :
    (s.swapHeader kind loc v).fld16 { v with ord := v.ord.toggle } n = s.fld16 v n := by
  obtain ⟨h0, h1⟩ := h
  rw [State.fld16, State.byteAt_swapHeader hv, State.byteAt_swapHeader hv, h0, h1, decode16_toggle, State.fld16]

/-- A reversed 32-bit field under the other tag is the same number. -/
theorem State.fld32_swapHeader (hv : s.hv kind loc = .ok v) {n : Nat}
    (h : kind.swapIndex n = n + 3 ∧ kind.swapIndex (n + 1) = n + 2 ∧ kind.swapIndex (n + 2) = n + 1 ∧
      kind.swapIndex (n + 3) = n) :
    (s.swapHeader kind loc v).fld32 { v with ord := v.ord.toggle } n = s.fld32 v n := by
  obtain ⟨h0, h1, h2, h3⟩ := h
  simp only [State.fld32, State.byteAt_swapHeader hv, h0, h1, h2, h3, decode32_toggle]

/-- Both byte swaps are the swap of the header of their kind. -/
theorem exec_bswap {i : Instr} (s : State) (hi : (kind = .ip ∧ i = .ipBswap loc) ∨ (kind = .udp ∧ i = .udpBswap loc)) :
    exec i s = s.commandEffect (s.hv kind loc >>= fun v => .ok (s.swapHeader kind loc v)) := by
  rcases hi with ⟨rfl, rfl⟩ | ⟨rfl, rfl⟩ <;> rfl

/-! ### Two swaps in a row -/

/-- The response lies between the two swaps; no byte, tag or view depends on it. -/
theorem State.storeByte_swapHeader_twice (hk : kind ≠ .icmp) (hv : s.hv kind loc = .ok v) (st : Store) (a : Nat) :
    (((s.swapHeader kind loc v).reply .stOk 0).swapHeader kind loc { v with ord := v.ord.toggle }).storeByte st a =
      s.storeByte st a := by
  have hv' := (State.reply_hv _ .stOk 0 kind loc).trans (State.hv_swapHeader hk hv)
  rw [State.storeByte_swapHeader hv']
  by_cases h : st = v.store ∧ v.off ≤ a ∧ a < v.off + kind.minLen
  · have hj : a - v.off < kind.minLen := by omega
    rw [if_pos h]
    calc (s.swapHeader kind loc v).byteAt v (kind.swapIndex (a - v.off))
        = s.byteAt v (kind.swapIndex (kind.swapIndex (a - v.off))) := State.byteAt_swapHeader hv v.ord _
      _ = s.byteAt v (a - v.off) := by rw [kind.swapIndex_swapIndex _ hj]
      _ = s.storeByte st a := by rw [State.byteAt, Nat.add_sub_cancel' h.2.1, h.1]
  · rw [if_neg h, State.reply_storeByte, State.storeByte_swapHeader hv, if_neg h]

theorem State.tags_swapHeader_twice (hv : s.hv kind loc = .ok v) :
    (((s.swapHeader kind loc v).reply .stOk 0).swapHeader kind loc { v with ord := v.ord.toggle }).tags = s.tags := by
  have hself : (s.reverseAll v kind.swapRuns).setOrder kind loc v.ord = s.reverseAll v kind.swapRuns :=
    State.setOrder_self ((State.hv_reverseAll ..).trans hv)
  rw [(State.bytesOnly_swapHeader ..).tags, Order.toggle_toggle, State.setOrder_reply, State.swapHeader,
    State.setOrder_setOrder, hself]
  exact (s.bytesOnly_reverseAll v kind.swapRuns).tags

end

/-! ### The results of the byte swaps -/

/-- Settles O47: the swap of an IPv4 header, byte by byte. -/
theorem ipBswapResult : Obligations.IpBswapResult := by
  intro s loc v hf hv
  refine ⟨(s.swapHeader .ip loc v).reply .stOk 0, ?_, (s.bytesOnly_swapHeader .ip loc v).onlyStores,
    ⟨_, (State.reply_hv ..).trans (State.hv_swapHeader nofun hv), rfl⟩, fun st a => ?_⟩
  · rw [exec_bswap s (.inl ⟨rfl, rfl⟩), hv]
    exact State.commandEffect_ok hf _
  · rw [State.reply_storeByte, State.storeByte_swapHeader hv, show Kind.ip.minLen = 20 from rfl]
    split
    · next h => rw [Kind.swapIndex_ip _ (by omega)]
    · rfl

/-- Settles O56: the second swap takes every byte from where the first one put it, and toggles the tag back. -/
theorem bswapTwice : Obligations.BswapTwice := by
  intro s t u loc kind i v v' hf hi hv hst htu hv'
  have hk : kind ≠ .icmp := by rcases hi with ⟨rfl, -⟩ | ⟨rfl, -⟩ <;> decide
  rw [exec_bswap s hi, hv] at hst
  obtain rfl : t = (s.swapHeader kind loc v).reply .stOk 0 := State.eq_of_commandEffect_ok hf hst
  have hview := (State.reply_hv _ .stOk 0 kind loc).trans (State.hv_swapHeader hk hv)
  have hft : ((s.swapHeader kind loc v).reply .stOk 0).faulted = false := (State.swapHeader_faulted ..).trans hf
  obtain rfl : v' = { v with ord := v.ord.toggle } := Except.ok.inj (hv'.symm.trans hview)
  rw [exec_bswap _ hi, hview] at htu
  obtain rfl := State.eq_of_commandEffect_ok hft htu
  refine ⟨State.storeByte_swapHeader_twice hk hv, State.tags_swapHeader_twice hv, ?_, ?_, ?_⟩
  · rw [State.reply_hv, State.hv_swapHeader hk hview, Order.toggle_toggle]
  · rintro rfl
    have hhalves : ∀ n ∈ [2, 4, 6, 10], Kind.ip.swapIndex n = n + 1 ∧ Kind.ip.swapIndex (n + 1) = n := by decide
    have hwords : ∀ n ∈ [12, 16], Kind.ip.swapIndex n = n + 3 ∧ Kind.ip.swapIndex (n + 1) = n + 2 ∧
        Kind.ip.swapIndex (n + 2) = n + 1 ∧ Kind.ip.swapIndex (n + 3) = n := by decide
    exact ⟨fun n hn => State.fld16_swapHeader hv (hhalves n hn), fun n hn => State.fld32_swapHeader hv (hwords n hn)⟩
  · rintro rfl
    have hhalves : ∀ n ∈ [0, 2, 4, 6], Kind.udp.swapIndex n = n + 1 ∧ Kind.udp.swapIndex (n + 1) = n := by decide
    exact fun n hn => State.fld16_swapHeader hv (hhalves n hn)

end Sys2Proof.Machine
end

section
/-! PROOFS. The IPv4 header parser (43_ipv4). Each group of commands has one lemma for how it ends once its view resolves; the
fields are numbers of their bytes, and the checksum of an image is law 8 of rule R107 on the list of its bytes. -/

namespace Sys2Proof.Machine

/-! ### Tests of a rule's pseudocode, put together -/

/-- Two tests in a row that end the command alike are one test. -/
theorem stopIf_bind_stopIf {α : Type} {c d : Prop} [Decidable c] [Decidable d] (a : Abort) (f : Except Abort α) :
    (stopIf c a >>= fun _ => stopIf d a >>= fun _ => f) = stopIf (c ∨ d) a >>= fun _ => f := by
  by_cases hc : c
  · rw [stopIf_pos a hc, stopIf_pos a (Or.inl hc : c ∨ d)]; rfl
  · by_cases hd : d
    · rw [stopIf_neg a hc, Abort.ok_bind, stopIf_pos a hd, stopIf_pos a (Or.inr hd : c ∨ d)]
    · rw [stopIf_neg a hc, Abort.ok_bind, stopIf_neg a hd, stopIf_neg a (not_or.mpr ⟨hc, hd⟩)]

theorem State.commandEffect_stNotRep {s : State} (hf : s.faulted = false) :
    ∃ t, s.commandEffect (.error .notRep) = .next t ∧ s.OnlyResponds t { status := .stNotRep, value := 0 } :=
  ⟨_, State.commandEffect_error hf .notRep, rfl⟩

/-! ### Parsing (rule R143) -/

/-- Rules R140, R143: the version nibble is 4 and the header-length nibble 5 in the byte 0x45 alone. -/
theorem State.ipNibbles_ne_iff (s : State) (v : View) :
    ((s.ipVersionAt v).toNat ≠ Config.ipVersion ∨ (s.ipIhlAt v).toNat ≠ 5) ↔ (s.byteAt v 0).toNat ≠ 0x45 := by
  obtain ⟨hhigh, hlow⟩ := nibbles_toNat (s.byteAt v 0)
  rw [State.ipVersionAt, State.ipIhlAt, hhigh, hlow, Config.ipVersion]
  omega

theorem exec_ipParse {s : State} {p : BankId} {v : View} (hv : s.hv .ip (.bank p) = .ok v) :
    exec (.ipParse p) s =
      s.commandEffect (stopIf ((s.ipVersionAt v).toNat ≠ Config.ipVersion) .notRep >>= fun _ =>
        stopIf ((s.ipIhlAt v).toNat ≠ 5) .notRep >>= fun _ =>
        stopIf ((s.fld16 v 2).toNat < 20 ∨ (s.fld16 v 2).toNat > v.avail) .notRep >>= fun _ =>
        .ok (s.setBank p { s.bank p with toff := some (v.off + 20), poff := none })) := by
  show s.commandEffect (s.hv .ip (.bank p) >>= _) = _
  rw [hv]
  rfl

/-- Settles O43: the three tests of the header refuse alike, so they are one test. -/
theorem ipParseResult : Obligations.IpParseResult := by
  intro s p v hf hv totalLength
  rw [exec_ipParse hv, stopIf_bind_stopIf, stopIf_bind_stopIf]
  have hnibbles := s.ipNibbles_ne_iff v
  split
  · next h =>
    rw [stopIf_neg _ (by rw [hnibbles]; omega), Abort.ok_bind]
    exact State.commandEffect_setBank hf p _
  · next h =>
    rw [stopIf_pos _ (by rw [hnibbles]; omega), Abort.error_bind]
    exact State.commandEffect_stNotRep hf

/-! ### Field reads (rules R144 to R158, R165) -/

section
variable {s : State} {rd : Reg} {loc : Loc} {v : View} (hf : s.faulted = false) (hv : s.hv .ip loc = .ok v)
include hf hv

/-- Rule R165: a read that is safe under either tag answers its field. -/
theorem State.ipField_answers {value : View → Word} {w : Word} (hw : value v = w) :
    ∃ t, s.ipField rd loc value = .next t ∧ s.Answered t rd w := by
  rw [State.ipField, hv, ← hw]
  exact State.commandValue_answers hf rd (value v)

/-- Rule R165: a read of the flag word under the tag `HOST`. -/
theorem State.ipFlagWord_answers (ho : v.ord = .host) {value : Half → Word} {w : Word} (hw : value (s.fld16 v 6) = w) :
    ∃ t, s.ipFlagWord rd loc value = .next t ∧ s.Answered t rd w := by
  rw [State.ipFlagWord, hv, Abort.ok_bind, stopIf_neg _ (not_not_intro ho), ← hw]
  exact State.commandValue_answers hf rd (value (s.fld16 v 6))

/-- Rule R165: a read of the flag word under the tag `WIRE`. -/
theorem State.ipFlagWord_faults (ho : v.ord = .wire) (value : Half → Word) :
    ∃ t, s.ipFlagWord rd loc value = .next t ∧ s.OnlyFaults t .order := by
  rw [State.ipFlagWord, hv, Abort.ok_bind, stopIf_pos _ (by rw [ho]; decide)]
  exact State.commandValue_raise hf rd .order

end

/-- A field answered in a register is the number of the field. -/
theorem setWidth_eq_ofNat {w : Nat} {x : BitVec w} {n : Nat} (h : x.toNat = n) : x.setWidth 32 = BitVec.ofNat 32 n := by
  rw [← h, BitVec.ofNat_toNat]

theorem word_eq_ofNat {x : Word} {n : Nat} (h : x.toNat = n) : x = BitVec.ofNat 32 n := by
  rw [← setWidth_eq_ofNat h, BitVec.setWidth_eq]

/-- Rule R145: four times a nibble does not wrap. -/
theorem hlen_eq_ofNat (b : Byte) : (b.extractLsb' 0 4).setWidth 32 * 4 = BitVec.ofNat 32 (b.toNat % 16 * 4) := by
  have hnibble := (nibbles_toNat b).2
  refine word_eq_ofNat ?_
  rw [BitVec.toNat_mul, BitVec.toNat_setWidth_of_le (by decide), hnibble]
  exact Nat.mod_eq_of_lt (by show _ * 4 < _; omega)

/-- Settles O44: each read answers the number of its bytes, in the order of the tag. -/
theorem ipFieldReads : Obligations.IpFieldReads := by
  intro s rd loc v hf hv half word
  have hbyte : ∀ i, (s.byteAt v i).setWidth 32 = BitVec.ofNat 32 (s.byteAt v i).toNat := fun i => setWidth_eq_ofNat rfl
  have hhalf : ∀ i, (s.fld16 v i).setWidth 32 = BitVec.ofNat 32 (half i) := fun i =>
    setWidth_eq_ofNat (decode16_toNat v.ord _ _)
  have hword : ∀ i, s.fld32 v i = BitVec.ofNat 32 (word i) := fun i => word_eq_ofNat (decode32_toNat v.ord _ _ _ _)
  exact ⟨State.ipField_answers hf hv (setWidth_eq_ofNat (nibbles_toNat _).1),
    State.ipField_answers hf hv (hlen_eq_ofNat _),
    State.ipField_answers hf hv (hbyte 1), State.ipField_answers hf hv (hbyte 8), State.ipField_answers hf hv (hbyte 9),
    State.ipField_answers hf hv (hhalf 2), State.ipField_answers hf hv (hhalf 4), State.ipField_answers hf hv (hhalf 10),
    State.ipField_answers hf hv (hword 12), State.ipField_answers hf hv (hword 16)⟩

/-! ### The flag word (rules R142, R149 to R153) -/

/-- Rule R8: consecutive bits of a half as a number. -/
theorem extractLsb'_eq_ofNat (ff : Half) (start len : Nat) :
    (ff.extractLsb' start len).setWidth 32 = BitVec.ofNat 32 (ff.toNat / 2 ^ start % 2 ^ len) :=
  setWidth_eq_ofNat (by rw [BitVec.extractLsb'_toNat, Nat.shiftRight_eq_div_pow])

/-- Settles O45: under `HOST` byte 7 is the word's high byte, so each read is a quotient and a remainder of it. -/
theorem ipFlagReads : Obligations.IpFlagReads := by
  intro s rd loc v hf hv hi lo
  refine ⟨fun ho => ?_, fun ho => ?_⟩
  · have hhi : hi < 256 := (s.byteAt v 7).isLt
    have hlo : lo < 256 := (s.byteAt v 6).isLt
    have hff : (s.fld16 v 6).toNat = hi * 256 + lo := by
      rw [State.fld16, decode16_toNat, if_neg (by rw [ho]; decide)]
    have answers : ∀ start len n, (hi * 256 + lo) / 2 ^ start % 2 ^ len = n →
        ∃ t, s.ipFlagWord rd loc (fun ff => (ff.extractLsb' start len).setWidth 32) = .next t ∧
          s.Answered t rd (BitVec.ofNat 32 n) := fun start len n hn =>
      State.ipFlagWord_answers hf hv ho (by rw [extractLsb'_eq_ofNat, hff, hn])
    exact ⟨answers 13 3 _ (by omega), answers 0 13 _ (by omega), answers 15 1 _ (by omega), answers 14 1 _ (by omega),
      answers 13 1 _ (by omega)⟩
  · have faults : ∀ start len, ∃ t, s.ipFlagWord rd loc (fun ff => (ff.extractLsb' start len).setWidth 32) = .next t ∧
        s.OnlyFaults t .order := fun start len => State.ipFlagWord_faults hf hv ho _
    simp only [List.forall_mem_cons, List.not_mem_nil, false_imp_iff, implies_true, and_true]
    exact ⟨faults 13 3, faults 0 13, faults 15 1, faults 14 1, faults 13 1⟩

/-! ### The total length (rule R159) -/

theorem exec_ipSetTotLen {s : State} {loc : Loc} {v : View} (hv : s.hv .ip loc = .ok v) (rs1 : Reg) :
    exec (.ipSetTotLen rs1 loc) s = s.commandEffect (.ok (s.put16 v 2 (s.regHalf rs1))) := by
  show s.commandEffect (s.hv .ip loc >>= _) = _
  rw [hv]
  rfl

/-- The two bytes of a register's low half. -/
theorem State.regHalf_bytes (s : State) (r : Reg) :
    (s.regHalf r).extractLsb' 8 8 = (s.reg r).extractLsb' 8 8 ∧
      (s.regHalf r).extractLsb' 0 8 = (s.reg r).extractLsb' 0 8 := by
  constructor <;> ext i hi <;> simp [State.regHalf]

/-- Settles O46: the two bytes of the field, high byte first under `WIRE` and last under `HOST`. -/
theorem ipSetTotalLength : Obligations.IpSetTotalLength := by
  intro s rs1 loc v hf hv
  obtain ⟨hhigh, hlow⟩ := s.regHalf_bytes rs1
  refine ⟨(s.put16 v 2 (s.regHalf rs1)).reply .stOk 0, ?_, s.onlyStores_storeWrite _ _ _, fun st a => ?_⟩
  · rw [exec_ipSetTotLen hv]
    exact State.commandEffect_ok hf _
  · rw [State.reply_storeByte, State.storeByte_put16 hv (by decide), Nat.add_assoc, ← hhigh, ← hlow]
    cases v.ord with
    | wire => rfl
    | host => exact ite_ite_comm (st = v.store ∧ a = v.off + 2) (st = v.store ∧ a = v.off + 3) _ _ (by omega)

/-! ### The meaning of the checksum commands (rules R161 to R163, R200, R201) -/

theorem exec_ipCsum (s : State) (rd : Reg) (loc : Loc) :
    exec (.ipCsum rd loc) s =
      s.commandValue rd (s.ipSummed loc >>= fun r => .ok ((csum r.2 (s.be16At r.1 10)).setWidth 32)) := rfl

theorem exec_ipVerify (s : State) (rd : Reg) (loc : Loc) :
    exec (.ipVerify rd loc) s =
      s.commandValue rd (s.ipSummed loc >>= fun r => .ok ((csum r.2 0).setWidth 32)) := rfl

theorem exec_ipSetCsum (s : State) (loc : Loc) :
    exec (.ipSetCsum loc) s =
      s.commandEffect (s.ipSummed loc >>= fun r =>
        .ok (s.putBytes r.1 10 (bytesBE16 (csum r.2 (s.be16At r.1 10))))) := rfl

theorem exec_udpCsum (s : State) (rd rs1 rs2 : Reg) (loc : Loc) :
    exec (.udpCsum rd rs1 rs2 loc) s =
      s.commandValue rd (s.udpSummed loc >>= fun r =>
        .ok ((s.udpSegmentCsum rs1 rs2 r.1 r.2.1 r.2.2).setWidth 32)) := rfl

theorem exec_udpSetCsum (s : State) (rs1 rs2 : Reg) (loc : Loc) :
    exec (.udpSetCsum rs1 rs2 loc) s =
      s.commandEffect (s.udpSummed loc >>= fun r =>
        .ok (s.putBytes r.1 6 (bytesBE16 (s.udpSegmentCsum rs1 rs2 r.1 r.2.1 r.2.2)))) := rfl

/-! ### The checks of a checksum command (rules R161, R200, R225) -/

/-- The three checks that follow the view's, for a header or segment of `length` bytes of which `least` must be there. -/
def View.lengthChecks (v : View) (least length : Nat) : Except Abort Unit := do
  stopIf (length < least) .notRep
  stopIf (v.ord ≠ .wire) (.raise .order)
  stopIf (length > v.avail) (.raise .bounds)

section
variable {v : View} {least length : Nat}

theorem View.lengthChecks_short (h : length < least) : v.lengthChecks least length = .error .notRep := by
  rw [View.lengthChecks, stopIf_pos _ h, Abort.error_bind]

theorem View.lengthChecks_host (h : least ≤ length) (ho : v.ord = .host) :
    v.lengthChecks least length = .error (.raise .order) := by
  rw [View.lengthChecks, stopIf_neg _ (Nat.not_lt.mpr h), Abort.ok_bind, stopIf_pos _ (by rw [ho]; decide),
    Abort.error_bind]

theorem View.lengthChecks_long (h : least ≤ length) (ho : v.ord = .wire) (hlong : v.avail < length) :
    v.lengthChecks least length = .error (.raise .bounds) := by
  rw [View.lengthChecks, stopIf_neg _ (Nat.not_lt.mpr h), Abort.ok_bind, stopIf_neg _ (not_not_intro ho), Abort.ok_bind,
    stopIf_pos _ hlong]

end

theorem State.ipIhlAt_toNat (s : State) (v : View) : (s.ipIhlAt v).toNat = (s.byteAt v 0).toNat % 16 :=
  (nibbles_toNat (s.byteAt v 0)).2

section
variable {s : State} {loc : Loc} {v : View} {a : Abort}

/-- Rule R161: fewer than 5 words of a header are fewer than 20 bytes. -/
theorem State.ipSummed_eq_lengthChecks (hv : s.hv .ip loc = .ok v) :
    s.ipSummed loc = v.lengthChecks 20 ((s.ipIhlAt v).toNat * 4) >>= fun _ =>
      .ok (v, s.bytesAt v 0 ((s.ipIhlAt v).toNat * 4)) := by
  have hshort : (s.ipIhlAt v).toNat < 5 ↔ (s.ipIhlAt v).toNat * 4 < 20 := by omega
  rw [State.ipSummed, hv]
  simp only [Abort.ok_bind, hshort, View.lengthChecks, bind_assoc]
  rfl

theorem State.udpSummed_eq_lengthChecks (hv : s.hv .udp loc = .ok v) :
    s.udpSummed loc = v.lengthChecks 8 (s.fld16 v 4).toNat >>= fun _ =>
      .ok (v, s.fld16 v 4, s.bytesAt v 0 (s.fld16 v 4).toNat) := by
  rw [State.udpSummed, hv]
  simp only [Abort.ok_bind, View.lengthChecks, bind_assoc]
  rfl

/-- The three IPv4 checksum commands end as the checks they share end. -/
theorem exec_ipChecksum_error {rd : Reg} {i : Instr} (hi : i ∈ [Instr.ipCsum rd loc, .ipSetCsum loc, .ipVerify rd loc])
    (hf : s.faulted = false) (h : s.ipSummed loc = .error a) : exec i s = .next (s.abort a) := by
  simp only [List.mem_cons, List.not_mem_nil, or_false] at hi
  rcases hi with rfl | rfl | rfl
  · rw [exec_ipCsum, h]; exact State.commandValue_error hf rd a
  · rw [exec_ipSetCsum, h]; exact State.commandEffect_error hf a
  · rw [exec_ipVerify, h]; exact State.commandValue_error hf rd a

/-- The two UDP checksum commands end as the checks they share end. -/
theorem exec_udpChecksum_error {rd rs1 rs2 : Reg} {i : Instr}
    (hi : i ∈ [Instr.udpCsum rd rs1 rs2 loc, .udpSetCsum rs1 rs2 loc])
    (hf : s.faulted = false) (h : s.udpSummed loc = .error a) : exec i s = .next (s.abort a) := by
  simp only [List.mem_cons, List.not_mem_nil, or_false] at hi
  rcases hi with rfl | rfl
  · rw [exec_udpCsum, h]; exact State.commandValue_error hf rd a
  · rw [exec_udpSetCsum, h]; exact State.commandEffect_error hf a

end

/-- Settles O59: both kinds make the same three checks, of their own length; each failing check ends the command. -/
theorem checksumChecks : Obligations.ChecksumChecks := by
  intro s rd rs1 rs2 loc kind v i least length hf hv hi
  have hstop : ∀ a, v.lengthChecks least length = .error a → exec i s = .next (s.abort a) := by
    intro a h
    rcases hi with ⟨rfl, hi, rfl, rfl⟩ | ⟨rfl, hi, rfl, rfl⟩
    · rw [← State.ipIhlAt_toNat] at h
      exact exec_ipChecksum_error hi hf (by rw [State.ipSummed_eq_lengthChecks hv, h]; rfl)
    · exact exec_udpChecksum_error hi hf (by rw [State.udpSummed_eq_lengthChecks hv, h]; rfl)
  obtain ⟨t, ht⟩ := exec_next i s
  have hend : ∀ a, v.lengthChecks least length = .error a → t = s.abort a := fun a h =>
    Host.Outcome.next.inj (ht.symm.trans (hstop a h))
  exact ⟨t, ht, fun h => hend _ (View.lengthChecks_short h), fun h ho => hend _ (View.lengthChecks_host h ho),
    fun h ho hlong => hend _ (View.lengthChecks_long h ho hlong)⟩

/-! ### The checksum of an image (rules R161 to R163, law 8 of R107) -/

theorem zeroWordAt_storeWordAt (bs : List Byte) (i : Nat) (x : Half) :
    zeroWordAt (storeWordAt bs i x) i = zeroWordAt bs i := by
  rw [zeroWordAt, storeWordAt, List.set_comm _ _ (Nat.succ_ne_self i), List.set_set, List.set_set, zeroWordAt]

/-- Rules R161, R187, R200: the seed is a word of the image, so the image is summed as if that word were zero. -/
theorem State.csum_imageBytes_stored (s : State) (v : View) {n i : Nat} (h : 2 * i + 1 < n) :
    csum (s.imageBytes v n) (s.be16At v (2 * i)) = csum (zeroWordAt (s.imageBytes v n) (2 * i)) 0 := by
  rw [← csum_stored_eq_csum_zeroWordAt _ i (by simpa using h), State.getD_imageBytes _ _ _ _ (by omega),
    State.getD_imageBytes _ _ _ _ h, State.be16At]

/-- The image after a word is stored big-endian in its fixed header. -/
theorem State.imageBytes_putBytes {s : State} {kind : Kind} {loc : Loc} {v : View} (hv : s.hv kind loc = .ok v) {i : Nat}
    (hi : i + 2 ≤ kind.minLen) (x : Half) (n : Nat) :
    (s.putBytes v i (bytesBE16 x)).imageBytes v n = storeWordAt (s.imageBytes v n) i x := by
  apply List.ext_getElem
  · simp [storeWordAt]
  · intro j h1 h2
    have hbyte := State.storeByte_putPair hv hi (bytesBE16 x) rfl v.store (v.off + j)
    simp only [true_and, Nat.add_assoc, Nat.add_left_cancel_iff] at hbyte
    simp only [State.imageBytes, storeWordAt, List.getElem_map, List.getElem_range, List.getElem_set, State.byteAt, hbyte,
      eq_comm (a := i + 1) (b := j), eq_comm (a := i) (b := j)]
    exact ite_ite_comm (j = i) (j = i + 1) _ _ (by omega)

/-- Rule R161: the header that passes the checks. -/
theorem State.ipSummed_header {s : State} {loc : Loc} {v : View} (hv : s.hv .ip loc = .ok v)
    (hihl : 5 ≤ (s.byteAt v 0).toNat % 16) (ho : v.ord = .wire) (hfit : (s.byteAt v 0).toNat % 16 * 4 ≤ v.avail) :
    s.ipSummed loc = .ok (v, s.imageBytes v ((s.byteAt v 0).toNat % 16 * 4)) := by
  rw [← State.ipIhlAt_toNat] at hihl hfit ⊢
  rw [State.ipSummed_ok hv hihl ho hfit, State.bytesAt_zero]

/-- A header that passes the checks, taken apart. -/
theorem State.ipSummed_header_of_ok {s : State} {loc : Loc} {r : View × List Byte} (h : s.ipSummed loc = .ok r) :
    ∃ v, s.hv .ip loc = .ok v ∧ 5 ≤ (s.byteAt v 0).toNat % 16 ∧ v.ord = .wire ∧
      (s.byteAt v 0).toNat % 16 * 4 ≤ v.avail ∧ r = (v, s.imageBytes v ((s.byteAt v 0).toNat % 16 * 4)) := by
  obtain ⟨hv, hihl, ho, hfit, -⟩ := State.ipSummed_eq_ok h
  rw [State.ipIhlAt_toNat] at hihl hfit
  exact ⟨r.1, hv, hihl, ho, hfit, Except.ok.inj (h.symm.trans (State.ipSummed_header hv hihl ho hfit))⟩

/-- Rules R161, R162: the seed of a header that passes the checks is its own word 5. -/
theorem State.csum_ipSummed_stored {s : State} {loc : Loc} {v : View} {header : List Byte}
    (h : s.ipSummed loc = .ok (v, header)) :
    2 * 5 + 1 < header.length ∧ csum header (s.be16At v 10) = csum (zeroWordAt header 10) 0 := by
  obtain ⟨w, -, hihl, -, -, heq⟩ := State.ipSummed_header_of_ok h
  obtain ⟨rfl, rfl⟩ := Prod.mk.inj heq
  have hlen : 2 * 5 + 1 < (s.byteAt v 0).toNat % 16 * 4 := by omega
  exact ⟨by rwa [State.length_imageBytes], s.csum_imageBytes_stored v (i := 5) hlen⟩

/-- Rule R162: storing the field leaves the checks as they were, and the header summed is the old one with the field stored. -/
theorem State.ipSummed_putBytes {s : State} {loc : Loc} {v : View} {header : List Byte}
    (h : s.ipSummed loc = .ok (v, header)) (x : Half) :
    ((s.putBytes v 10 (bytesBE16 x)).reply .stOk 0).ipSummed loc = .ok (v, storeWordAt header 10 x) := by
  obtain ⟨w, hv, hihl, ho, hfit, heq⟩ := State.ipSummed_header_of_ok h
  obtain ⟨rfl, rfl⟩ := Prod.mk.inj heq
  have hview : ((s.putBytes v 10 (bytesBE16 x)).reply .stOk 0).hv .ip loc = .ok v := by
    rw [State.reply_hv, State.hv_putBytes, hv]
  have hbyte : ((s.putBytes v 10 (bytesBE16 x)).reply .stOk 0).byteAt v 0 = s.byteAt v 0 :=
    State.storeByte_putBytes_other hv (by rw [length_bytesBE16]; decide) (by omega)
  rw [← hbyte] at hihl hfit
  rw [State.ipSummed_header hview hihl ho hfit, hbyte, ← State.imageBytes_putBytes hv (by decide)]
  rfl

section
variable {s : State} {loc : Loc} {v : View} {header : List Byte} (hf : s.faulted = false)
  (hsummed : s.ipSummed loc = .ok (v, header))
include hf hsummed

theorem exec_ipCsum_answers (rd : Reg) {x : Half} (hx : csum header (s.be16At v 10) = x) :
    ∃ t, exec (.ipCsum rd loc) s = .next t ∧ s.Answered t rd (x.setWidth 32) := by
  rw [exec_ipCsum, hsummed, Abort.ok_bind, hx]
  exact State.commandValue_answers hf rd (x.setWidth 32)

theorem exec_ipVerify_answers (rd : Reg) :
    ∃ t, exec (.ipVerify rd loc) s = .next t ∧ s.Answered t rd ((csum header 0).setWidth 32) := by
  rw [exec_ipVerify, hsummed]
  exact State.commandValue_answers hf rd ((csum header 0).setWidth 32)

theorem exec_ipSetCsum_stores (hv : s.hv .ip loc = .ok v) {x : Half} (hx : csum header (s.be16At v 10) = x) :
    ∃ t, exec (.ipSetCsum loc) s = .next t ∧ s.OnlyStores t ∧
      ∀ st a, t.storeByte st a =
        if st = v.store ∧ a = v.off + 10 then x.extractLsb' 8 8
        else if st = v.store ∧ a = v.off + 11 then x.extractLsb' 0 8
        else s.storeByte st a := by
  rw [exec_ipSetCsum, hsummed, Abort.ok_bind, hx]
  exact ⟨_, State.commandEffect_ok hf _, s.onlyStores_storeWrite _ _ _, fun st a =>
    State.storeByte_putPair hv (by decide) (bytesBE16 x) rfl st a⟩

end

/-- Settles O48: the stored field is word 5 of the header that the three commands sum. -/
theorem ipChecksumResults : Obligations.IpChecksumResults := by
  intro s rd loc v hf hv ihl hihl ho hfit H r
  have hsummed : s.ipSummed loc = .ok (v, H) := State.ipSummed_header hv hihl ho hfit
  have hr : csum H (s.be16At v 10) = r := (State.csum_ipSummed_stored hsummed).2
  exact ⟨exec_ipCsum_answers hf hsummed rd hr, exec_ipVerify_answers hf hsummed rd,
    exec_ipSetCsum_stores hf hsummed hv hr⟩

/-- Settles O49: the store changes nothing of the header but the field, so the checksum of the header with the field zeroed
is still the one stored; with it the header sums to 0. -/
theorem ipSetThenVerify : Obligations.IpSetThenVerify := by
  intro s t rd loc hf ht hok
  rcases execIpSetCsum_cases ht with hstop | ⟨⟨v, header⟩, hsummed, heq⟩
  · exact absurd hok (hstop.not_ok 0)
  obtain ⟨hlen, hseed⟩ := State.csum_ipSummed_stored hsummed
  obtain ⟨hv, -⟩ := State.ipSummed_eq_ok hsummed
  generalize hx : csum (zeroWordAt header 10) 0 = x at hseed
  rw [hseed] at heq
  have hft : t.faulted = false := by rw [heq, State.reply_faulted, (s.bytesOnly_putBytes v 10 _).faulted, hf]
  have hvt : t.hv .ip loc = .ok v := by rw [heq, State.reply_hv, State.hv_putBytes, hv]
  have hsummed' : t.ipSummed loc = .ok (v, storeWordAt header 10 x) := by rw [heq, State.ipSummed_putBytes hsummed]
  have hsum : csum (storeWordAt header 10 x) 0 = 0 := hx ▸ csum_storeWordAt_eq_zero header 5 hlen
  have hseed' : csum (storeWordAt header 10 x) (t.be16At v 10) = x := by
    rw [(State.csum_ipSummed_stored hsummed').2, zeroWordAt_storeWordAt, hx]
  refine ⟨?_, ?_⟩
  · have hverify := exec_ipVerify_answers hft hsummed' rd
    rwa [hsum] at hverify
  · obtain ⟨u, hu, hstores, hbytes⟩ := exec_ipSetCsum_stores hft hsummed' hvt hseed'
    refine ⟨u, hu, hstores, fun st a => ?_⟩
    rw [hbytes, heq, State.reply_storeByte, State.storeByte_putPair hv (by decide) _ rfl]
    split_ifs <;> rfl

/-! ### The reply header (rule R164) -/

theorem exec_ipReply {s : State} {loc : Loc} {v : View} (hv : s.hv .ip loc = .ok v) :
    exec (.ipReply loc) s =
      s.commandEffect (stopIf (s.ttlRefused v) .notRep >>= fun _ =>
        .ok { s with hip := ipReplyHeader (s.byteAt v), hipOrd := v.ord }) := by
  show s.commandEffect (s.hv .ip loc >>= _) = _
  rw [hv]
  rfl

theorem replyTtl_toNat (ttl : Byte) : (replyTtl ttl).toNat = ttl.toNat - 1 := by
  rw [replyTtl]
  split
  · next h => rw [BitVec.toNat_sub_of_le (by show 1 ≤ ttl.toNat; omega)]; rfl
  · next h => rw [Nat.eq_zero_of_not_pos h]; rfl

/-- Settles O50: the fresh header lists its twenty bytes, all of the image as it was before. -/
theorem ipReplyResult : Obligations.IpReplyResult := by
  intro s loc v hf hv
  rw [exec_ipReply hv]
  refine ⟨fun hrep => ?_, fun hfloor hzero => ?_⟩
  · have hgo : ¬s.ttlRefused v := by
      rintro ⟨hfloor, hzero⟩
      exact hrep.elim (fun h => by rw [h] at hfloor; cases hfloor) (fun h => h hzero)
    rw [stopIf_neg _ hgo, Abort.ok_bind]
    refine ⟨_, State.commandEffect_ok hf _, rfl, rfl, rfl, ?_, ?_, replyTtl_toNat _, ?_⟩
    · simp only [List.forall_mem_cons, List.not_mem_nil, false_imp_iff, implies_true, and_true]
      exact ⟨rfl, rfl, rfl, rfl⟩
    · simp only [List.forall_mem_cons, List.not_mem_nil, false_imp_iff, implies_true, and_true]
      exact ⟨rfl, rfl, rfl, rfl, rfl⟩
    · intro i hi
      interval_cases i <;> exact ⟨rfl, rfl⟩
  · rw [stopIf_pos _ ⟨hfloor, hzero⟩, Abort.error_bind]
    exact State.commandEffect_stNotRep hf

end Sys2Proof.Machine
end

section
/-! PROOFS. The ICMP header parser (44_icmp). Each command has one account of how it ends, once its view resolves, as an
ending of its rule's pseudocode; the checksum of an image is law 8 of rule R107, shared with the IPv4 header. -/

namespace Sys2Proof.Machine

/-! ### The meaning of each command, as pseudocode that ends it (rules R182 to R188) -/

theorem exec_icmpBuild (s : State) (rs1 rs2 : Reg) :
    exec (.icmpBuild rs1 rs2) s =
      s.commandEffect (.ok { s with hicmp := #v[s.regByte rs1, s.regByte rs2, 0, 0] }) := rfl

theorem exec_icmpCsum (s : State) (rd rs1 : Reg) (loc : Loc) :
    exec (.icmpCsum rd rs1 loc) s =
      s.commandValue rd (s.icmpSummed loc rs1 >>= fun r => .ok ((csum r.2 (s.be16At r.1 2)).setWidth 32)) := rfl

theorem exec_icmpSetCsum (s : State) (rs1 : Reg) (loc : Loc) :
    exec (.icmpSetCsum rs1 loc) s =
      s.commandEffect (s.icmpSummed loc rs1 >>= fun r =>
        .ok (s.putBytes r.1 2 (bytesBE16 (csum r.2 (s.be16At r.1 2))))) := rfl

theorem exec_icmpParse {s : State} {p : BankId} {v : View} (hv : s.hv .icmp (.bank p) = .ok v) :
    exec (.icmpParse p) s = s.commandEffect (.ok (s.setBank p { s.bank p with poff := some (v.off + 4) })) := by
  show s.commandEffect (s.hv .icmp (.bank p) >>= _) = _
  rw [hv]
  rfl

/-! ### The checksum over `x[rs1]` bytes (rules R187, R188) -/

/-- A word stored big-endian in the fixed header of an image, whatever its tag. -/
theorem State.commandEffect_storesWord {s : State} (hf : s.faulted = false) {kind : Kind} {loc : Loc} {v : View}
    (hv : s.hv kind loc = .ok v) {i : Nat} (hi : i + 2 ≤ kind.minLen) (x : Half) :
    ∃ t, s.commandEffect (.ok (s.putBytes v i (bytesBE16 x))) = .next t ∧ s.OnlyStores t ∧
      ∀ st a, t.storeByte st a =
        if st = v.store ∧ a = v.off + i then x.extractLsb' 8 8
        else if st = v.store ∧ a = v.off + i + 1 then x.extractLsb' 0 8
        else s.storeByte st a :=
  ⟨_, State.commandEffect_ok hf _, s.onlyStores_storeWrite _ _ _, fun st a =>
    State.storeByte_putPair hv hi (bytesBE16 x) rfl st a⟩

section
variable {s : State} {loc : Loc} {v : View} {rs1 : Reg} (hv : s.hv .icmp loc = .ok v)
include hv

/-- Rule R187: a length that passes the checks has its first bytes of the image summed. -/
theorem State.icmpSummed_image (hmin : 4 ≤ (s.reg rs1).toNat) (hfit : (s.reg rs1).toNat ≤ v.avail) :
    s.icmpSummed loc rs1 = .ok (v, s.imageBytes v (s.reg rs1).toNat) := by
  rw [State.icmpSummed_ok hv hmin hfit, State.bytesAt_zero]

/-- Rule R187: a length under the fixed header, or past the end of the image. -/
theorem State.icmpSummed_bounds (hout : (s.reg rs1).toNat < 4 ∨ v.avail < (s.reg rs1).toNat) :
    s.icmpSummed loc rs1 = .error (.raise .bounds) := by
  simp only [State.icmpSummed, hv, Abort.ok_bind, gt_iff_lt, stopIf_pos _ hout, Abort.error_bind]

end

/-- Settles O53: the stored field is word 1 of the bytes summed; a length out of bounds ends both commands before they sum. -/
theorem icmpChecksumResults : Obligations.IcmpChecksumResults := by
  intro s rd rs1 loc v hf hv n r
  refine ⟨fun ⟨hmin, hfit⟩ => ?_, fun hout => ?_⟩
  · have hsummed : s.icmpSummed loc rs1 = .ok (v, s.imageBytes v n) := State.icmpSummed_image hv hmin hfit
    have hr : csum (s.imageBytes v n) (s.be16At v 2) = r := s.csum_imageBytes_stored v (i := 1) hmin
    rw [exec_icmpCsum, exec_icmpSetCsum, hsummed, Abort.ok_bind, Abort.ok_bind, hr]
    exact ⟨State.commandValue_answers hf rd (r.setWidth 32), State.commandEffect_storesWord hf hv (by decide) r⟩
  · rw [exec_icmpCsum, exec_icmpSetCsum, State.icmpSummed_bounds hv hout]
    exact ⟨State.commandValue_raise hf rd .bounds, State.commandEffect_raise hf .bounds⟩

/-! ### Parsing and the field reads (rules R182 to R185) -/

/-- Rule R180: a read needs nothing but its view. -/
theorem State.icmpField_answers {s : State} {rd : Reg} {loc : Loc} {v : View} (hf : s.faulted = false)
    (hv : s.hv .icmp loc = .ok v) {value : View → Word} {w : Word} (hw : value v = w) :
    ∃ t, s.icmpField rd loc value = .next t ∧ s.Answered t rd w := by
  rw [State.icmpField, hv, ← hw]
  exact State.commandValue_answers hf rd (value v)

/-- Settles O51: the payload starts where the four header bytes end; the reads answer numbers of bytes, and no tag is
consulted. -/
theorem icmpParseAndReads : Obligations.IcmpParseAndReads := by
  refine ⟨fun s p v hf hv => ?_, fun s rd loc v hf hv => ?_⟩
  · rw [exec_icmpParse hv]
    exact State.commandEffect_setBank hf p _
  · exact ⟨State.icmpField_answers hf hv (setWidth_eq_ofNat rfl), State.icmpField_answers hf hv (setWidth_eq_ofNat rfl),
      State.icmpField_answers hf hv (setWidth_eq_ofNat (be16_toNat _ _))⟩

/-! ### The built header (rule R186) -/

theorem State.regByte_toNat (s : State) (r : Reg) : (s.regByte r).toNat = (s.reg r).toNat % 2 ^ 8 := by
  simp [State.regByte]

/-- Settles O52: the fresh header lists its four bytes, the type and the code from the registers' low bytes. -/
theorem icmpBuildResult : Obligations.IcmpBuildResult := by
  intro s rs1 rs2 hf
  rw [exec_icmpBuild]
  exact ⟨_, State.commandEffect_ok hf _, rfl, s.regByte_toNat rs1, s.regByte_toNat rs2, rfl, rfl⟩

end Sys2Proof.Machine
end

section
/-! PROOFS. The UDP header parser (45_udp). Each command's meaning is stated once as an ending of its rule's pseudocode; the
byte swap is the one shared with the IPv4 header; the checksum is law 8 of rule R107 behind the pseudo-header, which has an
even number of bytes. -/

namespace Sys2Proof.Machine

/-! ### The meaning of the parse and the reply, as pseudocode that ends them (rules R192, R198) -/

section
variable {s : State} {v : View}

theorem exec_udpParse {p : BankId} (hv : s.hv .udp (.bank p) = .ok v) :
    exec (.udpParse p) s =
      s.commandEffect (stopIf ((s.fld16 v 4).toNat < 8 ∨ (s.fld16 v 4).toNat > v.avail) .notRep >>= fun _ =>
        .ok (s.setBank p { s.bank p with poff := some (v.off + 8) })) := by
  show s.commandEffect (s.hv .udp (.bank p) >>= _) = _
  rw [hv]
  rfl

theorem exec_udpReply {loc : Loc} (hv : s.hv .udp loc = .ok v) :
    exec (.udpReply loc) s =
      s.commandEffect (.ok { s with hudp := udpReplyHeader (s.byteAt v), hudpOrd := v.ord }) := by
  show s.commandEffect (s.hv .udp loc >>= _) = _
  rw [hv]
  rfl

end

/-! ### The checksum over the pseudo-header and the segment (rules R191, R199 to R201) -/

theorem zeroWordAt_append (as bs : List Byte) (i : Nat) : zeroWordAt (as ++ bs) (as.length + i) = as ++ zeroWordAt bs i := by
  rw [zeroWordAt, List.set_append_right _ _ (by omega), List.set_append_right _ _ (by omega), Nat.add_assoc,
    Nat.add_sub_cancel_left, Nat.add_sub_cancel_left, zeroWordAt]

/-- Rule R107, law 8, behind an even number of bytes: the words of `bs` stay words of the whole. -/
theorem csum_append_stored (as bs : List Byte) {k i : Nat} (hk : as.length = 2 * k) (hi : 2 * i + 1 < bs.length) :
    csum (as ++ bs) (be16 (bs.getD (2 * i) 0) (bs.getD (2 * i + 1) 0)) = csum (as ++ zeroWordAt bs (2 * i)) 0 := by
  have hstored := csum_stored_eq_csum_zeroWordAt (as ++ bs) (k + i) (by rw [List.length_append]; omega)
  rwa [Nat.mul_add, ← hk, zeroWordAt_append, Nat.add_assoc, List.getD_append_right _ _ _ _ (Nat.le_add_right ..),
    List.getD_append_right _ _ _ _ (Nat.le_add_right ..), Nat.add_sub_cancel_left, Nat.add_sub_cancel_left] at hstored

/-- Rule R191: the pseudo-header is six words. -/
theorem length_pseudo (src dst : Word) (len : Half) : (pseudo src dst len).length = 2 * 6 := rfl

/-- Rules R199, R200: seeded with its stored field, a segment is summed as if that field were zero. -/
theorem State.udpSegmentCsum_stored (s : State) (rs1 rs2 : Reg) (v : View) (len : Half) {n : Nat} (hn : 8 ≤ n) :
    s.udpSegmentCsum rs1 rs2 v len (s.imageBytes v n) =
      let sum := csum (pseudo (s.reg rs1) (s.reg rs2) len ++ zeroWordAt (s.imageBytes v n) 6) 0
      if s.cfg.udpZeroAsOnes = true ∧ sum = 0 then 0xFFFF else sum := by
  have hsum := csum_append_stored _ (s.imageBytes v n) (i := 3) (length_pseudo (s.reg rs1) (s.reg rs2) len)
    (by rw [State.length_imageBytes]; omega)
  rw [State.getD_imageBytes _ _ _ _ (by omega), State.getD_imageBytes _ _ _ _ (by omega)] at hsum
  rw [State.udpSegmentCsum, udpCsum, csum2, State.be16At, hsum]

/-- Settles O58: a segment that passes the checks holds its checksum field, so its image sums with the field zeroed. -/
theorem udpChecksumResults : Obligations.UdpChecksumResults := by
  intro s rd rs1 rs2 loc v hf hv len hmin ho hfit src dst pseudoHeader sum r
  have hsummed : s.udpSummed loc = .ok (v, len, s.imageBytes v len.toNat) := by
    rw [State.udpSummed_ok hv hmin ho hfit, State.bytesAt_zero]
  have hr : s.udpSegmentCsum rs1 rs2 v len (s.imageBytes v len.toNat) = r :=
    s.udpSegmentCsum_stored rs1 rs2 v len hmin
  rw [exec_udpCsum, exec_udpSetCsum, hsummed, Abort.ok_bind, Abort.ok_bind, hr]
  exact ⟨State.commandValue_answers hf rd (r.setWidth 32), State.commandEffect_storesWord hf hv (by decide) r⟩

/-! ### Parsing and the field reads (rules R192 to R196) -/

/-- Rules R193 to R196: a read answers its field, whatever the tag. -/
theorem State.udpField_answers {s : State} {rd : Reg} {loc : Loc} {v : View} (hf : s.faulted = false)
    (hv : s.hv .udp loc = .ok v) {i : Nat} {w : Word} (hw : (s.fld16 v i).setWidth 32 = w) :
    ∃ t, s.udpField rd loc i = .next t ∧ s.Answered t rd w := by
  rw [State.udpField, hv, ← hw]
  exact State.commandValue_answers hf rd ((s.fld16 v i).setWidth 32)

/-- Settles O54: the parse makes one test of the length field; each read answers the number of its two bytes, in the order
of the tag. -/
theorem udpParseAndReads : Obligations.UdpParseAndReads := by
  constructor
  · intro s p v hf hv length
    rw [exec_udpParse hv]
    split
    · next h =>
      rw [stopIf_neg _ (by omega), Abort.ok_bind]
      exact State.commandEffect_setBank hf p _
    · next h =>
      rw [stopIf_pos _ (by omega), Abort.error_bind]
      exact State.commandEffect_stNotRep hf
  · intro s rd loc v hf hv half
    have hhalf : ∀ i, (s.fld16 v i).setWidth 32 = BitVec.ofNat 32 (half i) := fun i =>
      setWidth_eq_ofNat (decode16_toNat v.ord _ _)
    exact ⟨State.udpField_answers hf hv (hhalf 0), State.udpField_answers hf hv (hhalf 2),
      State.udpField_answers hf hv (hhalf 4), State.udpField_answers hf hv (hhalf 6)⟩

/-! ### The byte swap (rule R197) -/

/-- Settles O55: the header is swapped as its kind is, and its four runs exchange the bytes as `udpSwapIndex` lists them. -/
theorem udpBswapResult : Obligations.UdpBswapResult := by
  intro s loc v hf hv
  have hexec : exec (.udpBswap loc) s = .next ((s.swapHeader .udp loc v).reply .stOk 0) := by
    rw [exec_bswap s (.inr ⟨rfl, rfl⟩), hv]
    exact State.commandEffect_ok hf _
  have hview := (State.reply_hv _ .stOk 0 .udp loc).trans (State.hv_swapHeader nofun hv)
  refine ⟨_, hexec, (s.bytesOnly_swapHeader .udp loc v).onlyStores, ⟨_, hview, rfl⟩, fun st a => ?_⟩
  rw [State.reply_storeByte, State.storeByte_swapHeader hv]
  refine ite_congr rfl (fun h => ?_) fun _ => rfl
  rw [Kind.swapIndex_udp _ (by omega)]

/-! ### The reply header (rule R198) -/

/-- Settles O57: the fresh header lists its eight bytes, all of the image as it was before. -/
theorem udpReplyResult : Obligations.UdpReplyResult := by
  intro s loc v hf hv
  rw [exec_udpReply hv]
  refine ⟨_, State.commandEffect_ok hf _, rfl, fun i hi => ?_⟩
  interval_cases i <;> exact ⟨rfl, rfl, rfl, rfl⟩

end Sys2Proof.Machine
end

section
/-! PROOFS. The system command (46_system): the bits of `TAGS`, the CSR map by number, and the read of its entry. -/

namespace Sys2Proof.Machine

/-! ### The bits of `TAGS` (rule R29) -/

/-- An order tag appended below a vector is the head of its list of bits. -/
theorem getLsbD_append_orderBit {n : Nat} {v : BitVec n} {bits : List Bool} (h : ∀ i, v.getLsbD i = bits.getD i false)
    (o : Order) (i : Nat) : (v ++ o.bit).getLsbD i = (decide (o = .host) :: bits).getD i false := by
  rw [BitVec.getLsbD_append]
  cases i with
  | zero => cases o <;> rfl
  | succ i => simpa using h i

/-- Rule R29: `TAGS` holds the six order tags, `HOST` as 1, and zeros above them. -/
theorem State.tags_getLsbD (s : State) (i : Nat) : s.tags.getLsbD i =
    ([s.bank0.nord, s.bank0.tord, s.bank1.nord, s.bank1.tord, s.hipOrd, s.hudpOrd].map
      fun o => decide (o = .host)).getD i false := by
  have hzero : ∀ i, (0#26).getLsbD i = ([] : List Bool).getD i false := fun i => BitVec.getLsbD_zero
  have hstaging := getLsbD_append_orderBit (getLsbD_append_orderBit hzero s.hudpOrd) s.hipOrd
  have hbank1 := getLsbD_append_orderBit (getLsbD_append_orderBit hstaging s.bank1.tord) s.bank1.nord
  exact getLsbD_append_orderBit (getLsbD_append_orderBit hbank1 s.bank0.tord) s.bank0.nord i

/-! ### The CSR map (rules R30, R33) -/

theorem offsetCsr_eq_elim (o : Option Nat) : offsetCsr o = o.elim (0xFFFFFFFF#32) (BitVec.ofNat 32) := by
  cases o <;> rfl

/-- Rule R33: the read values by CSR number, with the gap of the reserved numbers. -/
theorem State.csr_eq_getD (s : State) (n : BitVec 4) : s.csr n =
    [some s.fsr, some s.fcmd, some (BitVec.ofNat 32 s.cfg.pktCap), some (BitVec.ofNat 32 s.cfg.headroom), some s.tags,
      none, none, none,
      some (BitVec.ofNat 32 s.bank0.plen), some (offsetCsr s.bank0.noff), some (offsetCsr s.bank0.toff),
      some (offsetCsr s.bank0.poff), some (BitVec.ofNat 32 s.bank1.plen), some (offsetCsr s.bank1.noff),
      some (offsetCsr s.bank1.toff), some (offsetCsr s.bank1.poff)].getD n.toNat none := by
  have hn : n.toNat < 16 := n.isLt
  unfold State.csr
  generalize n.toNat = k at hn
  interval_cases k <;> rfl

/-! ### The read (rule R210) -/

/-- Settles O60: the number selects its entry of the CSR map; an assigned one is answered, a reserved one is an illegal
word. -/
theorem readCsrResult : Obligations.ReadCsrResult := by
  intro s rd csr offset value tagOrder
  have hvalue : value.getD csr.toNat none = s.csr csr := by
    simp only [value, offset, State.csr_eq_getD, offsetCsr_eq_elim]
  obtain ⟨t, ht⟩ := exec_next (.sysRdcsr rd csr) s
  refine ⟨s.tags_getLsbD, t, ht, ?_⟩
  rw [hvalue]
  rcases execSysRdcsr_cases ht with ⟨v, hv, rfl⟩ | ⟨hn, rfl⟩
  · rw [hv]
    exact s.answered rd v
  · rw [hn]

end Sys2Proof.Machine
end

section
/-! PROOFS. Faults and reset (60_exceptions, 70_reset_and_hazards): the outcomes of a command, what the faulted state answers,
a run from a fault to the next reset, and the state a reset leaves. -/

namespace Sys2Proof.Machine

/-! ### How a command ends (rules R86, R221) -/

/-- The companion of `exec_of_dest`: a command without a destination is an effect. -/
theorem exec_of_dest_none {i : Instr} (s : State) (h : i.dest = none) : ∃ body, exec i s = s.commandEffect body := by
  cases i with
  | rgnSet | icmpBuild => exact ⟨.ok _, rfl⟩
  | pktNew | pktNewReply | pktWr8 | pktFillI | pktFillU | pktFillN | pktPayload | pktWhole | ipParse | ipSetTotLen | ipBswap |
    ipSetCsum | ipReply | icmpParse | icmpSetCsum | udpParse | udpBswap | udpReply | udpSetCsum => exact ⟨_, rfl⟩
  | _ => cases h

/-- All any command can do, as the control fields see it: it does not complete, it answers its value, or it has an effect and
answers 0. -/
theorem exec_control_cases {i : Instr} {s t : State} (h : exec i s = .next t) :
    s.Stopped t ∨ (∃ rd v, i.dest = some rd ∧ t = (s.setReg rd v).reply .stOk v) ∨
      (i.dest = none ∧ ∃ u, s.SameControl u ∧ t = u.reply .stOk 0) := by
  cases hd : i.dest with
  | some rd => exact (exec_dest_cases hd h).imp_right fun ⟨v, ht⟩ => .inl ⟨rd, v, rfl, ht⟩
  | none => exact (exec_effect_control hd h).imp_right fun hu => .inr ⟨rfl, hu⟩

/-! ### The faulted state (rule R227) -/

section
variable {s : State} (hf : s.faulted = true)
include hf

theorem exec_faulted {i : Instr} (hi : ∀ rd csr, i ≠ .sysRdcsr rd csr) :
    exec i s = .next (s.reply .stFaulted s.fsr) := by
  cases hd : i.dest with
  | some rd =>
    obtain ⟨body, hbody⟩ := exec_of_dest s hd (hi rd)
    rw [hbody, State.commandValue_faulted hf]
  | none =>
    obtain ⟨body, hbody⟩ := exec_of_dest_none s hd
    rw [hbody, State.commandEffect_faulted hf]

/-- Only `SYS.RDCSR` completes. -/
theorem exists_sysRdcsr_of_exec_ok {i : Instr} {t : State} {v : Word} (h : exec i s = .next t)
    (hv : t.lastResponse = some { status := .stOk, value := v }) : ∃ rd csr, i = .sysRdcsr rd csr := by
  by_contra! hi
  rw [exec_faulted hf hi] at h
  cases h
  exact State.Stopped.not_ok (.inl ⟨hf, rfl⟩) v hv

theorem runWord_faulted {w : Word} (hw : ∀ rd csr, decode w ≠ .ok (.sysRdcsr rd csr)) :
    runWord w s = .next (s.reply .stFaulted s.fsr) := by
  cases hd : decode w with
  | ok i =>
    rw [runWord_of_decode_ok hd]
    exact exec_faulted hf fun rd csr hi => hw rd csr (hi ▸ hd)
  | error e => rw [runWord_of_decode_error hd, State.illegalWord, if_pos hf]

end

/-- Rule R33: a legal CSR number has a value to read. -/
theorem State.csr_of_legal (s : State) {csr : BitVec 4} (h : csrNumberLegal csr = true) : ∃ v, s.csr csr = some v := by
  have hassigned : ∀ n : BitVec 4, csrNumberLegal n = true → n.toNat < 5 ∨ 8 ≤ n.toNat := by decide
  have hlt : csr.toNat < 16 := csr.isLt
  have hcsr := hassigned csr h
  rw [State.csr_eq_getD]
  generalize csr.toNat = n at hlt hcsr
  rcases hcsr with hlow | hhigh
  · interval_cases n <;> exact ⟨_, rfl⟩
  · interval_cases n <;> exact ⟨_, rfl⟩

/-- A legal `SYS.RDCSR` completes in every state, the faulted one too. -/
theorem runWord_sysRdcsr {w : Word} {rd : Reg} {csr : BitVec 4} (hw : decode w = .ok (.sysRdcsr rd csr)) (s : State) :
    ∃ v, s.csr csr = some v ∧ runWord w s = .next ((s.setReg rd v).reply .stOk v) := by
  obtain ⟨hlegal, -⟩ := encode_of_decode hw
  obtain ⟨v, hv⟩ := s.csr_of_legal hlegal
  obtain ⟨t, ht⟩ := exec_next (.sysRdcsr rd csr) s
  refine ⟨v, hv, (runWord_of_decode_ok hw s).trans ?_⟩
  rcases execSysRdcsr_cases ht with ⟨x, hx, rfl⟩ | ⟨hnone, -⟩
  · rwa [Option.some.inj (hv.symm.trans hx)]
  · rw [hv] at hnone; cases hnone

/-- Settles O10: a word that decodes to a `SYS.RDCSR`, and every other. -/
theorem faultedStateAnswers : Obligations.FaultedStateAnswers := by
  intro s w rest hs hf
  by_cases hread : ∃ rd csr, decode w = .ok (.sysRdcsr rd csr)
  · obtain ⟨rd, csr, hw⟩ := hread
    obtain ⟨v, hv, hrun⟩ := runWord_sysRdcsr hw (s.present w rest)
    refine ⟨_, (step_of_issue hs).trans hrun, fun rd' csr' hw' => ?_, fun hne => absurd hw (hne rd csr)⟩
    cases hw.symm.trans hw'
    exact ⟨v, hv, (s.present w rest).answered rd v⟩
  · push Not at hread
    have hrun := runWord_faulted (s := s.present w rest) hf hread
    exact ⟨_, (step_of_issue hs).trans hrun, fun rd csr hw => absurd hw (hread rd csr), fun _ => rfl⟩

/-! ### The outcomes of a command (rules R221, R222, R226, R227) -/

/-- Settles O11: each ending of `exec_control_cases`, with the response each one gives. -/
theorem commandOutcomes : Obligations.CommandOutcomes := by
  refine ⟨rfl, rfl, rfl, fun i s _ => ?_⟩
  obtain ⟨t, ht⟩ := exec_next i s
  obtain ⟨hcfg, hhost, hcmd, -⟩ := exec_respondsOnce ht
  rcases exec_control_cases ht with (⟨hf, rfl⟩ | ⟨hf, a, rfl⟩) | ⟨rd, v, hd, rfl⟩ | ⟨hd, u, hu, rfl⟩
  · exact ⟨_, ⟨.stFaulted, s.fsr⟩, ht, rfl, hcfg, hhost, hcmd, hf, rfl, rfl⟩
  · cases a with
    | none => exact ⟨_, ⟨.stNone, 0⟩, ht, rfl, hcfg, hhost, hcmd, hf, rfl, rfl⟩
    | notRep => exact ⟨_, ⟨.stNotRep, 0⟩, ht, rfl, hcfg, hhost, hcmd, hf, rfl, rfl⟩
    | noRoom => exact ⟨_, ⟨.stNoRoom, 0⟩, ht, rfl, hcfg, hhost, hcmd, hf, rfl, rfl⟩
    | raise c => exact ⟨_, ⟨.stFault, c.fsr⟩, ht, rfl, hcfg, hhost, hcmd, hf, c, rfl, rfl⟩
  · have hanswered := s.answered rd v
    refine ⟨_, ⟨.stOk, v⟩, ht, by simp, hcfg, hhost, hcmd, fun hf => exists_sysRdcsr_of_exec_ok hf ht rfl, by simp, by simp,
      fun rd' hd' => ?_, fun hnone => ?_⟩
    · cases hd.symm.trans hd'; exact hanswered
    · rw [hd] at hnone; cases hnone
  · obtain ⟨-, hxs, hfsr, hfcmd, -, -, hresponses⟩ := hu
    refine ⟨_, ⟨.stOk, 0⟩, ht, by simp [hresponses], hcfg, hhost, hcmd, fun hf => exists_sysRdcsr_of_exec_ok hf ht rfl, hfsr,
      hfcmd, fun rd' hd' => ?_, fun _ => ⟨rfl, hxs⟩⟩
    rw [hd] at hd'; cases hd'

/-! ### Reset (rule R250) -/

theorem State.resetBlock_reg (s : State) (r : Reg) : s.resetBlock.reg r = 0 :=
  (State.reg_congr rfl r).trans (State.reg_reset r)

theorem State.resetBlock_rgn (s : State) (k : RgnIdx) : s.resetBlock.rgn k = Region.reset := State.rgn_reset k

theorem getElem?_replicate_zero (n a : Nat) : (Vector.replicate n (0 : Byte))[a]?.getD 0 = 0 := by
  rw [Vector.getElem?_replicate]
  split <;> rfl

/-- Every byte of every store reads 0 after reset, those of the empty banks too. -/
theorem State.resetBlock_storeByte (s : State) (st : Store) (a : Nat) : s.resetBlock.storeByte st a = 0 := by
  cases st with
  | bank p => cases p <;> rfl
  | hip => exact getElem?_replicate_zero 20 a
  | hicmp => exact getElem?_replicate_zero 4 a
  | hudp => exact getElem?_replicate_zero 8 a

theorem State.resetBlock_faulted (s : State) : s.resetBlock.faulted = false := by
  rw [State.faulted, State.resetBlock_fsr, BitVec.ofNat_eq_ofNat, BitVec.getLsbD_zero]

/-- With every tag at `WIRE`, `TAGS` is 0. -/
theorem State.resetBlock_tags (s : State) : s.resetBlock.tags = 0 :=
  calc s.resetBlock.tags = State.reset.tags := rfl
    _ = 0 := rfl

/-- Settles O8: the state is `resetBlock`'s, read field by field. -/
theorem resetAction : Obligations.ResetAction := by
  intro s rest hs
  refine ⟨_, step_of_reset hs, State.resetBlock_reg _, fun p => ?_, State.resetBlock_rgn _,
    fun st _ a => State.resetBlock_storeByte _ st a, rfl, rfl, State.resetBlock_tags _, rfl, rfl, rfl, rfl, rfl⟩
  rw [State.resetBlock_bank]
  exact ⟨rfl, rfl, rfl, rfl, rfl, rfl⟩

/-! ### From a fault to the next reset (rules R228, R265) -/

/-- The responses the faulted state `s` gives: that of a word turned away, and that of a `SYS.RDCSR`. -/
def State.FaultedResponse (s : State) (r : Response) : Prop :=
  r = { status := .stFaulted, value := s.fsr } ∨ (r.status = .stOk ∧ ∃ n, s.csr n = some r.value)

/-- Some steps lead from `s` to `t` that only read: they put `new` in front of the responses, leave the host's actions `rest`,
and change nothing else but the general registers and the word being executed. -/
def State.OnlyReads (s t : State) (rest : List HostAction) (new : List Response) : Prop :=
  t = { s with xs := t.xs, cmd := t.cmd, host := rest, responses := new ++ s.responses } ∧ ∀ r ∈ new, s.FaultedResponse r

theorem State.OnlyReads.refl (s : State) : s.OnlyReads s s.host [] := ⟨rfl, fun _ h => absurd h List.not_mem_nil⟩

section
variable {s t u : State} {rest rest' : List HostAction} {new new' : List Response}

theorem State.OnlyReads.faulted (h : s.OnlyReads t rest new) : t.faulted = s.faulted := by rw [h.1]; rfl

theorem State.OnlyReads.host (h : s.OnlyReads t rest new) : t.host = rest := by rw [h.1]

/-- What was read changes no value that the faulted state answers. -/
theorem State.OnlyReads.faultedResponse_iff (h : s.OnlyReads t rest new) (r : Response) :
    t.FaultedResponse r ↔ s.FaultedResponse r := by
  rw [h.1]; rfl

theorem State.OnlyReads.trans (h : s.OnlyReads t rest new) (h' : t.OnlyReads u rest' new') :
    s.OnlyReads u rest' (new' ++ new) := by
  refine ⟨?_, fun r hr => (List.mem_append.mp hr).elim (fun hr' => (h.faultedResponse_iff r).mp (h'.2 r hr')) (h.2 r)⟩
  obtain ⟨ht, -⟩ := h
  obtain ⟨hu, -⟩ := h'
  rw [ht] at hu
  rw [List.append_assoc]
  exact hu

end

/-- A word in the faulted state only reads, with one response. -/
theorem step_onlyReads_of_issue {s : State} {w : Word} {rest : List HostAction} (hf : s.faulted = true)
    (hs : s.host = .issue w :: rest) : ∃ t r, step s = .next t ∧ s.OnlyReads t rest [r] := by
  obtain ⟨t, ht, hread, hother⟩ := faultedStateAnswers s w rest hs hf
  by_cases hw : ∃ rd csr, decode w = .ok (.sysRdcsr rd csr)
  · obtain ⟨rd, csr, hw⟩ := hw
    obtain ⟨v, hv, heq, -⟩ := hread rd csr hw
    refine ⟨t, ⟨.stOk, v⟩, ht, ?_, List.forall_mem_singleton.mpr (.inr ⟨rfl, csr, hv⟩)⟩
    rw [heq]; rfl
  · push Not at hw
    refine ⟨t, ⟨.stFaulted, s.fsr⟩, ht, ?_, List.forall_mem_singleton.mpr (.inl rfl)⟩
    rw [hother hw]; rfl

/-- `k` steps without a reset, from the faulted state, take `k` of the host's actions, or all of them, and only read. -/
theorem run_onlyReads (k : Nat) {s : State} (hf : s.faulted = true) (hreset : ∀ a ∈ s.host.take k, a ≠ .reset) :
    ∃ t new, Sys2Proof.core.run k s = .next t ∧ s.OnlyReads t (s.host.drop k) new ∧ new.length = min k s.host.length := by
  induction k generalizing s with
  | zero => exact ⟨s, [], rfl, .refl s, (Nat.zero_min _).symm⟩
  | succ k ih =>
    cases hs : s.host with
    | nil =>
      obtain ⟨t, new, hrun, hreads, hlen⟩ := ih hf (by simp [hs])
      refine ⟨t, new, (core_run_succ (step_of_idle hs)).trans hrun, ?_, ?_⟩
      · simpa [hs] using hreads
      · simpa [hs] using hlen
    | cons a rest =>
      rw [hs, List.take_succ_cons, List.forall_mem_cons] at hreset
      obtain ⟨ha, hrest⟩ := hreset
      cases a with
      | reset => exact absurd rfl ha
      | issue w =>
        obtain ⟨t, r, hstep, hread⟩ := step_onlyReads_of_issue hf hs
        obtain ⟨u, new, hrun, hreads, hlen⟩ := ih (hread.faulted.trans hf) (by rwa [hread.host])
        rw [hread.host] at hreads hlen
        refine ⟨u, new ++ [r], (core_run_succ hstep).trans hrun, hread.trans hreads, ?_⟩
        simp only [List.length_append, List.length_cons, List.length_nil, hlen]
        omega

/-- Settles O16: reset by its fields, the run by `run_onlyReads`. -/
theorem faultedUntilReset : Obligations.FaultedUntilReset := by
  refine ⟨fun s rest hs => ?_, fun k s hf hreset => ?_⟩
  · exact ⟨_, step_of_reset hs, State.resetBlock_faulted _, State.resetBlock_fsr _, State.resetBlock_fcmd _⟩
  · obtain ⟨t, new, hrun, ⟨heq, hresponses⟩, hlen⟩ := run_onlyReads k hf hreset
    exact ⟨t, new, hrun, heq, hlen, hresponses⟩

end Sys2Proof.Machine
end
